-- ==== Sys2Proof/Word.lean ====
section
/-! DEFINITION. The widths the spec names (00_scope.md R8, R13; 30_encoding.md R80, R87): all bit
vectors are unsigned, bit 0 is the least significant. -/

namespace Sys2Proof

/-- A stream byte, a buffer cell, the register `M`, a channel value: 8 bits (00_scope.md R8). -/
abbrev Byte := BitVec 8

/-- A nibble: the registers `CAND` and `N`, a channel index (10_state.md R20, 30_encoding.md R79). -/
abbrev Nibble := BitVec 4

/-- An input beat, bit 8 `last`, bits 7 to 0 `data` (30_encoding.md R80). -/
abbrev BeatWord := BitVec 9

/-- A word of the EVT port, bit 12 `sync`, bits 11 to 8 `ch`, bits 7 to 0 `val` (30_encoding.md R87). -/
abbrev EvtWord := BitVec 13

end Sys2Proof
end

