-- ==== Sys2Proof/Syntax.lean ====
section
/-! DEFINITION. The operations of the block and every other row of spec/opcode_table.json, as one
inductive type.  An operation is the complete reaction to one accepted input event (00_scope.md
R2); the sub-procedures are called by operations (R15); the wire and output rows are the bytes on
the wire and the words on the EVT port (30_encoding.md R90). -/

namespace Sys2Proof

/-- One constructor for each mnemonic of spec/opcode_table.json.  The four rows of BSKIP are one
operation: "high nibble not 1111" is not one mask/match pair (30_encoding.md R90). -/
inductive Instr where
  /-- BSKIP (40_bootstrap.md R102): a beat in phase BOOT whose high nibble is not 0xF -/
  | bskip (last : Bool) (d : Byte)
  /-- BCAND (40_bootstrap.md R103): a beat in phase BOOT with data `0xF0 + c` -/
  | bcand (last : Bool) (c : Nibble)
  /-- PUSH (41_synchronizer.md R122): a beat in phase RUN with `last = 0` -/
  | push (d : Byte)
  /-- PUSHL (41_synchronizer.md R123): a beat in phase RUN with `last = 1` -/
  | pushl (d : Byte)
  /-- RESET (44_system.md R181): the reset pin event -/
  | reset
  /-- SRCERR (44_system.md R183): the read-error pin event -/
  | srcerr
  /-- WIRE.MARKER (30_encoding.md R73): the marker byte `0xF0 + m` of a frame, on the wire -/
  | wireMarker (m : Nibble)
  /-- WIRE.PAYLOAD (30_encoding.md R74): a payload byte of a frame, on the wire -/
  | wirePayload (v : Byte)
  /-- EVT.AXIS (30_encoding.md R87): an axis event on the EVT port -/
  | evtAxis (ch : Nibble) (val : Byte)
  /-- EVT.SYNC (30_encoding.md R87): the batch-completion event on the EVT port -/
  | evtSync
  /-- BOOTCLOSE (40_bootstrap.md R104), sub-procedure -/
  | bootclose
  /-- CYCLEEND (41_synchronizer.md R124), sub-procedure -/
  | cycleend
  /-- SCAN (41_synchronizer.md R125), sub-procedure -/
  | scan
  /-- DISCARD (41_synchronizer.md R130), sub-procedure; `p` is the position SCAN returned -/
  | discard (p : Nat)
  /-- OVFREC (41_synchronizer.md R132), sub-procedure -/
  | ovfrec
  /-- DECODE (42_decoder.md R151), sub-procedure; `p` is the position SCAN returned -/
  | decode (p : Nat)
  /-- EMIT (42_decoder.md R153), sub-procedure; `batch` is what DECODE returned -/
  | emit (batch : List Byte)
  /-- SAMPLE (43_diagnostics.md R166), sub-procedure; `p` is the position SCAN returned -/
  | sample (p : Nat)
deriving DecidableEq, Repr

/-- The mnemonic of an instruction in spec/opcode_table.json. -/
def Instr.mnemonic : Instr → String
  | .bskip _ _ => "BSKIP"
  | .bcand _ _ => "BCAND"
  | .push _ => "PUSH"
  | .pushl _ => "PUSHL"
  | .reset => "RESET"
  | .srcerr => "SRCERR"
  | .wireMarker _ => "WIRE.MARKER"
  | .wirePayload _ => "WIRE.PAYLOAD"
  | .evtAxis _ _ => "EVT.AXIS"
  | .evtSync => "EVT.SYNC"
  | .bootclose => "BOOTCLOSE"
  | .cycleend => "CYCLEEND"
  | .scan => "SCAN"
  | .discard _ => "DISCARD"
  | .ovfrec => "OVFREC"
  | .decode _ => "DECODE"
  | .emit _ => "EMIT"
  | .sample _ => "SAMPLE"

end Sys2Proof
end

