-- ==== Sys2Proof/WellFormed.lean ====
section
/-! DEFINITION. Which instructions exist: the operand ranges the spec gives. -/

namespace Sys2Proof

/-- The operand ranges of each row:
BSKIP takes `d <= 0xEF` (30_encoding.md R84); WIRE.MARKER takes a nibble 2..15, "0 and 1 are never
a marker" (R73, R77); EVT.AXIS takes a channel 0..13 (R79, R87); a batch has `N` values,
`1 <= N <= 14` (00_scope.md R8, 42_decoder.md R151).  Every other operand is unrestricted. -/
def Instr.wellFormed : Instr → Bool
  | .bskip _ d => decide (d.toNat ≤ 0xEF)
  | .bcand _ _ => true
  | .push _ => true
  | .pushl _ => true
  | .reset => true
  | .srcerr => true
  | .wireMarker m => decide (2 ≤ m.toNat)
  | .wirePayload _ => true
  | .evtAxis ch _ => decide (ch.toNat ≤ 13)
  | .evtSync => true
  | .bootclose => true
  | .cycleend => true
  | .scan => true
  | .discard _ => true
  | .ovfrec => true
  | .decode _ => true
  | .emit batch => decide (1 ≤ batch.length) && decide (batch.length ≤ 14)
  | .sample _ => true

end Sys2Proof
end

