-- ==== Sys2Proof/Decode.lean ====
section
/-! DEFINITION. Decoding and encoding (30_encoding.md).  The same bits mean different things at
different places: a beat in phase BOOT, a beat in phase RUN, a wire byte at the head of a frame, a
wire byte after it, a word of the EVT port (R84, R90).  A `Signal` is a word together with the
place where it stands; the two pins and the sub-procedure calls have no bits (R81, R90) and are
signals of their own. -/

namespace Sys2Proof

/-! ### Bit fields (00_scope.md R13) -/

/-- `b[7:4]`, the high nibble. -/
def hiNibble (b : Byte) : Nibble := b.extractLsb' 4 4

/-- `b[3:0]`, the low nibble. -/
def loNibble (b : Byte) : Nibble := b.extractLsb' 0 4

/-- The byte `{hi, lo}`. -/
def byteOf (hi lo : Nibble) : Byte := hi ++ lo

/-- Bit 8 of a beat (R80). -/
def beatLast (w : BeatWord) : Bool := w.getLsbD 8

/-- Bits 7 to 0 of a beat (R80). -/
def beatData (w : BeatWord) : Byte := w.extractLsb' 0 8

/-- `beat = 256 * last + data` (R80). -/
def beatOf (last : Bool) (d : Byte) : BeatWord := BitVec.ofBool last ++ d

/-- The EVT port word `{sync, ch, val}` (R87). -/
def evtWordOf (sync : Bool) (ch : Nibble) (val : Byte) : EvtWord := BitVec.ofBool sync ++ (ch ++ val)

/-- Candidate test: `b[7:4] = 0xF` (R75). -/
def isCandidate (b : Byte) : Bool := hiNibble b == 0xF#4

/-! ### Signals -/

/-- The two pin events (R81). -/
inductive Pin where
  | reset
  | srcerr
deriving DecidableEq, Repr

/-- A sub-procedure call with its operands.  The table gives these rows no encoding (R90): a call
is its own name. -/
inductive Call where
  | bootclose
  | cycleend
  | scan
  | discard (p : Nat)
  | ovfrec
  | decode (p : Nat)
  | emit (batch : List Byte)
  | sample (p : Nat)
deriving DecidableEq, Repr

/-- What stands at one of the block's boundaries. -/
inductive Signal where
  /-- a beat presented in phase BOOT -/
  | bootBeat (w : BeatWord)
  /-- a beat presented in phase RUN -/
  | runBeat (w : BeatWord)
  /-- a pin event -/
  | pin (p : Pin)
  /-- the wire byte at frame position 0 -/
  | wireFirst (b : Byte)
  /-- a wire byte at a frame position 1..N -/
  | wireLater (b : Byte)
  /-- a word of the EVT port -/
  | evtPort (w : EvtWord)
  /-- a sub-procedure call -/
  | call (c : Call)
deriving DecidableEq, Repr

/-- Why the decoder rejects. -/
inductive Reject where
  /-- a frame's first byte whose high nibble is not 1111 (R73) -/
  | notAMarker
  /-- 0xF0 and 0xF1, "never a marker" (R73, R77) -/
  | neverAMarker
  /-- an EVT word "never produced": `sync = 1` with other bits set, or channel 14 or 15 (R85) -/
  | neverProduced
  /-- a batch of 0 or of more than 14 values (42_decoder.md R151, 00_scope.md R8) -/
  | noSuchBatch
  /-- set bits above the 9 bits of a beat or the 13 bits of an EVT word (R80, R87) -/
  | wordTooWide
  /-- fewer bytes than the word has -/
  | truncated
deriving DecidableEq, Repr

/-! ### The decoder, total on every signal -/

/-- Phase BOOT: the data's high nibble selects BCAND or BSKIP; `last` takes no part (R84). -/
def decodeBoot (w : BeatWord) : Instr :=
  if isCandidate (beatData w) then .bcand (beatLast w) (loNibble (beatData w))
  else .bskip (beatLast w) (beatData w)

/-- Phase RUN: `last` selects PUSHL or PUSH; the data takes no part (R84). -/
def decodeRun (w : BeatWord) : Instr :=
  if beatLast w then .pushl (beatData w) else .push (beatData w)

/-- A frame's first wire byte: `1111mmmm` with `m` in 2..15 (R73, R77). -/
def decodeWireFirst (b : Byte) : Except Reject Instr :=
  if isCandidate b then
    if 2 ≤ (loNibble b).toNat then .ok (.wireMarker (loNibble b)) else .error .neverAMarker
  else .error .notAMarker

/-- An EVT port word (R85, R87). -/
def decodeEvt (w : EvtWord) : Except Reject Instr :=
  if w.getLsbD 12 then
    if w = 0x1000#13 then .ok .evtSync else .error .neverProduced
  else if (w.extractLsb' 8 4).toNat ≤ 13 then
    .ok (.evtAxis (w.extractLsb' 8 4) (w.extractLsb' 0 8))
  else .error .neverProduced

/-- A sub-procedure call. -/
def decodeCall : Call → Except Reject Instr
  | .bootclose => .ok .bootclose
  | .cycleend => .ok .cycleend
  | .scan => .ok .scan
  | .discard p => .ok (.discard p)
  | .ovfrec => .ok .ovfrec
  | .decode p => .ok (.decode p)
  | .emit batch =>
    if 1 ≤ batch.length ∧ batch.length ≤ 14 then .ok (.emit batch) else .error .noSuchBatch
  | .sample p => .ok (.sample p)

/-- The instruction a signal stands for (R84, R90). -/
def decode : Signal → Except Reject Instr
  | .bootBeat w => .ok (decodeBoot w)
  | .runBeat w => .ok (decodeRun w)
  | .pin .reset => .ok .reset
  | .pin .srcerr => .ok .srcerr
  | .wireFirst b => decodeWireFirst b
  | .wireLater b => .ok (.wirePayload b)
  | .evtPort w => decodeEvt w
  | .call c => decodeCall c

/-! ### The encoder -/

/-- The signal of a well-formed instruction (R73, R74, R80, R81, R84, R87). -/
def encode : Instr → Signal
  | .bskip last d => .bootBeat (beatOf last d)
  | .bcand last c => .bootBeat (beatOf last (byteOf 0xF#4 c))
  | .push d => .runBeat (beatOf false d)
  | .pushl d => .runBeat (beatOf true d)
  | .reset => .pin .reset
  | .srcerr => .pin .srcerr
  | .wireMarker m => .wireFirst (byteOf 0xF#4 m)
  | .wirePayload v => .wireLater v
  | .evtAxis ch val => .evtPort (evtWordOf false ch val)
  | .evtSync => .evtPort (evtWordOf true 0#4 0#8)
  | .bootclose => .call .bootclose
  | .cycleend => .call .cycleend
  | .scan => .call .scan
  | .discard p => .call (.discard p)
  | .ovfrec => .call .ovfrec
  | .decode p => .call (.decode p)
  | .emit batch => .call (.emit batch)
  | .sample p => .call (.sample p)

/-! ### Words as bytes

The ports are parallel and the spec lays no word out in bytes; a word of more than 8 bits is taken
as two bytes, the low one first (DESIGN CHOICE, log 13). -/

/-- The places where the table gives bits. -/
inductive Place where
  | bootBeat
  | runBeat
  | wireFirst
  | wireLater
  | evtPort
deriving DecidableEq, Repr

/-- The instruction at the head of a list of bytes standing at a place, with the bytes after it. -/
def decodeBytes : Place → List Byte → Except Reject (Instr × List Byte)
  | .bootBeat, lo :: hi :: rest =>
    if hi.toNat < 2 then (decode (.bootBeat (beatOf (hi.getLsbD 0) lo))).map (·, rest)
    else .error .wordTooWide
  | .runBeat, lo :: hi :: rest =>
    if hi.toNat < 2 then (decode (.runBeat (beatOf (hi.getLsbD 0) lo))).map (·, rest)
    else .error .wordTooWide
  | .wireFirst, b :: rest => (decode (.wireFirst b)).map (·, rest)
  | .wireLater, b :: rest => (decode (.wireLater b)).map (·, rest)
  | .evtPort, lo :: hi :: rest =>
    if hi.toNat < 32 then
      (decode (.evtPort (evtWordOf (hi.getLsbD 4) (loNibble hi) lo))).map (·, rest)
    else .error .wordTooWide
  | _, _ => .error .truncated

/-- The place of a word of spec/opcode_table.json, told from how many bits the row gives it and
from its value: the BOOT rows fix bits of the data byte only (8 bits), the RUN rows fix bit 8, and
what lies above the 9 bits of a beat is a word of the EVT port (DESIGN CHOICE, log 12). -/
def tablePlace (nbits w : Nat) : Option Place :=
  if nbits ≤ 8 then (if w < 0x100 then some .bootBeat else none)
  else if w < 0x200 then some .runBeat
  else if w < 0x2000 then some .evtPort
  else none

/-- A word of the table as bytes. -/
def tableBytes (w : Nat) : List Byte := [BitVec.ofNat 8 w, BitVec.ofNat 8 (w / 256)]

/-- What the decoder reads from a word of spec/opcode_table.json. -/
def decodeTableWord (nbits w : Nat) : Option Instr :=
  match tablePlace nbits w with
  | none => none
  | some pl =>
    match decodeBytes pl (tableBytes w) with
    | .ok (i, _) => some i
    | .error _ => none

/-! ### The opcode table -/

/-- A row of spec/opcode_table.json that has bits: its mnemonic, the place of its words, its mask
and its match. -/
structure Row where
  mnemonic : String
  place : Place
  mask : Nat
  value : Nat
deriving DecidableEq, Repr

/-- The rows of spec/opcode_table.json that have bits (30_encoding.md R90). -/
def opcodeTable : List Row :=
  [ ⟨"BSKIP", .bootBeat, 0x080, 0x000⟩, ⟨"BSKIP", .bootBeat, 0x0C0, 0x080⟩,
    ⟨"BSKIP", .bootBeat, 0x0E0, 0x0C0⟩, ⟨"BSKIP", .bootBeat, 0x0F0, 0x0E0⟩,
    ⟨"BCAND", .bootBeat, 0x0F0, 0x0F0⟩,
    ⟨"PUSH", .runBeat, 0x100, 0x000⟩, ⟨"PUSHL", .runBeat, 0x100, 0x100⟩,
    ⟨"WIRE.MARKER", .wireFirst, 0xF0, 0xF0⟩, ⟨"WIRE.PAYLOAD", .wireLater, 0x00, 0x00⟩,
    ⟨"EVT.AXIS", .evtPort, 0x1000, 0x0000⟩, ⟨"EVT.SYNC", .evtPort, 0x1FFF, 0x1000⟩ ]

/-- A word matches a row. -/
def Row.hits (r : Row) (w : Nat) : Bool := w &&& r.mask == r.value

/-- The place and the bits of a signal, where it has bits. -/
def Signal.bits : Signal → Option (Place × Nat)
  | .bootBeat w => some (.bootBeat, w.toNat)
  | .runBeat w => some (.runBeat, w.toNat)
  | .pin _ => none
  | .wireFirst b => some (.wireFirst, b.toNat)
  | .wireLater b => some (.wireLater, b.toNat)
  | .evtPort w => some (.evtPort, w.toNat)
  | .call _ => none

end Sys2Proof
end

