-- ==== Sys2Proof/Config.lean ====
section
/-! DEFINITION. The configuration of the block (00_scope.md R7, R12: `Config = (W, CAP, SEQ_W, P,
TESTMODE)`) and the free values the spec leaves unspecified (93_implementation_defined.md U2, U3,
U4).  The configuration is plain data in State, so that a statement over all states is a statement
over all parameter values (U14). -/

namespace Sys2Proof

/-- Implementation parameters (00_scope.md R7) and configuration inputs (10_state.md R33, R34).
No operation changes them (R7, R35). -/
structure Config where
  /-- `W`: number of stream bytes the Bootstrap Scanner consumes -/
  w : Nat
  /-- `CAP`: capacity of the accumulation buffer in bytes -/
  cap : Nat
  /-- `SEQ_W`: width in bits of the frame counter and of the sample period -/
  seqW : Nat
  /-- `P`: the sample period, 0 = disabled -/
  p : Nat
  /-- `TESTMODE`: the Event Sink is disabled -/
  testmode : Bool
deriving DecidableEq, Repr

/-- The constraints of 00_scope.md R7 on the parameters and the range of `P` (10_state.md R33). -/
abbrev Config.ok (c : Config) : Prop :=
  1 ≤ c.w ∧ 30 ≤ c.cap ∧ 1 ≤ c.seqW ∧ c.p < 2 ^ c.seqW

/-- The default parameters of 00_scope.md R7; `P` = 0 and `TESTMODE` = 0 are a DESIGN CHOICE
(log 7). -/
def Config.default : Config :=
  { w := 32, cap := 64, seqW := 32, p := 0, testmode := false }

/-! ### Free values

Each is applied to the counter `State.free`; nothing constrains any of them.  The values after
RESET: log 3; after a fatal error: log 4; of a status port outside its "valid when" column: log 16. -/

/-- `CAND` where the spec leaves it unspecified (10_state.md R42, 60_exceptions.md R208). -/
opaque Config.freeCand : Nat → Nibble
/-- `N` where the spec leaves it unspecified (10_state.md R42, 60_exceptions.md R208). -/
opaque Config.freeN : Nat → Nibble
/-- `M` where the spec leaves it unspecified (10_state.md R42, 60_exceptions.md R208). -/
opaque Config.freeM : Nat → Byte
/-- `BOOTCNT` after a fatal error (60_exceptions.md R208). -/
opaque Config.freeBootcnt : Nat → Nat
/-- `CANDV` after a fatal error (60_exceptions.md R208). -/
opaque Config.freeCandv : Nat → Bool
/-- `LEN` after a fatal error (60_exceptions.md R208). -/
opaque Config.freeLen : Nat → Nat
/-- `SEQ` after a fatal error (60_exceptions.md R208). -/
opaque Config.freeSeq : Nat → Nat
/-- The `N` port outside phase RUN (10_state.md R36, U4). -/
opaque Config.freePortN : Nat → Nibble
/-- The `M` port outside phase RUN (10_state.md R36, U4). -/
opaque Config.freePortM : Nat → Byte
/-- The `LEN` port in phase FAIL, cut to the port's width where it is read (10_state.md R36, U4). -/
opaque Config.freePortLen : Nat → Nat
/-- The `SEQ` port in phase FAIL, cut to the port's width where it is read (10_state.md R36, U4). -/
opaque Config.freePortSeq : Nat → Nat

end Sys2Proof
end

