-- ==== Sys2Proof/Machine/State.lean ====
section
/-! DEFINITION. The state of the block and of what stands around it, as plain data.  The registers
are the record of 10_state.md R20 "and nothing else"; beside them State holds the configuration
(00_scope.md R7, R12), the two output traces (R12, R14), the environment's pins and queues (R11)
and two fields of the model's own (`result`, `free`).  Every field is listed in INVENTORY.md. -/

namespace Sys2Proof.Machine

/-- `PHASE` (10_state.md R21).  "The value 3 is never reached by any rule and a model need not
represent it." -/
inductive Phase where
  /-- 0: the Bootstrap Scanner consumes beats -/
  | boot
  /-- 1: the Frame Synchronizer consumes beats -/
  | run
  /-- 2: a fatal error has been raised; only RESET has an effect -/
  | fail
deriving DecidableEq, Repr

/-- `ERR`, the error kind that ended the run (10_state.md R22, 60_exceptions.md R201). -/
inductive Err where
  | none
  | syncNotFound
  | readError
  | sinkWriteError
deriving DecidableEq, Repr

/-- An event of the EVT port (30_encoding.md R87). -/
inductive EvtEvent where
  | axis (ch : Nibble) (val : Byte)
  | sync
deriving DecidableEq, Repr

/-- An event of the DIAG port (30_encoding.md R88, 43_diagnostics.md R169). -/
inductive DiagEvent where
  | nch (n : Nibble)
  | frame (seq : Nat) (bytes : List Byte)
  | errmsg (code : BitVec 2)
deriving DecidableEq, Repr

/-- The Event Sink's answer to a published batch (30_encoding.md R89, 44_system.md R186). -/
inductive SinkAnswer where
  /-- every event of the batch was accepted -/
  | ok
  /-- `FAIL(k)`: the sink accepted the first `k` events and failed on the next one -/
  | failAt (k : Nat)
  /-- the sink never answers (70_reset_and_hazards.md R246) -/
  | never
deriving DecidableEq, Repr

/-- A beat the Byte Source offers (30_encoding.md R80), with the answer the sink will give to the
batch this beat publishes, if it publishes one (R92, log 8). -/
structure Offer where
  word : BeatWord
  ans : SinkAnswer
deriving DecidableEq, Repr

/-- One action of the environment between two operations (00_scope.md R11). -/
inductive EnvAction where
  /-- the host asserts the reset pin (30_encoding.md R81) -/
  | assertReset
  /-- the Byte Source's read returned `error` (R81) -/
  | assertSrcerr
  /-- the Byte Source offers a beat (R80) -/
  | offer (o : Offer)
  /-- the beat of a line of a stream script: offered, except in phase FAIL, where the line is "no
  step" (R92, 95_test_vectors.md P3; log 20) -/
  | scriptBeat (o : Offer)
  /-- the remote receiver sends a byte, which the Byte Source holds (R72) -/
  | send (b : Byte)
  /-- a read returns up to `k` of the bytes held, as beats (R80) -/
  | read (k : Nat) (ans : SinkAnswer)
deriving DecidableEq, Repr

/-- What a sub-procedure run by itself hands to its caller (10_state.md R32: transient). -/
inductive SubResult where
  /-- SCAN: a position, or none (41_synchronizer.md R125) -/
  | index (p : Option Nat)
  /-- DECODE: a channel batch (42_decoder.md R151) -/
  | batch (values : List Byte)
deriving DecidableEq, Repr

/-- The cells of the buffer that hold a value: index and byte, indices strictly rising.  A cell
that is not listed holds no value (10_state.md R28, R42; log 5). -/
abbrev Memory := List Host.Cell

/-- The machine. -/
structure State where
  /-- the parameters and configuration inputs (00_scope.md R7, R12; 10_state.md R33, R34) -/
  cfg : Config
  /-- `PHASE` (10_state.md R21) -/
  phase : Phase
  /-- `ERR` (R22) -/
  err : Err
  /-- `BOOTCNT` (R23) -/
  bootcnt : Nat
  /-- `CANDV` (R25) -/
  candv : Bool
  /-- `CAND` (R25) -/
  cand : Nibble
  /-- `N` (R26) -/
  n : Nibble
  /-- `M` (R27) -/
  m : Byte
  /-- `BUF` (R28, 20_memory.md R50) -/
  buf : Memory
  /-- `LEN` (R29) -/
  len : Nat
  /-- `SEQ` (R30) -/
  seq : Nat
  /-- the EVT trace, oldest event first (00_scope.md R14) -/
  evt : List EvtEvent
  /-- the DIAG trace, oldest event first (00_scope.md R14) -/
  diag : List DiagEvent
  /-- a RESET event is presented and not yet taken (30_encoding.md R81) -/
  resetPin : Bool
  /-- a SRCERR event is presented and not yet taken (30_encoding.md R81) -/
  srcerrPin : Bool
  /-- the beats offered and not yet transferred, next one first (30_encoding.md R80) -/
  source : List Offer
  /-- the bytes the Byte Source holds and no read has returned, oldest first -/
  wire : List Byte
  /-- what the environment does between the operations to come, next gap first -/
  script : List (List EnvAction)
  /-- the sink's answer to a batch that the operation being run publishes (44_system.md R186) -/
  ans : SinkAnswer
  /-- the model's own: the result of a sub-procedure run by itself (log 9) -/
  result : Option SubResult
  /-- the model's own: the number of the next free value (log 17) -/
  free : Nat
deriving DecidableEq, Repr

/-- Why the machine stops.  None of these is an error kind of the hardware: those are state changes
(60_exceptions.md R208). -/
inductive Fault where
  /-- MemRead of a cell at `LEN` or above, or of a cell that holds no value (20_memory.md R55:
  "defined only for 0 <= i < LEN").  Raised by SCAN, DECODE, SAMPLE, DISCARD, OVFREC and the
  operations that call them, by no step from a state that meets `BlockInv`.  Safe. -/
  | cellHoldsNoValue
  /-- A store at an index outside 0..CAP-1, or a discard of more bytes than the buffer holds: the
  spec defines neither (20_memory.md R50, R68), that the model stops there is its own choice (log
  21).  Raised by PUSH, PUSHL, DISCARD, by no step from a state that meets `BlockInv`.  Safe. -/
  | indexOutsideBuffer
  /-- The sink never answers: the block is stuck inside the operation
  (70_reset_and_hazards.md R246, 93_implementation_defined.md U13).  Raised by EMIT and the
  operations that call it.  Safe. -/
  | sinkNeverAnswers
deriving DecidableEq, Repr

/-- Why an instruction has no meaning in a state. -/
inductive Refusal where
  /-- no meaning for the instruction yet -/
  | notModelled (mnemonic : String)
  /-- a beat in phase FAIL: "not accepted: in_ready = 0, the beat stays with the source, no step"
  (30_encoding.md R84).  Raised by BSKIP, BCAND, PUSH, PUSHL.  Safe. -/
  | notAccepted
  /-- an operation of phase BOOT in phase RUN or the other way round: another row of 30_encoding.md
  R84 is the one that applies.  Raised by BSKIP, BCAND, PUSH, PUSHL.  Safe. -/
  | notSelected
  /-- a sub-procedure in a state that does not meet what the model asks of its call (00_scope.md R15,
  log 9), or an EVT port word where none is emitted (42_decoder.md R153, log 11).  Raised by the sub-procedures and the EVT rows.  Safe. -/
  | notCalled
  /-- a signal that the decoder rejects.  Raised by step; no signal that step fetches is rejected.
  Safe. -/
  | undecodable
deriving DecidableEq, Repr

/-- What a sub-procedure's pseudocode does to the state: it goes on, it raised an error and so
ended the operation (60_exceptions.md R208), or it cannot go on. -/
inductive Flow where
  | go (s : State)
  | raised (s : State)
  | stop (f : Fault)

/-- The state right after RESET (10_state.md R42) with the default parameters (00_scope.md R7).
`CAND`, `N` and `M`, which the spec leaves unspecified, are 0 (DESIGN CHOICE, log 2); no buffer
cell holds a value (log 5); the traces and the environment's queues are empty, the pins low, the
sink's answer OK (DESIGN CHOICE, logs 1, 8, 14). -/
def State.reset : State :=
  { cfg := Config.default
    phase := .boot, err := .none, bootcnt := 0, candv := false, cand := 0#4, n := 0#4, m := 0#8
    buf := [], len := 0, seq := 0
    evt := [], diag := []
    resetPin := false, srcerrPin := false, source := [], wire := [], script := [], ans := .ok
    result := none, free := 0 }

end Sys2Proof.Machine
end

