-- ==== Sys2Proof/Machine/Operands.lean ====
section
/-! DEFINITION. Operand assembly (30_encoding.md section 3) and the interface words built from it. -/

namespace Sys2Proof.Machine

/-- The count a candidate's low nibble proposes, on integers, not modulo 16 (30_encoding.md R76,
00_scope.md R18): -1..14. -/
def channelCount (c : Nibble) : Int := (c.toNat : Int) - 1

/-- `M = 0xF0 + N + 1` (30_encoding.md R78). -/
def markerOf (n : Nat) : Byte := BitVec.ofNat 8 (0xF0 + n + 1)

/-- Frame length `N + 1` (30_encoding.md R83). -/
def frameLength (n : Nat) : Nat := n + 1

/-- "A decoder of the stream tells the length of a frame from the low nibble of its marker"
(30_encoding.md R83). -/
def frameLengthOfMarker (m : Byte) : Nat := (loNibble m).toNat

/-- The channel of the payload byte at frame position `j`, `1 <= j` (30_encoding.md R79). -/
def channelOfPosition (j : Nat) : Nat := j - 1

/-- The AXIS events of a batch, channels `i`, `i + 1`, ... (42_decoder.md R153). -/
def axisFrom : Nat → List Byte → List EvtEvent
  | _, [] => []
  | i, v :: vs => .axis (BitVec.ofNat 4 i) v :: axisFrom (i + 1) vs

/-- `AXIS(0, ..), ..., AXIS(N-1, ..)` (42_decoder.md R153). -/
def axisEvents (batch : List Byte) : List EvtEvent := axisFrom 0 batch

/-- The events of a completed batch (42_decoder.md R153, R154). -/
def batchEvents (batch : List Byte) : List EvtEvent := axisEvents batch ++ [.sync]

/-- The port word of an event (30_encoding.md R87). -/
def evtWord : EvtEvent → EvtWord
  | .axis ch val => evtWordOf false ch val
  | .sync => evtWordOf true 0#4 0#8

/-- A frame on the wire: marker, then the payload (30_encoding.md R72, 42_decoder.md R156). -/
def encodeFrame (n : Nat) (batch : List Byte) : List Byte := markerOf n :: batch

/-- The beats of one read that returns these bytes: `last` on the final one (30_encoding.md R80).
No bytes, no beats: "a read never returns zero bytes". -/
def chunkBeats : List Byte → List BeatWord
  | [] => []
  | [b] => [beatOf true b]
  | b :: rest => beatOf false b :: chunkBeats rest

/-- The sink answers `FAIL(k)` (or never answers); the events it has accepted by then
(30_encoding.md R89, 42_decoder.md R153): the first `k` AXIS events, all of them when `k` is the
number of channels. -/
def acceptedEvents (batch : List Byte) (k : Nat) : List EvtEvent := (axisEvents batch).take k

end Sys2Proof.Machine
end

