-- ==== Sys2Proof/Machine/Flags.lean ====
section
/-! DEFINITION. There are no condition codes (10_state.md R39).  What an observer reads is the
status ports (R36), `in_ready` (R37) and the codes of `PHASE` and `ERR` (R20, R21, R22). -/

namespace Sys2Proof.Machine

/-- The 2-bit code of `PHASE` (10_state.md R20, R21). -/
def Phase.code : Phase → BitVec 2
  | .boot => 0
  | .run => 1
  | .fail => 2

/-- The 2-bit code of `ERR` (10_state.md R20, 60_exceptions.md R201). -/
def Err.code : Err → BitVec 2
  | .none => 0
  | .syncNotFound => 1
  | .readError => 2
  | .sinkWriteError => 3

/-- `in_ready = 1` exactly when `PHASE != FAIL` (10_state.md R37). -/
def inReady (s : State) : Bool := s.phase != .fail

/-- The read-only status ports (10_state.md R36). -/
structure StatusPorts where
  phase : BitVec 2
  err : BitVec 2
  n : Nibble
  m : Byte
  len : Nat
  seq : Nat
  inReady : Bool
deriving DecidableEq, Repr

/-- The width of the `LEN` port: the bits for `0..CAP` (10_state.md R20, R36). -/
def lenWidth (cap : Nat) : Nat := Nat.log2 cap + 1

/-- The ports of a state.  Outside its "valid when" column a port reads a free value of the port's
width (R36, U4, log 16). -/
def ports (s : State) : StatusPorts :=
  { phase := s.phase.code
    err := s.err.code
    n := if s.phase = .run then s.n else Config.freePortN s.free
    m := if s.phase = .run then s.m else Config.freePortM s.free
    len := if s.phase = .fail then Config.freePortLen s.free % 2 ^ lenWidth s.cfg.cap else s.len
    seq := if s.phase = .fail then Config.freePortSeq s.free % 2 ^ s.cfg.seqW else s.seq
    inReady := inReady s }

end Sys2Proof.Machine
end

