-- ==== Sys2Proof/Machine/Ops.lean ====
section
/-! DEFINITION. The operations every meaning is built from: the buffer's cells, the output ports,
the trap entry and RESET's writes. -/

namespace Sys2Proof.Machine

/-! ### The buffer (20_memory.md) -/

/-- The byte in cell `i`, if the cell holds a value. -/
def Memory.read : Memory → Nat → Option Byte
  | [], _ => none
  | (a, b) :: rest, i => if i = a then some b else Memory.read rest i

/-- Cell `i` gets byte `v`; the list stays strictly rising. -/
def Memory.write : Memory → Nat → Byte → Memory
  | [], i, v => [(i, v)]
  | (a, b) :: rest, i, v =>
    if i < a then (i, v) :: (a, b) :: rest
    else if i = a then (a, v) :: rest
    else (a, b) :: Memory.write rest i v

/-- The cells below `r`; the others hold no value any more (20_memory.md R56: "free and their
contents are unspecified"; log 6). -/
def Memory.keepBelow (mem : Memory) (r : Nat) : Memory := mem.filter (fun c => decide (c.1 < r))

/-- The canonical form: indices strictly rising. -/
def Memory.wf : Memory → Bool
  | [] => true
  | [_] => true
  | (a, _) :: (a', b') :: rest => decide (a < a') && Memory.wf ((a', b') :: rest)

/-- The bytes listed, in the order of their indices. -/
def Memory.bytes (mem : Memory) : List Byte := mem.map Prod.snd

/-- `MemRead(i, 1)`, defined only for `0 <= i < LEN` (20_memory.md R55). -/
def readBuf (s : State) (i : Nat) : Option Byte := if i < s.len then s.buf.read i else none

/-- `k` bytes from index `i` on, each by MemRead. -/
def readRange (s : State) : Nat → Nat → Option (List Byte)
  | _, 0 => some []
  | i, k + 1 =>
    match readBuf s i with
    | none => none
    | some b =>
      match readRange s (i + 1) k with
      | none => none
      | some bs => some (b :: bs)

/-- `BUF[LEN] <- d; LEN <- LEN + 1` (41_synchronizer.md R122), which needs `LEN < CAP`
(20_memory.md R68). -/
def appendByte (d : Byte) (s : State) : Flow :=
  if s.len < s.cfg.cap then .go { s with buf := s.buf.write s.len d, len := s.len + 1 }
  else .stop .indexOutsideBuffer

/-- `for i in i .. i + r - 1 do BUF[i] <- BUF[i + K]`, ascending (20_memory.md R56). -/
def moveDown (k : Nat) : Nat → Nat → Memory → Option Memory
  | 0, _, mem => some mem
  | r + 1, i, mem =>
    match mem.read (i + k) with
    | none => none
    | some b => moveDown k r (i + 1) (mem.write i b)

/-- The move of DISCARD and OVFREC: `r` bytes from index `K` on to the head, then `LEN <- r`
(41_synchronizer.md R130, R132). -/
def keepNewest (k r : Nat) (s : State) : Flow :=
  match moveDown k r 0 s.buf with
  | none => .stop .cellHoldsNoValue
  | some mem => .go { s with buf := mem.keepBelow r, len := r }

/-! ### The output ports (00_scope.md R14) -/

/-- `emit EVT e`, for a list of events in order. -/
def emitEvt (es : List EvtEvent) (s : State) : State := { s with evt := s.evt ++ es }

/-- `emit DIAG e`. -/
def emitDiag (e : DiagEvent) (s : State) : State := { s with diag := s.diag ++ [e] }

/-! ### Trap entry and RESET -/

/-- `raise E` (60_exceptions.md R208): `PHASE <- FAIL`, `ERR <- code(E)`, `emit DIAG ERRMSG`; every
other register is unspecified from here on, so each gets a free value within its range and no cell
of the buffer holds a value (log 4).  Nothing is saved, there is no handler. -/
def trap (e : Err) (s : State) : State :=
  { s with
    phase := .fail
    err := e
    diag := s.diag ++ [.errmsg e.code]
    bootcnt := Config.freeBootcnt s.free % (s.cfg.w + 1)
    candv := Config.freeCandv s.free
    cand := Config.freeCand s.free
    n := Config.freeN s.free
    m := Config.freeM s.free
    buf := []
    len := Config.freeLen s.free % (s.cfg.cap + 1)
    seq := Config.freeSeq s.free % 2 ^ s.cfg.seqW
    free := s.free + 1 }

/-- RESET's writes (44_system.md R181), the only way out of phase FAIL: there is no trap return
(60_exceptions.md R210).  `CAND`, `N`, `M` and the cells are unspecified afterwards: free values,
and no cell holds a value (log 3). -/
def resetBlock (s : State) : State :=
  { s with
    phase := .boot
    err := .none
    bootcnt := 0
    candv := false
    cand := Config.freeCand s.free
    n := Config.freeN s.free
    m := Config.freeM s.free
    buf := []
    len := 0
    seq := 0
    free := s.free + 1 }

/-! ### Sequencing inside an operation -/

/-- The next line of the pseudocode; a raise ends the operation at once (60_exceptions.md R208). -/
def Flow.andThen (f : Flow) (g : State → Flow) : Flow :=
  match f with
  | .go s => g s
  | .raised s => .raised s
  | .stop e => .stop e

/-- The outcome of a whole operation: a raise is a next state, in phase FAIL. -/
def Flow.outcome (f : Flow) : Host.Outcome State Fault Refusal :=
  match f with
  | .go s => .next s
  | .raised s => .next s
  | .stop e => .fault e

/-- A beat's operation runs only in the phase that selects it (30_encoding.md R84); in phase FAIL
no beat is accepted (60_exceptions.md R210). -/
def inPhase (p : Phase) (s : State) (f : Flow) : Host.Outcome State Fault Refusal :=
  if s.phase = p then f.outcome
  else if s.phase = .fail then .refused .notAccepted
  else .refused .notSelected

/-- A sub-procedure run by itself: `c` is what the model asks of the state of the call; the spec's
sub-procedures are only "called by operations" (00_scope.md R15; DESIGN CHOICE, log 9). -/
def whenCalled (c : Prop) [Decidable c] (f : Flow) : Host.Outcome State Fault Refusal :=
  if c then f.outcome else .refused .notCalled

end Sys2Proof.Machine
end

