-- ==== Sys2Proof/Machine/Bootstrap.lean ====
section
/-! DEFINITION. The Bootstrap Scanner: BSKIP, BCAND, BOOTCLOSE (40_bootstrap.md). -/

namespace Sys2Proof.Machine

/-- What BOOTCLOSE writes on success: `N <- n`, `M <- 0xF0 + n + 1`, `PHASE <- RUN`, and
`emit DIAG NCH(n)` (40_bootstrap.md R104). -/
def enterRun (n : Nat) (s : State) : State :=
  { s with
    n := BitVec.ofNat 4 n
    m := markerOf n
    phase := .run
    diag := s.diag ++ [.nch (BitVec.ofNat 4 n)] }

/-- BOOTCLOSE: close the window and decide (40_bootstrap.md R104). -/
def bootClose (s : State) : Flow :=
  if s.candv = false then .raised (trap .syncNotFound s)
  else if channelCount s.cand ≤ 0 then .raised (trap .syncNotFound s)
  else .go (enterRun (channelCount s.cand).toNat s)

/-- `BOOTCNT <- BOOTCNT + 1; if BOOTCNT = W then BOOTCLOSE` (40_bootstrap.md R102, R103). -/
def countBootByte (s : State) : Flow :=
  if s.bootcnt + 1 = s.cfg.w then bootClose { s with bootcnt := s.bootcnt + 1 }
  else .go { s with bootcnt := s.bootcnt + 1 }

/-- BSKIP (40_bootstrap.md R102): neither `last` nor the data is used. -/
def execBskip (s : State) : Host.Outcome State Fault Refusal :=
  inPhase .boot s (countBootByte s)

/-- BCAND (40_bootstrap.md R103): "overwrites any earlier candidate: the last one wins"; the
candidate is recorded before the window-close test; `last` is ignored. -/
def execBcand (c : Nibble) (s : State) : Host.Outcome State Fault Refusal :=
  inPhase .boot s (countBootByte { s with candv := true, cand := c })

/-- BOOTCLOSE by itself, where BSKIP and BCAND call it: "called by BSKIP or BCAND when
BOOTCNT = W" (40_bootstrap.md R104; log 9). -/
def execBootclose (s : State) : Host.Outcome State Fault Refusal :=
  whenCalled (s.phase = .boot ∧ s.bootcnt = s.cfg.w) (bootClose s)

end Sys2Proof.Machine
end

