-- ==== Sys2Proof/Machine/Decoder.lean ====
section
/-! DEFINITION. The Channel Decoder: DECODE, EMIT (42_decoder.md). -/

namespace Sys2Proof.Machine

/-- DECODE: `batch[i] <- BUF[p + 1 + i]` for `i = 0 .. N - 1` (42_decoder.md R151). -/
def decodeBatch (p : Nat) (s : State) : Option (List Byte) := readRange s (p + 1) s.n.toNat

/-- EMIT: publish the batch (42_decoder.md R153).  In test mode nothing is emitted and the sink's
answer is not consulted; a sink that never answers leaves the block stuck
(70_reset_and_hazards.md R246). -/
def emitBatch (batch : List Byte) (s : State) : Flow :=
  if s.cfg.testmode then .go s
  else
    match s.ans with
    | .ok => .go (emitEvt (batchEvents batch) s)
    | .failAt k => .raised (trap .sinkWriteError (emitEvt (acceptedEvents batch k) s))
    | .never => .stop .sinkNeverAnswers

/-- DECODE by itself (42_decoder.md R151): in phase RUN, where `N` holds a value; the batch is
handed over in `result`.  That it runs at a `p` that does not qualify too is a DESIGN CHOICE
(log 9). -/
def execDecode (p : Nat) (s : State) : Host.Outcome State Fault Refusal :=
  whenCalled (s.phase = .run)
    (match decodeBatch p s with
     | none => .stop .cellHoldsNoValue
     | some batch => .go { s with result := some (.batch batch) })

/-- EMIT by itself (42_decoder.md R153): in phase RUN, with a batch of `N` values; that it
runs on such a batch that DECODE did not return too is a DESIGN CHOICE (log 9). -/
def execEmit (batch : List Byte) (s : State) : Host.Outcome State Fault Refusal :=
  whenCalled (s.phase = .run ∧ batch.length = s.n.toNat) (emitBatch batch s)

end Sys2Proof.Machine
end

