-- ==== Sys2Proof/Machine/Diagnostics.lean ====
section
/-! DEFINITION. The Diagnostics Sampler: SAMPLE (43_diagnostics.md). -/

namespace Sys2Proof.Machine

/-- `(SEQ + 1) mod 2^SEQ_W` (43_diagnostics.md R166): the only wrapping arithmetic of the block
(00_scope.md R18). -/
def nextSeq (s : State) : Nat := (s.seq + 1) % 2 ^ s.cfg.seqW

/-- `P != 0 and SEQ mod P = 0`, for a sequence number (43_diagnostics.md R166). -/
def reportDue (p seq : Nat) : Bool := p != 0 && seq % p == 0

/-- SAMPLE: count the frame and report it, marker first, if due (43_diagnostics.md R166). -/
def sampleFrame (p : Nat) (s : State) : Flow :=
  if reportDue s.cfg.p (nextSeq s) then
    match readRange s p (s.n.toNat + 1) with
    | none => .stop .cellHoldsNoValue
    | some bytes => .go (emitDiag (.frame (nextSeq s) bytes) { s with seq := nextSeq s })
  else .go { s with seq := nextSeq s }

/-- SAMPLE by itself (43_diagnostics.md R166): in phase RUN.  R166's operand is "the position of the
frame just decoded"; that it runs at another `p`, and without an EMIT before it, is a DESIGN CHOICE
(log 9). -/
def execSample (p : Nat) (s : State) : Host.Outcome State Fault Refusal :=
  whenCalled (s.phase = .run) (sampleFrame p s)

end Sys2Proof.Machine
end

