-- ==== Sys2Proof/Machine/Synchronizer.lean ====
section
/-! DEFINITION. The Frame Synchronizer: PUSH, PUSHL, CYCLEEND, SCAN, DISCARD, OVFREC
(41_synchronizer.md). -/

namespace Sys2Proof.Machine

/-- SCAN's loop: the indices below `k`, from the highest down (41_synchronizer.md R125). -/
def scanBelow (s : State) : Nat → Except Fault (Option Nat)
  | 0 => .ok none
  | p + 1 =>
    match readBuf s p with
    | none => .error .cellHoldsNoValue
    | some b => if b = s.m then .ok (some p) else scanBelow s p

/-- SCAN: the largest qualifying position, or none (41_synchronizer.md R125).  The first index
examined is `LEN - N - 1`; there is none when `LEN < N + 1`. -/
def scanBuf (s : State) : Except Fault (Option Nat) := scanBelow s (s.len - s.n.toNat)

/-- DISCARD: `K <- p + N + 1; r <- LEN - K`, move, `LEN <- r` (41_synchronizer.md R130). -/
def discardFrame (p : Nat) (s : State) : Flow :=
  if p + s.n.toNat + 1 ≤ s.len then
    keepNewest (p + s.n.toNat + 1) (s.len - (p + s.n.toNat + 1)) s
  else .stop .indexOutsideBuffer

/-- OVFREC: `K <- CAP div 2; r <- CAP - K`, move, `LEN <- r` (41_synchronizer.md R132). -/
def overflowRecovery (s : State) : Flow :=
  keepNewest (s.cfg.cap / 2) (s.cfg.cap - s.cfg.cap / 2) s

/-- A frame was found at `p`: DECODE, EMIT, SAMPLE, DISCARD, in this order (41_synchronizer.md
R124). -/
def processFrame (p : Nat) (s : State) : Flow :=
  match decodeBatch p s with
  | none => .stop .cellHoldsNoValue
  | some batch =>
    (emitBatch batch s).andThen fun s₁ => (sampleFrame p s₁).andThen fun s₂ => discardFrame p s₂

/-- CYCLEEND: steps 2 to 4 of the read cycle (41_synchronizer.md R124). -/
def cycleEnd (s : State) : Flow :=
  match scanBuf s with
  | .error f => .stop f
  | .ok (some p) => processFrame p s
  | .ok none => if s.len = s.cfg.cap then overflowRecovery s else .go s

/-- PUSH (41_synchronizer.md R122): CYCLEEND only when the append fills the buffer. -/
def execPush (d : Byte) (s : State) : Host.Outcome State Fault Refusal :=
  inPhase .run s
    ((appendByte d s).andThen fun s₁ => if s₁.len = s₁.cfg.cap then cycleEnd s₁ else .go s₁)

/-- PUSHL (41_synchronizer.md R123): append, then CYCLEEND, exactly once. -/
def execPushl (d : Byte) (s : State) : Host.Outcome State Fault Refusal :=
  inPhase .run s ((appendByte d s).andThen cycleEnd)

/-- CYCLEEND by itself (41_synchronizer.md R124): "PHASE = RUN, called by PUSH or PUSHL"; that it
runs without an append before it is a DESIGN CHOICE (log 9). -/
def execCycleend (s : State) : Host.Outcome State Fault Refusal :=
  whenCalled (s.phase = .run) (cycleEnd s)

/-- SCAN by itself (41_synchronizer.md R125): in phase RUN, where `N` and `M` hold values; the
position is handed over in `result` (DESIGN CHOICE, log 9). -/
def execScan (s : State) : Host.Outcome State Fault Refusal :=
  whenCalled (s.phase = .run)
    (match scanBuf s with
     | .error f => .stop f
     | .ok r => .go { s with result := some (.index r) })

/-- DISCARD by itself (41_synchronizer.md R130): in phase RUN.  R130's operand is "the position SCAN
returned"; that the move runs at every other `p` with `p + N + 1 <= LEN` too is a DESIGN CHOICE
(log 9). -/
def execDiscard (p : Nat) (s : State) : Host.Outcome State Fault Refusal :=
  whenCalled (s.phase = .run) (discardFrame p s)

/-- OVFREC by itself (41_synchronizer.md R132): in phase RUN with `LEN = CAP`.  R132's precondition
is also that "SCAN returned `none`"; that the move runs on a full buffer with a qualifying position
too is a DESIGN CHOICE (log 9). -/
def execOvfrec (s : State) : Host.Outcome State Fault Refusal :=
  whenCalled (s.phase = .run ∧ s.len = s.cfg.cap) (overflowRecovery s)

end Sys2Proof.Machine
end

