-- ==== Sys2Proof/Machine/System.lean ====
section
/-! DEFINITION. The pin operations: RESET, SRCERR (44_system.md). -/

namespace Sys2Proof.Machine

/-- RESET (44_system.md R181): any state, any phase; nothing is emitted. -/
def execReset (s : State) : Host.Outcome State Fault Refusal := .next (resetBlock s)

/-- SRCERR: `raise ReadError` in phase BOOT or RUN (44_system.md R183); in phase FAIL "state, ERR
and both traces are unchanged" (R184). -/
def execSrcerr (s : State) : Host.Outcome State Fault Refusal :=
  if s.phase = .fail then .next s else .next (trap .readError s)

end Sys2Proof.Machine
end

