-- ==== Sys2Proof/Machine/Wire.lean ====
section
/-! DEFINITION. The rows of the opcode table that are no operations (30_encoding.md R90): bytes on
the wire, which reach the Byte Source, and words of the EVT port, which reach the Event Sink. -/

namespace Sys2Proof.Machine

/-- A byte sent by the remote receiver: the Byte Source holds it until a read returns it
(30_encoding.md R72, R80; log 10). -/
def holdByte (b : Byte) (s : State) : State := { s with wire := s.wire ++ [b] }

/-- An EVT event stands on the port only while EMIT publishes: in phase RUN and not in test mode
(42_decoder.md R153, R155; log 11). -/
def portEvent (e : EvtEvent) (s : State) : Host.Outcome State Fault Refusal :=
  whenCalled (s.phase = .run ∧ s.cfg.testmode = false) (.go (emitEvt [e] s))

/-- WIRE.MARKER (30_encoding.md R73): the byte `1111mmmm`. -/
def execWireMarker (m : Nibble) (s : State) : Host.Outcome State Fault Refusal :=
  .next (holdByte (byteOf 0xF#4 m) s)

/-- WIRE.PAYLOAD (30_encoding.md R74): the raw value; "the block does not alter the byte". -/
def execWirePayload (v : Byte) (s : State) : Host.Outcome State Fault Refusal :=
  .next (holdByte v s)

/-- EVT.AXIS (30_encoding.md R87). -/
def execEvtAxis (ch : Nibble) (val : Byte) (s : State) : Host.Outcome State Fault Refusal :=
  portEvent (.axis ch val) s

/-- EVT.SYNC (30_encoding.md R87). -/
def execEvtSync (s : State) : Host.Outcome State Fault Refusal := portEvent .sync s

end Sys2Proof.Machine
end

