-- ==== Sys2Proof/Machine/Dispatch.lean ====
section
/-! DEFINITION. The dispatch: one arm for each constructor of Instr. -/

namespace Sys2Proof.Machine

def exec (i : Instr) (s : State) : Host.Outcome State Fault Refusal :=
  match i with
  | .bskip _ _ => Sys2Proof.Machine.execBskip s
  | .bcand _ c => Sys2Proof.Machine.execBcand c s
  | .push d => Sys2Proof.Machine.execPush d s
  | .pushl d => Sys2Proof.Machine.execPushl d s
  | .reset => Sys2Proof.Machine.execReset s
  | .srcerr => Sys2Proof.Machine.execSrcerr s
  | .wireMarker m => Sys2Proof.Machine.execWireMarker m s
  | .wirePayload v => Sys2Proof.Machine.execWirePayload v s
  | .evtAxis ch val => Sys2Proof.Machine.execEvtAxis ch val s
  | .evtSync => Sys2Proof.Machine.execEvtSync s
  | .bootclose => Sys2Proof.Machine.execBootclose s
  | .cycleend => Sys2Proof.Machine.execCycleend s
  | .scan => Sys2Proof.Machine.execScan s
  | .discard p => Sys2Proof.Machine.execDiscard p s
  | .ovfrec => Sys2Proof.Machine.execOvfrec s
  | .decode p => Sys2Proof.Machine.execDecode p s
  | .emit batch => Sys2Proof.Machine.execEmit batch s
  | .sample p => Sys2Proof.Machine.execSample p s

end Sys2Proof.Machine
end

