-- ==== Sys2Proof/Machine/Env.lean ====
section
/-! DEFINITION. The environment's side of a step: what it does between two operations, which event
the block takes (60_exceptions.md R212), and what taking it consumes. -/

namespace Sys2Proof.Machine

/-- One action of the environment (00_scope.md R11).  A read returns the oldest bytes held, at most
`k`; with none held it blocks and nothing happens (30_encoding.md R80).  A script's beat that phase
FAIL refuses is not offered: a later line offers it again (log 20). -/
def EnvAction.apply (a : EnvAction) (s : State) : State :=
  match a with
  | .assertReset => { s with resetPin := true }
  | .assertSrcerr => { s with srcerrPin := true }
  | .offer o => { s with source := s.source ++ [o] }
  | .scriptBeat o => if s.phase = .fail then s else { s with source := s.source ++ [o] }
  | .send b => holdByte b s
  | .read k ans =>
    { s with
      source := s.source ++ (chunkBeats (s.wire.take k)).map (fun w => ⟨w, ans⟩)
      wire := s.wire.drop k }

/-- What the environment does in one gap, in order. -/
def applyAll : List EnvAction → State → State
  | [], s => s
  | a :: rest, s => applyAll rest (a.apply s)

/-- The gap before the next operation: the head of the script. -/
def arrive (s : State) : State :=
  match s.script with
  | [] => s
  | acts :: rest => applyAll acts { s with script := rest }

/-- The event the block takes: RESET first, then SRCERR, then a beat (60_exceptions.md R212); in
phase FAIL no beat (R210); none when nothing is presented: the block waits (44_system.md R188). -/
def fetch (s : State) : Option Signal :=
  if s.resetPin then some (.pin .reset)
  else if s.srcerrPin then some (.pin .srcerr)
  else
    match s.source, s.phase with
    | [], _ => none
    | o :: _, .boot => some (.bootBeat o.word)
    | o :: _, .run => some (.runBeat o.word)
    | _ :: _, .fail => none

/-- What taking the event consumes: "a RESET taken discards the other pending pin event; a beat not
taken stays with the source" (60_exceptions.md R212); a beat taken is never delivered again
(20_memory.md R59), and the sink's answer that belongs to it is the one EMIT consults. -/
def accept (sig : Signal) (s : State) : State :=
  match sig with
  | .pin .reset => { s with resetPin := false, srcerrPin := false }
  | .pin .srcerr => { s with srcerrPin := false }
  | _ =>
    match s.source with
    | [] => s
    | o :: rest => { s with source := rest, ans := o.ans }

/-- The phase in which a beat's operation is selected, where the state is in another: phase BOOT as
RESET leaves it (log 12). -/
def toBoot (s : State) : State := if s.phase = .boot then s else resetBlock s

/-- Phase RUN with an empty buffer, as after a bootstrap that found one channel (log 12). -/
def toRun (s : State) : State :=
  if s.phase = .run then s
  else { s with phase := .run, err := .none, n := 1#4, m := markerOf 1, buf := [], len := 0, seq := 0 }

/-- The beat is the next event taken: it stands before the other beats, the pins are low, and the
environment does nothing in the gap before it. -/
def offerFirst (w : BeatWord) (s : State) : State :=
  { s with
    resetPin := false
    srcerrPin := false
    source := ⟨w, s.ans⟩ :: s.source
    script := [] :: s.script }

end Sys2Proof.Machine
end

