-- ==== Sys2Proof/Machine/Step.lean ====
section
/-! DEFINITION. One step: what the environment does in the gap, then the block's whole reaction to
the one event it takes (00_scope.md R10, R12; 44_system.md R180), or waiting (R188). -/

namespace Sys2Proof.Machine

/-- One step of the machine. -/
def step (s : State) : Host.Outcome State Fault Refusal :=
  match fetch (arrive s) with
  | none => .next (arrive s)
  | some sig =>
    match decode sig with
    | .ok i => exec i (accept sig (arrive s))
    | .error _ => .refused .undecodable

/-- `s` with a word of spec/opcode_table.json placed as the next event the block takes.  A beat of
phase BOOT or RUN needs that phase, so the phase is entered if the state is in another; a word of
the EVT port is an output, which no step takes (log 12). -/
def State.withFetchWord (s : State) (nbits w : Nat) : State :=
  match tablePlace nbits w with
  | some .bootBeat => offerFirst (BitVec.ofNat 9 w) (toBoot s)
  | some .runBeat => offerFirst (BitVec.ofNat 9 w) (toRun s)
  | _ => s

end Sys2Proof.Machine
end

