-- ==== Sys2Proof/Machine/Script.lean ====
section
/-! DEFINITION. The stream-script notation (30_encoding.md R92, R93), as lists of environment
actions. -/

namespace Sys2Proof.Machine

/-- A line of a stream script (30_encoding.md R92) or a pseudo-event (R93).  `REP k b` is
`List.replicate k b` inside a `CHUNK` or `BYTES` list. -/
inductive ScriptLine where
  /-- `RESET` -/
  | reset
  /-- `SRCERR` -/
  | srcerr
  /-- `B <byte>`, with the sink's answer (`.ok` where no `!FAIL` is written) -/
  | b (d : Byte) (ans : SinkAnswer)
  /-- `BL <byte>`, with the sink's answer -/
  | bl (d : Byte) (ans : SinkAnswer)
  /-- `CHUNK b1 ... bk`: one read returning these bytes -/
  | chunk (bs : List Byte)
  /-- `BYTES b1 ... bk`: reads of one byte each -/
  | bytes (bs : List Byte)
  /-- `FRAME v0 ... v(N-1)`: the chunk `M v0 ... v(N-1)` -/
  | frame (vs : List Byte)
deriving DecidableEq, Repr

/-- One beat line, in a gap of its own.  How a script goes on after a line that phase FAIL refuses
is left open by 30_encoding.md R92; 95_test_vectors.md P3 reads the later line as the same byte
"offered twice and transferred once", or the refused line as "no step".  The model takes the second
reading: the refused line leaves nothing with the source (DESIGN CHOICE, log 20). -/
def offerBeat (ans : SinkAnswer) (w : BeatWord) : List EnvAction := [.scriptBeat ⟨w, ans⟩]

/-- The gaps a line stands for, one event each (30_encoding.md R92, R93); `m` is the marker of the
run.  A beat line refused in phase FAIL is skipped (DESIGN CHOICE, log 20). -/
def ScriptLine.gaps (m : Byte) : ScriptLine → List (List EnvAction)
  | .reset => [[.assertReset]]
  | .srcerr => [[.assertSrcerr]]
  | .b d ans => [offerBeat ans (beatOf false d)]
  | .bl d ans => [offerBeat ans (beatOf true d)]
  | .chunk bs => (chunkBeats bs).map (offerBeat .ok)
  | .bytes bs => bs.map fun d => offerBeat .ok (beatOf true d)
  | .frame vs => (chunkBeats (m :: vs)).map (offerBeat .ok)

/-- The state in which a script is about to run under a `CONFIG` line (30_encoding.md R92). -/
def scriptState (c : Config) (m : Byte) (lines : List ScriptLine) : State :=
  { State.reset with cfg := c, script := lines.flatMap (ScriptLine.gaps m) }

end Sys2Proof.Machine
end

