-- ==== Sys2Proof/Safety.lean ====
section
/-! DEFINITION. The words in which claims are made: the invariant of 10_state.md R31, what raising
an error leaves, what an operation leaves alone, and the parses of 41_synchronizer.md R137. -/

namespace Sys2Proof.Machine

/-- A qualifying position: `p + N <= LEN - 1` and `BUF[p] = M` (41_synchronizer.md R125). -/
abbrev Qualifies (s : State) (p : Nat) : Prop :=
  p + s.n.toNat + 1 ≤ s.len ∧ readBuf s p = some s.m

/-- Exactly the cells `0 .. LEN - 1` hold a value (10_state.md R28, 20_memory.md R57). -/
abbrev CellsValid (s : State) : Prop := s.buf.map Prod.fst = List.range s.len

/-- The bytes of the buffer, oldest first (20_memory.md R51). -/
def contents (s : State) : List Byte := s.buf.bytes

/-- The invariant of 10_state.md R31, with the range of `SEQ` (R20), the constraints of the
parameters (00_scope.md R7), the canonical form of the buffer, and that no transient value is kept
(R32).  In phase FAIL every register but `PHASE` and `ERR` keeps only its range.

R31(c) also says that no qualifying position is left in phase RUN.  That clause is `NoFrameWaits`.
It holds between read cycles (41_synchronizer.md R134) and not after a PUSH inside one, which does
not scan "even if the buffer now holds a complete frame" (R122, 95_test_vectors.md V9), so it is no
part of `BlockInv` (DEDUCED, log 19). -/
structure BlockInv (s : State) : Prop where
  /-- 00_scope.md R7 -/
  config : s.cfg.ok
  /-- the canonical form of the buffer -/
  canonical : s.buf.wf = true
  /-- R31(a) -/
  lenLe : s.len ≤ s.cfg.cap
  /-- R20 -/
  seqLt : s.seq < 2 ^ s.cfg.seqW
  /-- R32 -/
  transient : s.result = none
  /-- R28 -/
  cells : s.phase ≠ .fail → CellsValid s
  /-- R31(b) -/
  boot : s.phase = .boot → s.len = 0 ∧ s.seq = 0 ∧ s.bootcnt < s.cfg.w ∧ s.err = .none
  /-- R31(a), (c) -/
  run : s.phase = .run → 1 ≤ s.n.toNat ∧ s.n.toNat ≤ 14 ∧ s.m.toNat = 0xF0 + s.n.toNat + 1 ∧
    s.err = .none ∧ s.len < s.cfg.cap
  /-- R31(d) -/
  fail : s.phase = .fail → s.err ≠ .none

/-- The last clause of 10_state.md R31(c): in phase RUN no qualifying position is left unconsumed
(DEDUCED, log 19: it holds between read cycles). -/
def NoFrameWaits (s : State) : Prop := s.phase = .run → ∀ p, ¬ Qualifies s p

/-- The beat the next step takes, if it takes one in phase RUN, ends its read cycle: `last = 1`, or
it fills the buffer (30_encoding.md R82).  `a` is the state after the gap. -/
def EndsReadCycle (a : State) : Prop :=
  a.phase = .run → a.resetPin = false → a.srcerrPin = false → ∀ o rest, a.source = o :: rest →
    beatLast o.word = true ∨ a.len + 1 = a.cfg.cap

/-- The state of the block in mid-operation, when CYCLEEND is called: `BlockInv` without "never full"
(41_synchronizer.md R124, R135). -/
structure CycleInv (s : State) : Prop where
  phase : s.phase = .run
  cells : CellsValid s
  lenLe : s.len ≤ s.cfg.cap
  cap : 30 ≤ s.cfg.cap
  count : 1 ≤ s.n.toNat ∧ s.n.toNat ≤ 14

/-- What no operation of the block writes: the configuration, the environment's queues and pins,
and the transient result. -/
structure SameSurroundings (s t : State) : Prop where
  cfg : t.cfg = s.cfg
  resetPin : t.resetPin = s.resetPin
  srcerrPin : t.srcerrPin = s.srcerrPin
  source : t.source = s.source
  wire : t.wire = s.wire
  script : t.script = s.script
  ans : t.ans = s.ans
  result : t.result = s.result

/-- `t` is what raising `e` makes of `s` after `events` were emitted (60_exceptions.md R208):
nothing is said of the other registers. -/
structure Raised (e : Err) (events : List EvtEvent) (s t : State) : Prop where
  phase : t.phase = .fail
  err : t.err = e
  evt : t.evt = s.evt ++ events
  diag : t.diag = s.diag ++ [.errmsg e.code]
  surroundings : SameSurroundings s t

/-- `t` is `s` with the byte `d` appended to the buffer (41_synchronizer.md R122): cell `LEN` holds
`d`, every other cell is unchanged, `LEN` is one more, and nothing else changes. -/
structure Appended (d : Byte) (s t : State) : Prop where
  cell : t.buf.read s.len = some d
  others : ∀ a, a ≠ s.len → t.buf.read a = s.buf.read a
  len : t.len = s.len + 1
  rest : t = { s with buf := t.buf, len := t.len }

/-- The registers of the block (10_state.md R20) and the two traces are the same. -/
structure SameBlock (s t : State) : Prop where
  phase : t.phase = s.phase
  err : t.err = s.err
  bootcnt : t.bootcnt = s.bootcnt
  candv : t.candv = s.candv
  cand : t.cand = s.cand
  n : t.n = s.n
  m : t.m = s.m
  buf : t.buf = s.buf
  len : t.len = s.len
  seq : t.seq = s.seq
  evt : t.evt = s.evt
  diag : t.diag = s.diag

/-- The environment does nothing but offer the beats it has offered: low pins, empty script. -/
abbrev Quiet (s : State) : Prop :=
  s.script = [] ∧ s.resetPin = false ∧ s.srcerrPin = false

/-- The sink can be asked: in test mode it is not, else it answers (44_system.md R186). -/
abbrev SinkAnswers (s : State) : Prop := s.cfg.testmode = true ∨ s.ans ≠ .never

/-- The greedy left-to-right parse (41_synchronizer.md R137): "find the first byte equal to M, take
the N bytes after it as the payload whatever they are, continue after them".  `part` holds the
bytes taken since the marker, if one has been found. -/
def greedyParse (m : Byte) (n : Nat) : Option (List Byte) → List Byte → List (List Byte)
  | _, [] => []
  | none, b :: rest => if b = m then greedyParse m n (some []) rest else greedyParse m n none rest
  | some part, b :: rest =>
    if part.length + 1 = n then (part ++ [b]) :: greedyParse m n none rest
    else greedyParse m n (some (part ++ [b])) rest

/-- The data bytes of a list of offered beats. -/
def offerBytes (offers : List Offer) : List Byte := offers.map fun o => beatData o.word

/-- A state with another sample period and another DIAG trace (43_diagnostics.md R168). -/
def withPeriod (p : Nat) (diag : List DiagEvent) (s : State) : State :=
  { s with cfg := { s.cfg with p := p }, diag := diag }

/-- A state outside test mode, with a sink that accepts everything and another EVT trace
(42_decoder.md R155). -/
def withOpenSink (evt : List EvtEvent) (s : State) : State :=
  { s with cfg := { s.cfg with testmode := false }, ans := .ok, evt := evt }

end Sys2Proof.Machine
end

