-- ==== Sys2Proof/Certificates/Slice0/Obligations.lean ====
section
/-! DEFINITION. The statements for the provers.  Each docstring names the rule of spec/ it
formalises, or says that it rests on the model's own choice and names the log entry. -/

open Sys2Proof Sys2Proof.Machine

/-! ### Encoding -/

/-- Decoding the signal of a well-formed instruction gives the instruction back, every operand
whole (30_encoding.md R73, R74, R80, R84, R87). -/
def Obligations.DecodeOfEncode : Prop :=
  ∀ i : Instr, i.wellFormed = true → decode (encode i) = .ok i

/-- Every signal the decoder accepts has one meaning: the instruction is well formed and its
encoding is that signal. -/
def Obligations.EncodeOfDecode : Prop :=
  ∀ (sig : Signal) (i : Instr), decode sig = .ok i → i.wellFormed = true ∧ encode i = sig

/-- Words written out from the spec's encodings decode to the instructions they stand for: the beat
words of 95_test_vectors.md section 7, the marker byte for N = 8, the EVT port words of
42_decoder.md R153. -/
def Obligations.SpecWordsDecode : Prop :=
  decode (.bootBeat 0b0_0111_1111#9) = .ok (.bskip false 0x7F#8) ∧
  decode (.bootBeat 0b1_1110_1111#9) = .ok (.bskip true 0xEF#8) ∧
  decode (.bootBeat 0b0_1111_0111#9) = .ok (.bcand false 7#4) ∧
  decode (.runBeat 0b0_1111_0100#9) = .ok (.push 0xF4#8) ∧
  decode (.runBeat 0b1_1111_0100#9) = .ok (.pushl 0xF4#8) ∧
  decode (.wireFirst 0b1111_1001#8) = .ok (.wireMarker 9#4) ∧
  decode (.wireLater 0b1111_1111#8) = .ok (.wirePayload 0xFF#8) ∧
  decode (.evtPort 0b0_0010_1111_1110#13) = .ok (.evtAxis 2#4 0xFE#8) ∧
  decode (.evtPort 0b1_0000_0000_0000#13) = .ok .evtSync

/-- 30_encoding.md R90: in BOOT the beats whose data is 0xF0 to 0xFF are BCAND and the others are
BSKIP, whatever `last` is; in RUN the words 0x000 to 0x0FF are PUSH and 0x100 to 0x1FF are PUSHL;
so all 512 beat values are legal in both phases. -/
def Obligations.BeatSelection : Prop :=
  ∀ w : BeatWord,
    (0xF0 ≤ w.toNat % 256 →
      ∃ last c, decode (.bootBeat w) = .ok (.bcand last c) ∧ c.toNat = w.toNat % 16) ∧
    (w.toNat % 256 < 0xF0 →
      ∃ last d, decode (.bootBeat w) = .ok (.bskip last d) ∧ d.toNat = w.toNat % 256) ∧
    (w.toNat < 0x100 → ∃ d, decode (.runBeat w) = .ok (.push d) ∧ d.toNat = w.toNat) ∧
    (0x100 ≤ w.toNat → ∃ d, decode (.runBeat w) = .ok (.pushl d) ∧ d.toNat + 0x100 = w.toNat)

/-- 30_encoding.md R76, R77, R78: for a candidate byte `0xF0 + c` the proposed count is `c - 1` as
an integer, it is valid exactly when `c >= 2`, and then the marker `0xF0 + N + 1` is the candidate
byte itself and lies in 0xF2..0xFF. -/
def Obligations.CandidateCountAndMarker : Prop :=
  ∀ b : Byte, 0xF0 ≤ b.toNat →
    channelCount (loNibble b) = ((b.toNat % 16 : Nat) : Int) - 1 ∧
    (1 ≤ channelCount (loNibble b) ↔ 0xF2 ≤ b.toNat) ∧
    (∀ n : Nat, channelCount (loNibble b) = (n : Int) → 1 ≤ n →
      n ≤ 14 ∧ markerOf n = b ∧ 0xF2 ≤ (markerOf n).toNat)

/-- 30_encoding.md R73, R83: the marker of `N` channels is `1111` followed by `N + 1`, and its low
nibble tells the frame length. -/
def Obligations.MarkerTellsTheFrameLength : Prop :=
  ∀ n : Nat, 1 ≤ n → n ≤ 14 →
    hiNibble (markerOf n) = 0b1111#4 ∧ (loNibble (markerOf n)).toNat = n + 1 ∧
    frameLengthOfMarker (markerOf n) = frameLength n ∧ frameLength n = n + 1

/-- 30_encoding.md R72, R79: a frame is its marker followed by the payload; the payload byte at
frame position `j`, `1 <= j <= N`, is the value of channel `j - 1`. -/
def Obligations.FramePositionsAreChannels : Prop :=
  ∀ (n : Nat) (batch : List Byte), batch.length = n →
    (encodeFrame n batch).length = n + 1 ∧ (encodeFrame n batch)[0]? = some (markerOf n) ∧
    ∀ j, 1 ≤ j → j ≤ n → (encodeFrame n batch)[j]? = batch[channelOfPosition j]?

/-- 30_encoding.md R87: an AXIS event is the word `256 * ch + val`, SYNC is 0x1000, and the decoder
of the port reads back the event. -/
def Obligations.EvtPortWords : Prop :=
  (∀ (ch : Nibble) (val : Byte),
    (evtWord (.axis ch val)).toNat = 256 * ch.toNat + val.toNat ∧
    (ch.toNat ≤ 13 → decode (.evtPort (evtWord (.axis ch val))) = .ok (.evtAxis ch val))) ∧
  (evtWord .sync).toNat = 0x1000 ∧ decode (.evtPort (evtWord .sync)) = .ok .evtSync

/-- 30_encoding.md R80: the beats of a read that returns `bs` followed by `b` are `(0, b1)`, ...,
and `(1, b)` last. -/
def Obligations.ChunkBeatsMarkTheLastByte : Prop :=
  ∀ (bs : List Byte) (b : Byte),
    chunkBeats (bs ++ [b]) = bs.map (beatOf false) ++ [beatOf true b]

/-- 10_state.md R20, 60_exceptions.md R201: the codes of `PHASE` and `ERR`. -/
def Obligations.PhaseAndErrCodes : Prop :=
  Phase.boot.code = 0#2 ∧ Phase.run.code = 1#2 ∧ Phase.fail.code = 2#2 ∧
  Err.none.code = 0#2 ∧ Err.syncNotFound.code = 1#2 ∧ Err.readError.code = 2#2 ∧
  Err.sinkWriteError.code = 3#2

/-! ### The buffer -/

/-- 20_memory.md R56: for `K >= 1` the ascending one-byte moves have the same result as copying all
`r` bytes at once: cell `i < r` gets the old byte of cell `i + K`, the other cells are unchanged,
and the moves go through when those old cells hold values. -/
def Obligations.AscendingMovesCopyAtOnce : Prop :=
  ∀ (k r : Nat) (mem : Memory), 1 ≤ k → (∀ i < r, (mem.read (i + k)).isSome = true) →
    ∃ mem', moveDown k r 0 mem = some mem' ∧
      ∀ i, mem'.read i = if i < r then mem.read (i + k) else mem.read i

/-! ### Bootstrap Scanner -/

/-- 40_bootstrap.md R102: a beat whose data is at most 0xEF is BSKIP in phase BOOT; BSKIP counts the
byte and changes nothing else; when that makes `BOOTCNT = W` it goes on as BOOTCLOSE. -/
def Obligations.BskipCountsTheByte : Prop :=
  ∀ (last : Bool) (d : Byte) (s : State), s.phase = .boot →
    (d.toNat ≤ 0xEF → decode (.bootBeat (beatOf last d)) = .ok (.bskip last d)) ∧
    (s.bootcnt + 1 ≠ s.cfg.w →
      exec (.bskip last d) s = .next { s with bootcnt := s.bootcnt + 1 }) ∧
    (s.bootcnt + 1 = s.cfg.w →
      ∃ t, exec (.bskip last d) s = .next t ∧
        exec .bootclose { s with bootcnt := s.bootcnt + 1 } = .next t)

/-- 40_bootstrap.md R103: a beat with data `0xF0 + c` is BCAND in phase BOOT; BCAND records the low
nibble as the last candidate, counts the byte and changes nothing else; when that makes
`BOOTCNT = W` it goes on as BOOTCLOSE, the candidate recorded. -/
def Obligations.BcandRecordsTheCandidate : Prop :=
  ∀ (last : Bool) (c : Nibble) (s : State), s.phase = .boot →
    decode (.bootBeat (beatOf last (byteOf 0xF#4 c))) = .ok (.bcand last c) ∧
    (s.bootcnt + 1 ≠ s.cfg.w →
      exec (.bcand last c) s =
        .next { s with candv := true, cand := c, bootcnt := s.bootcnt + 1 }) ∧
    (s.bootcnt + 1 = s.cfg.w →
      ∃ t, exec (.bcand last c) s = .next t ∧
        exec .bootclose { s with candv := true, cand := c, bootcnt := s.bootcnt + 1 } = .next t)

/-- 40_bootstrap.md R104: BOOTCLOSE raises SyncNotFound when no candidate was seen or the last one
proposes a count of zero or less; otherwise `N <- CAND - 1`, `M <- 0xF0 + N + 1`, `PHASE <- RUN`,
`NCH(N)` on DIAG, and nothing else changes. -/
def Obligations.BootcloseDecides : Prop :=
  ∀ s : State, s.phase = .boot → s.bootcnt = s.cfg.w →
    (s.candv = false ∨ s.cand.toNat ≤ 1 →
      ∃ t, exec .bootclose s = .next t ∧ Raised .syncNotFound [] s t) ∧
    (s.candv = true ∧ 2 ≤ s.cand.toNat →
      ∃ t, exec .bootclose s = .next t ∧
        t.n.toNat = s.cand.toNat - 1 ∧ t.m.toNat = 0xF0 + t.n.toNat + 1 ∧
        t = { s with phase := .run, n := t.n, m := t.m, diag := s.diag ++ [.nch t.n] })

/-- 40_bootstrap.md R108: the closed form of the bootstrap.  The first `W` bytes after RESET decide
by the last of them whose value is 0xF0 or more, and by nothing else; before the `W`-th nothing is
emitted and the phase is BOOT. -/
def Obligations.BootstrapClosedForm : Prop :=
  ∀ (s : State) (offers rest : List Offer), Quiet s → s.phase = .boot → s.bootcnt = 0 →
    s.candv = false → s.len = 0 → s.seq = 0 → offers.length = s.cfg.w → 1 ≤ s.cfg.w →
    s.source = offers ++ rest →
    (∀ k < s.cfg.w, ∃ u, Sys2Proof.core.run k s = .next u ∧ u.phase = .boot ∧
      u.evt = s.evt ∧ u.diag = s.diag) ∧
    ∃ t : State, Sys2Proof.core.run s.cfg.w s = .next t ∧ t.source = rest ∧ t.evt = s.evt ∧
      match (offerBytes offers).reverse.find? (fun b => decide (0xF0 ≤ b.toNat)) with
      | none => t.phase = .fail ∧ t.err = .syncNotFound ∧ t.diag = s.diag ++ [.errmsg 1#2]
      | some b =>
        if b.toNat ≤ 0xF1 then
          t.phase = .fail ∧ t.err = .syncNotFound ∧ t.diag = s.diag ++ [.errmsg 1#2]
        else
          t.phase = .run ∧ t.n.toNat = b.toNat % 16 - 1 ∧ t.m = b ∧ t.len = 0 ∧ t.seq = 0 ∧
            t.diag = s.diag ++ [.nch t.n]

/-! ### Frame Synchronizer -/

/-- 41_synchronizer.md R122: a beat with `last = 0` is PUSH in phase RUN; PUSH stores `d` in cell
`LEN` and adds 1 to `LEN`, nothing else changing; when that makes `LEN = CAP` it goes on as
CYCLEEND (and completes where the invariant holds and the sink answers), else that is all. -/
def Obligations.PushAppendsTheByte : Prop :=
  ∀ (d : Byte) (s : State), s.phase = .run → s.len < s.cfg.cap →
    decode (.runBeat (beatOf false d)) = .ok (.push d) ∧
    ∃ a, Appended d s a ∧
      (s.len + 1 ≠ s.cfg.cap → exec (.push d) s = .next a) ∧
      (s.len + 1 = s.cfg.cap → exec (.push d) s = exec .cycleend a ∧
        (BlockInv s → SinkAnswers s → ∃ t, exec (.push d) s = .next t))

/-- 41_synchronizer.md R123: a beat with `last = 1` is PUSHL in phase RUN; PUSHL stores `d` in cell
`LEN`, adds 1 to `LEN` and goes on as CYCLEEND; from a state that meets the invariant, with a sink
that answers, it completes. -/
def Obligations.PushlAppendsAndEndsTheCycle : Prop :=
  ∀ (d : Byte) (s : State), s.phase = .run → s.len < s.cfg.cap →
    decode (.runBeat (beatOf true d)) = .ok (.pushl d) ∧
    ∃ a, Appended d s a ∧ exec (.pushl d) s = exec .cycleend a ∧
      (BlockInv s → SinkAnswers s →
        ∃ t, exec (.pushl d) s = .next t ∧ exec .cycleend a = .next t)

/-- 41_synchronizer.md R125: SCAN returns the largest qualifying position, or none when there is
none, and writes nothing. -/
def Obligations.ScanFindsTheRightmost : Prop :=
  ∀ s : State, s.phase = .run → CellsValid s →
    ∃ r, exec .scan s = .next { s with result := some (.index r) } ∧
      (∀ p, r = some p → Qualifies s p ∧ ∀ q, Qualifies s q → q ≤ p) ∧
      (r = none → ∀ q, ¬ Qualifies s q)

/-- 41_synchronizer.md R124, no frame: CYCLEEND in phase RUN after a SCAN that returns none is
OVFREC on a full buffer, and nothing at all otherwise. -/
def Obligations.CycleendWithoutAFrame : Prop :=
  ∀ s : State, CycleInv s → (∀ p, ¬ Qualifies s p) →
    exec .scan s = .next { s with result := some (.index none) } ∧
    (s.len ≠ s.cfg.cap → exec .cycleend s = .next s) ∧
    (s.len = s.cfg.cap → ∃ t, exec .ovfrec s = .next t ∧ exec .cycleend s = .next t)

/-- 41_synchronizer.md R124, `p` the largest qualifying position, which SCAN returns: CYCLEEND is
DECODE(p), EMIT, SAMPLE(p), DISCARD(p) in this order; a SinkWriteError raised by EMIT ends it there,
and a sink that never answers leaves it stuck there (70_reset_and_hazards.md R246). -/
def Obligations.CycleendIsTheSubProceduresInOrder : Prop :=
  ∀ (s : State) (p : Nat), CycleInv s → Qualifies s p → (∀ q, Qualifies s q → q ≤ p) →
    exec .scan s = .next { s with result := some (.index (some p)) } ∧
    ∃ batch, exec (.decode p) s = .next { s with result := some (.batch batch) } ∧
      (SinkAnswers s → ∃ s₁, exec (.emit batch) s = .next s₁ ∧
        (s₁.phase = .fail → exec .cycleend s = .next s₁) ∧
        (s₁.phase ≠ .fail → ∃ s₂ s₃, exec (.sample p) s₁ = .next s₂ ∧
          exec (.discard p) s₂ = .next s₃ ∧ exec .cycleend s = .next s₃)) ∧
      (¬ SinkAnswers s → exec (.emit batch) s = .fault .sinkNeverAnswers ∧
        exec .cycleend s = .fault .sinkNeverAnswers)

/-- 41_synchronizer.md R130, R131: DISCARD(p) removes the `p + N + 1` oldest bytes and keeps the
others, byte for byte and in order; only the cells and `LEN` change.  R130's `p` is the position SCAN
returned; that the same holds at every other such `p` is the model's choice (log 9). -/
def Obligations.DiscardKeepsTheResidual : Prop :=
  ∀ (p : Nat) (s : State), s.phase = .run → CellsValid s → p + s.n.toNat + 1 ≤ s.len →
    ∃ t, exec (.discard p) s = .next t ∧
      t.len = s.len - (p + s.n.toNat + 1) ∧
      (∀ i < t.len, t.buf.read i = s.buf.read (i + (p + s.n.toNat + 1))) ∧
      t = { s with buf := t.buf, len := t.len }

/-- 41_synchronizer.md R132: OVFREC on a full buffer removes the `CAP div 2` oldest bytes and keeps
the others, byte for byte and in order; only the cells and `LEN` change.  R132 calls it when SCAN
returned none; that the same holds when a position qualifies is the model's choice (log 9). -/
def Obligations.OvfrecDropsTheOldestHalf : Prop :=
  ∀ s : State, s.phase = .run → CellsValid s → s.len = s.cfg.cap → 30 ≤ s.cfg.cap →
    ∃ t, exec .ovfrec s = .next t ∧
      t.len = s.cfg.cap - s.cfg.cap / 2 ∧
      (∀ i < t.len, t.buf.read i = s.buf.read (i + s.cfg.cap / 2)) ∧
      t = { s with buf := t.buf, len := t.len }

/-- 41_synchronizer.md R133: when OVFREC runs, none of the bytes it discards is equal to `M`, nor is
any byte before them; so what it keeps includes every byte equal to `M` and every byte after one. -/
def Obligations.OverflowDiscardsNoMarker : Prop :=
  ∀ s : State, CycleInv s → s.len = s.cfg.cap → (∀ p, ¬ Qualifies s p) →
    ∃ t, exec .cycleend s = .next t ∧
      (∀ i < s.len - t.len, readBuf s i ≠ some s.m) ∧
      (∀ i, readBuf s i = some s.m →
        ∀ j, i ≤ j → j < s.len → readBuf t (j - (s.len - t.len)) = readBuf s j)

/-- 41_synchronizer.md R134: at most one batch is emitted by a CYCLEEND, and after one that does not
raise the buffer holds no qualifying position. -/
def Obligations.OneScanPerCycleIsEnough : Prop :=
  ∀ s t : State, CycleInv s → exec .cycleend s = .next t → t.phase ≠ .fail →
    (∀ p, ¬ Qualifies t p) ∧
    (t.evt = s.evt ∨ ∃ batch, batch.length = s.n.toNat ∧ t.evt = s.evt ++ batchEvents batch)

/-- 41_synchronizer.md R122: a PUSH does not scan, "even if the buffer now holds a complete frame";
so a whole frame can wait between two operations of phase RUN, and the last clause of 10_state.md
R31(c) does not hold there (log 19). -/
def Obligations.FrameMayWaitForTheEndOfTheChunk : Prop :=
  ∃ s t : State, BlockInv s ∧ s.phase = .run ∧ (∀ p, ¬ Qualifies s p) ∧
    (∃ d, exec (.push d) s = .next t) ∧ BlockInv t ∧ t.phase = .run ∧ t.evt = s.evt ∧
    ∃ p, Qualifies t p

/-- 41_synchronizer.md R135: after every operation in phase RUN that does not raise, `LEN < CAP`. -/
def Obligations.ForwardProgress : Prop :=
  ∀ (d : Byte) (s t : State), s.phase = .run → BlockInv s →
    (exec (.push d) s = .next t ∨ exec (.pushl d) s = .next t ∨ exec .reset s = .next t) →
    t.phase ≠ .fail → t.len < t.cfg.cap

/-- 20_memory.md R51, 41_synchronizer.md R140: after an operation in phase RUN the buffer is a
suffix of what it held before followed by the byte received: no byte between two buffered bytes is
ever missing, and none is reordered. -/
def Obligations.BufferIsASuffixOfTheStream : Prop :=
  ∀ (d : Byte) (s t : State), s.phase = .run → BlockInv s →
    (exec (.push d) s = .next t ∨ exec (.pushl d) s = .next t) → t.phase ≠ .fail →
    contents t <:+ contents s ++ [d]

/-- 41_synchronizer.md R126, R129, 42_decoder.md R156: when the buffer ends with a whole frame, CYCLEEND emits exactly that frame's
payload, every value 0..255 verbatim, whatever stood before it (an older complete frame, which is
dropped without error, or nothing at all), and leaves the buffer empty. -/
def Obligations.NewestFrameWins : Prop :=
  ∀ (s : State) (older payload : List Byte), CycleInv s → SinkAnswers s → s.ans = .ok →
    s.cfg.testmode = false → contents s = older ++ s.m :: payload →
    payload.length = s.n.toNat →
    ∃ t, exec .cycleend s = .next t ∧ t.phase = .run ∧ t.err = s.err ∧ t.len = 0 ∧
      t.evt = s.evt ++ batchEvents payload

/-- 41_synchronizer.md R136: a read returning `bs` followed by `b`, no longer than the free space, has
the effect "append the bytes; CYCLEEND". -/
def Obligations.ChunkIsAppendThenCycleend : Prop :=
  ∀ (s : State) (bs : List Byte) (b : Byte) (ans : SinkAnswer) (rest : List Offer),
    BlockInv s → Quiet s → s.phase = .run → s.len + (bs.length + 1) ≤ s.cfg.cap →
    s.source = (chunkBeats (bs ++ [b])).map (fun w => ⟨w, ans⟩) ++ rest →
    ∃ a : State, contents a = contents s ++ bs ++ [b] ∧ CellsValid a ∧
      a = { s with buf := a.buf, len := s.len + (bs.length + 1), source := rest, ans := ans } ∧
      Sys2Proof.core.run (bs.length + 1) s = exec .cycleend a

/-- 41_synchronizer.md R137: with one-byte chunks and a sink that accepts everything, the batches
emitted are the greedy left-to-right parse of the stream, overflow or not. -/
def Obligations.OneByteChunksParseGreedily : Prop :=
  ∀ (s : State) (offers rest : List Offer), BlockInv s → Quiet s → s.phase = .run →
    (∀ p, ¬ Qualifies s p) → s.cfg.testmode = false → s.source = offers ++ rest →
    (∀ o ∈ offers, beatLast o.word = true ∧ o.ans = .ok) →
    ∃ t : State, Sys2Proof.core.run offers.length s = .next t ∧ t.phase = .run ∧
      t.source = rest ∧
      t.evt = s.evt ++
        (greedyParse s.m s.n.toNat none (contents s ++ offerBytes offers)).flatMap batchEvents

/-- 41_synchronizer.md R139: from an empty buffer, arbitrary noise without `M` followed by one frame
with arbitrary payload bytes gives exactly one batch, equal to the payload, however the stream is
divided into reads and however long the noise is. -/
def Obligations.SingleFrameAfterNoise : Prop :=
  ∀ (s : State) (noise payload : List Byte) (offers rest : List Offer),
    BlockInv s → Quiet s → s.phase = .run → s.cfg.testmode = false → s.len = 0 →
    payload.length = s.n.toNat → (∀ b ∈ noise, b ≠ s.m) →
    s.source = offers ++ rest → offerBytes offers = noise ++ s.m :: payload →
    (∀ o ∈ offers, o.ans = .ok) → (∀ o, offers.getLast? = some o → beatLast o.word = true) →
    ∃ t : State, Sys2Proof.core.run offers.length s = .next t ∧ t.phase = .run ∧
      t.source = rest ∧ t.evt = s.evt ++ batchEvents payload

/-- 41_synchronizer.md R138(a), (b): for a well-formed stream, under every division into chunks,
every batch emitted is the payload of one of the stream's whole frames, in stream order, none
twice. -/
def Obligations.WellFormedStreamsGiveTrueBatches : Prop :=
  ∀ (s : State) (noise tail : List Byte) (frames : List (List Byte))
    (offers rest : List Offer),
    BlockInv s → Quiet s → s.phase = .run → s.cfg.testmode = false → s.len = 0 →
    (∀ b ∈ noise, b ≠ s.m) →
    (∀ f ∈ frames, f.length = s.n.toNat ∧ ∀ b ∈ f, b ≠ s.m) →
    (tail = [] ∨ ∃ q, tail = s.m :: q ∧ q.length < s.n.toNat ∧ ∀ b ∈ q, b ≠ s.m) →
    s.source = offers ++ rest →
    offerBytes offers = noise ++ frames.flatMap (fun f => s.m :: f) ++ tail →
    (∀ o ∈ offers, o.ans = .ok) →
    ∃ (t : State) (picked : List (List Byte)), Sys2Proof.core.run offers.length s = .next t ∧
      t.phase = .run ∧ picked.Sublist frames ∧ t.evt = s.evt ++ picked.flatMap batchEvents

/-! ### Channel Decoder and Diagnostics Sampler -/

/-- 42_decoder.md R151: DECODE(p) returns the `N` bytes after cell `p`, in order and unchanged, and
writes nothing.  R151's `p` is a qualifying position; that the same holds at every other such `p` is
the model's choice (log 9). -/
def Obligations.DecodeTakesTheBytesVerbatim : Prop :=
  ∀ (p : Nat) (s : State), s.phase = .run → CellsValid s → p + s.n.toNat + 1 ≤ s.len →
    ∃ batch, exec (.decode p) s = .next { s with result := some (.batch batch) } ∧
      batch.length = s.n.toNat ∧
      ∀ i < s.n.toNat, batch[i]? = s.buf.read (p + 1 + i)

/-- 42_decoder.md R153: EMIT does nothing in test mode, whatever the sink would answer; otherwise
`OK` gives `AXIS(i, batch[i])` for `i = 0 .. N - 1` and then `SYNC`, and `FAIL(k)`, `k <= N`, gives
the first `k` of them, no `SYNC`, and raises SinkWriteError.  R153's batch is DECODE's; that the same holds
of every other batch of `N` values is the model's choice (log 9). -/
def Obligations.EmitPublishesTheBatch : Prop :=
  ∀ (batch : List Byte) (s : State), s.phase = .run → batch.length = s.n.toNat →
    (s.cfg.testmode = true → exec (.emit batch) s = .next s) ∧
    (s.cfg.testmode = false → ∃ events : List EvtEvent, events.length = s.n.toNat ∧
      (∀ i < s.n.toNat, ∃ v, batch[i]? = some v ∧
        events[i]? = some (.axis (BitVec.ofNat 4 i) v)) ∧
      (s.ans = .ok → exec (.emit batch) s = .next { s with evt := s.evt ++ events ++ [.sync] }) ∧
      (∀ k, s.ans = .failAt k → k ≤ s.n.toNat → ∃ t, exec (.emit batch) s = .next t ∧
        Raised .sinkWriteError (events.take k) s t))

/-- 70_reset_and_hazards.md R246: outside test mode, a sink that never answers leaves EMIT stuck (the
stuck state is the model's fault `sinkNeverAnswers`, log 8). -/
def Obligations.SilentSinkStalls : Prop :=
  ∀ (batch : List Byte) (s : State), s.phase = .run → batch.length = s.n.toNat →
    s.cfg.testmode = false → s.ans = .never →
    exec (.emit batch) s = .fault .sinkNeverAnswers

/-- 43_diagnostics.md R166: SAMPLE(p) counts the frame modulo `2^SEQ_W` and, when `P != 0` divides
the new count, reports it with the `N + 1` bytes of the frame, marker first; nothing else changes.  R166's `p` is the position of the frame just decoded; that the
same holds at every other such `p` is the model's choice (log 9). -/
def Obligations.SampleCountsAndReports : Prop :=
  ∀ (p : Nat) (s : State), s.phase = .run → CellsValid s → p + s.n.toNat + 1 ≤ s.len →
    ∃ q, q = (s.seq + 1) % 2 ^ s.cfg.seqW ∧
      (s.cfg.p = 0 ∨ q % s.cfg.p ≠ 0 → exec (.sample p) s = .next { s with seq := q }) ∧
      (s.cfg.p ≠ 0 ∧ q % s.cfg.p = 0 → ∃ bytes : List Byte, bytes.length = s.n.toNat + 1 ∧
        (∀ j ≤ s.n.toNat, bytes[j]? = s.buf.read (p + j)) ∧
        exec (.sample p) s = .next { s with seq := q, diag := s.diag ++ [.frame q bytes] })

/-- 42_decoder.md R154, 20_memory.md R64, 43_diagnostics.md R167: outside test mode one step adds to
the EVT trace either nothing, and then `SEQ` is as before in a run that goes on; or one whole group
`AXIS(0, ..) .. AXIS(N-1, ..), SYNC`, and then `SEQ` has counted it; or, exactly when the step
raises SinkWriteError, the first `k` events of a group, without its `SYNC`. -/
def Obligations.EvtTraceGrowsByWholeBatches : Prop :=
  ∀ s t : State, s.cfg.testmode = false → step s = .next t →
    (t.evt = s.evt ∧ (s.phase = .run → t.phase = .run → t.seq = s.seq) ∧
      ¬ (s.phase ≠ .fail ∧ t.phase = .fail ∧ t.err = .sinkWriteError)) ∨
    (s.phase = .run ∧ t.phase = .run ∧ t.seq = (s.seq + 1) % 2 ^ s.cfg.seqW ∧
      ∃ batch, batch.length = s.n.toNat ∧ t.evt = s.evt ++ batchEvents batch) ∨
    (s.phase = .run ∧ t.phase = .fail ∧ t.err = .sinkWriteError ∧
      ∃ batch k, batch.length = s.n.toNat ∧ k ≤ s.n.toNat ∧
        t.evt = s.evt ++ (axisEvents batch).take k)

/-- 42_decoder.md R155: in test mode no step adds to the EVT trace; and every operation does to the
rest of the state what it does outside test mode with a sink that accepts everything. -/
def Obligations.TestModeOnlySilencesTheSink : Prop :=
  (∀ s t : State, s.cfg.testmode = true → step s = .next t → t.evt = s.evt) ∧
  (∀ (i : Instr) (s t : State), s.cfg.testmode = true → exec i s = .next t →
    ∀ evt, ∃ evt', exec i (withOpenSink evt s) = .next (withOpenSink evt' t))

/-- 43_diagnostics.md R168: two states that differ only in `P` and in the DIAG trace do the same
step, and the results differ only in `P` and in the DIAG trace. -/
def Obligations.SamplePeriodHasNoInfluence : Prop :=
  ∀ (s t : State) (p : Nat) (diag : List DiagEvent), BlockInv s → step s = .next t →
    ∃ diag', step (withPeriod p diag s) = .next (withPeriod p diag' t)

/-! ### System, errors, phases -/

/-- 44_system.md R181, 10_state.md R42: RESET in any state answers the next state with PHASE = BOOT,
ERR = NONE, BOOTCNT = 0, CANDV = 0, LEN = 0, SEQ = 0; it emits nothing and touches nothing around
the block.  Of CAND, N, M and the cells nothing is said. -/
def Obligations.ResetStartsARun : Prop :=
  ∀ s : State, ∃ t, exec .reset s = .next t ∧
    t.phase = .boot ∧ t.err = .none ∧ t.bootcnt = 0 ∧ t.candv = false ∧ t.len = 0 ∧ t.seq = 0 ∧
    t.evt = s.evt ∧ t.diag = s.diag ∧ SameSurroundings s t

/-- 44_system.md R183, R184, 60_exceptions.md R208: SRCERR in phase BOOT or RUN raises ReadError;
in phase FAIL state, ERR and both traces are unchanged. -/
def Obligations.SrcerrRaisesReadErrorOnce : Prop :=
  ∀ s : State,
    (s.phase ≠ .fail → ∃ t, exec .srcerr s = .next t ∧ Raised .readError [] s t) ∧
    (s.phase = .fail → exec .srcerr s = .next s)

/-- 10_state.md R42: the state after reset has the values the spec gives. -/
def Obligations.ResetStateValues : Prop :=
  State.reset.phase = .boot ∧ State.reset.err = .none ∧ State.reset.bootcnt = 0 ∧
    State.reset.candv = false ∧ State.reset.len = 0 ∧ State.reset.seq = 0

/-- The state after reset meets the invariant (10_state.md R31); its `P`, `TESTMODE`, `CAND`, `N` and
`M` are the model's choice (logs 2, 7). -/
def Obligations.ResetStateMeetsInv : Prop := BlockInv State.reset

/-- 10_state.md R31 without the last clause of (c) (log 19): every step keeps the invariant. -/
def Obligations.StepKeepsInv : Prop :=
  ∀ s t : State, BlockInv s → step s = .next t → BlockInv t

/-- 10_state.md R37, 30_encoding.md R90: from a state that meets the invariant every step completes,
whatever is presented, unless the sink never answers the batch being published; the block never
refuses an event it fetches and no access to the buffer leaves its range. -/
def Obligations.StepsComplete : Prop :=
  ∀ s : State, BlockInv s →
    (∃ t, step s = .next t) ∨
    (step s = .fault .sinkNeverAnswers ∧ s.cfg.testmode = false ∧ (arrive s).phase = .run ∧
      ∃ o rest, (arrive s).source = o :: rest ∧ o.ans = .never)

/-- 44_system.md R190: the complete list of phase changes, with their causes. -/
def Obligations.PhaseChanges : Prop :=
  ∀ s t : State, step s = .next t →
    (t.phase = .boot → s.phase = .boot ∨ (arrive s).resetPin = true) ∧
    (t.phase = .run → s.phase = .run ∨ (s.phase = .boot ∧ s.bootcnt + 1 = s.cfg.w)) ∧
    (t.phase = .fail → s.phase = .fail ∨
      (t.err = .readError ∧ (arrive s).srcerrPin = true) ∨
      (t.err = .syncNotFound ∧ s.phase = .boot ∧ s.bootcnt + 1 = s.cfg.w) ∨
      (t.err = .sinkWriteError ∧ s.phase = .run ∧ s.cfg.testmode = false ∧
        ∃ o rest k, (arrive s).source = o :: rest ∧ o.ans = .failAt k))

/-- 60_exceptions.md R210, 44_system.md R184: in phase FAIL a step without RESET answers the next
state with every register and both traces unchanged, and no beat is taken from the source. -/
def Obligations.FailIsTerminal : Prop :=
  ∀ s : State, s.phase = .fail → (arrive s).resetPin = false →
    ∃ t, step s = .next t ∧ SameBlock s t ∧ t.source = (arrive s).source

/-- 20_memory.md R66, 10_state.md R26: a step that stays in phase RUN changes neither N nor M. -/
def Obligations.FormatIsFixedInARun : Prop :=
  ∀ s t : State, s.phase = .run → step s = .next t → t.phase = .run → t.n = s.n ∧ t.m = s.m

/-- 00_scope.md R7, 10_state.md R35: no operation and no step changes the parameters or the
configuration inputs. -/
def Obligations.ConfigurationIsConstant : Prop :=
  (∀ (i : Instr) (s t : State), exec i s = .next t → t.cfg = s.cfg) ∧
  (∀ s t : State, step s = .next t → t.cfg = s.cfg)

/-- 60_exceptions.md R212: of the events presented a step takes one: RESET first, which discards the
SRCERR; then SRCERR; then the oldest beat.  A beat not taken stays with the source. -/
def Obligations.EventPriority : Prop :=
  ∀ s a : State, arrive s = a →
    (a.resetPin = true → step s = exec .reset { a with resetPin := false, srcerrPin := false }) ∧
    (a.resetPin = false → a.srcerrPin = true → step s = exec .srcerr { a with srcerrPin := false }) ∧
    (a.resetPin = false → a.srcerrPin = false → ∀ o rest, a.source = o :: rest →
      (a.phase = .boot → ∃ i, decode (.bootBeat o.word) = .ok i ∧
        step s = exec i { a with source := rest, ans := o.ans }) ∧
      (a.phase = .run → ∃ i, decode (.runBeat o.word) = .ok i ∧
        step s = exec i { a with source := rest, ans := o.ans }) ∧
      (a.phase = .fail → step s = .next a)) ∧
    (a.resetPin = false → a.srcerrPin = false → a.source = [] → step s = .next a)

/-- A step runs the decoded instruction: what the environment does in the gap comes first, the
event's pin or beat is consumed, and then the step is exec of the decoded instruction; without an
event the block waits (44_system.md R180, R188). -/
def Obligations.StepRunsTheDecodedInstruction : Prop :=
  ∀ s : State,
    (∀ sig i, fetch (arrive s) = some sig → decode sig = .ok i →
      step s = exec i (accept sig (arrive s))) ∧
    (fetch (arrive s) = none → step s = .next (arrive s))

/-- The environment's actions in a gap touch no register of the block and neither trace
(44_system.md R188: "while it waits, no state changes and nothing is emitted"). -/
def Obligations.EnvironmentTouchesNoRegister : Prop :=
  ∀ s : State, SameBlock s (arrive s) ∧ (arrive s).cfg = s.cfg

/-- 30_encoding.md R80: a read returns the oldest bytes the Byte Source holds, at most `k` of them,
as offered beats in order, `last` on the final one only; with no byte held nothing is offered. -/
def Obligations.ReadOffersTheBytesHeld : Prop :=
  ∀ (k : Nat) (ans : SinkAnswer) (s : State),
    ∃ offers : List Offer,
      (EnvAction.read k ans).apply s =
        { s with source := s.source ++ offers, wire := s.wire.drop k } ∧
      offerBytes offers = s.wire.take k ∧
      ∀ j, ∀ o, offers[j]? = some o →
        o.ans = ans ∧ (beatLast o.word = true ↔ j + 1 = offers.length)

/-- A word of the opcode table placed by `withFetchWord` is the event the very next step takes and
runs (the model's choice, log 12). -/
def Obligations.PlacedWordRunsNext : Prop :=
  ∀ (s : State) (nbits w : Nat) (i : Instr), w < 0x200 → decodeTableWord nbits w = some i →
    ∃ s' : State, step (s.withFetchWord nbits w) = exec i s' ∧
      s'.source = s.source ∧ s'.script = s.script ∧ s'.ans = s.ans ∧ s'.cfg = s.cfg

/-- 10_state.md R36, R37: the status ports show the registers where they are valid, the `LEN` and
`SEQ` ports are of their widths in every phase, and `in_ready = 1` exactly when the phase is not
FAIL. -/
def Obligations.StatusPortsShowTheRegisters : Prop :=
  ∀ s : State, BlockInv s →
    (ports s).phase = s.phase.code ∧ (ports s).err = s.err.code ∧
    ((ports s).inReady = true ↔ s.phase ≠ .fail) ∧
    (s.phase = .run → (ports s).n = s.n ∧ (ports s).m = s.m ∧ (ports s).len = s.len ∧
      (ports s).seq = s.seq) ∧
    (s.phase = .boot → (ports s).len = 0 ∧ (ports s).seq = 0) ∧
    (ports s).len < 2 ^ lenWidth s.cfg.cap ∧ (ports s).seq < 2 ^ s.cfg.seqW

/-! ### The rows that are no operations, and the stops -/

/-- 30_encoding.md R72, R73, R74 (the effect at the Byte Source is the model's choice, log 10): a
marker or payload byte on the wire reaches the Byte Source unchanged, the marker as `0xF0 + m`; no
register and no trace changes. -/
def Obligations.WireBytesReachTheSource : Prop :=
  (∀ (m : Nibble) (s : State), ∃ b : Byte, b.toNat = 0xF0 + m.toNat ∧
    exec (.wireMarker m) s = .next { s with wire := s.wire ++ [b] }) ∧
  (∀ (v : Byte) (s : State), exec (.wirePayload v) s = .next { s with wire := s.wire ++ [v] })

/-- 00_scope.md R14, 30_encoding.md R87 (that the rows run by themselves is the model's choice,
log 11): in phase RUN, outside test mode, an EVT row appends its event to the EVT trace and changes
nothing else; elsewhere no event stands on the port. -/
def Obligations.EvtRowsAppendTheirEvent : Prop :=
  ∀ s : State,
    (s.phase = .run ∧ s.cfg.testmode = false →
      (∀ ch val, exec (.evtAxis ch val) s = .next { s with evt := s.evt ++ [.axis ch val] }) ∧
      exec .evtSync s = .next { s with evt := s.evt ++ [.sync] }) ∧
    (¬ (s.phase = .run ∧ s.cfg.testmode = false) →
      (∀ ch val, exec (.evtAxis ch val) s = .refused .notCalled) ∧
      exec .evtSync s = .refused .notCalled)

/-- 30_encoding.md R84, 60_exceptions.md R210: an operation of a beat runs only in the phase that
selects it (log 18); a sub-procedure only where the state meets what the model asks of its call (log 9); a read outside the
valid cells (20_memory.md R55; log 5), a store into a full buffer and a discard of more than the
buffer holds (R50, R68; log 21) stop by name.  The spec defines none of these; that the model stops
there, and by which name, is the model's choice (logs 5, 9, 18, 21). -/
def Obligations.StopsAreNamed : Prop :=
  ∀ s : State,
    (∀ last d c, s.phase = .fail → exec (.bskip last d) s = .refused .notAccepted ∧
      exec (.bcand last c) s = .refused .notAccepted ∧
      exec (.push d) s = .refused .notAccepted ∧ exec (.pushl d) s = .refused .notAccepted) ∧
    (∀ last d c, s.phase = .run → exec (.bskip last d) s = .refused .notSelected ∧
      exec (.bcand last c) s = .refused .notSelected) ∧
    (∀ d, s.phase = .boot → exec (.push d) s = .refused .notSelected ∧
      exec (.pushl d) s = .refused .notSelected) ∧
    (¬ (s.phase = .boot ∧ s.bootcnt = s.cfg.w) → exec .bootclose s = .refused .notCalled) ∧
    (∀ p batch, s.phase ≠ .run → exec .cycleend s = .refused .notCalled ∧
      exec .scan s = .refused .notCalled ∧ exec (.discard p) s = .refused .notCalled ∧
      exec .ovfrec s = .refused .notCalled ∧ exec (.decode p) s = .refused .notCalled ∧
      exec (.emit batch) s = .refused .notCalled ∧ exec (.sample p) s = .refused .notCalled) ∧
    (s.len ≠ s.cfg.cap → exec .ovfrec s = .refused .notCalled) ∧
    (∀ batch, batch.length ≠ s.n.toNat → exec (.emit batch) s = .refused .notCalled) ∧
    (∀ p, s.phase = .run → s.len < p + s.n.toNat + 1 →
      exec (.discard p) s = .fault .indexOutsideBuffer ∧
      (1 ≤ s.n.toNat → exec (.decode p) s = .fault .cellHoldsNoValue) ∧
      (s.cfg.p ≠ 0 ∧ (s.seq + 1) % 2 ^ s.cfg.seqW % s.cfg.p = 0 →
        exec (.sample p) s = .fault .cellHoldsNoValue)) ∧
    (∀ d, s.phase = .run → s.cfg.cap ≤ s.len → exec (.push d) s = .fault .indexOutsideBuffer ∧
      exec (.pushl d) s = .fault .indexOutsideBuffer)

/-! ### The last clause of 10_state.md R31(c): where it holds, and where not -/

/-- 41_synchronizer.md R122: "when `LEN < CAP` after the append, nothing else happens: no scan, no
emission, even if the buffer now holds a complete frame".  Said of every state: a PUSH that stores
the last byte of a frame (`M` stands `N` cells below it) without filling the buffer leaves that
frame waiting, and emits nothing.  So the last clause of 10_state.md R31(c) fails there (log 19). -/
def Obligations.CompletedFrameWaitsAfterPush : Prop :=
  ∀ (d : Byte) (s : State) (p : Nat), BlockInv s → s.phase = .run → s.len + 1 < s.cfg.cap →
    p + s.n.toNat = s.len → readBuf s p = some s.m →
    ∃ t, exec (.push d) s = .next t ∧ BlockInv t ∧ t.phase = .run ∧ Qualifies t p ∧
      t.evt = s.evt ∧ t.diag = s.diag ∧ t.seq = s.seq

/-- 10_state.md R31, the whole of it, between read cycles (log 19): where the invariant holds and no
frame waits, a step that takes no beat in phase RUN, or one that ends its read cycle (30_encoding.md
R82), leaves a state where the invariant holds and no frame waits. -/
def Obligations.NoFrameWaitsBetweenReadCycles : Prop :=
  ∀ s t : State, BlockInv s → NoFrameWaits s → EndsReadCycle (arrive s) → step s = .next t →
    BlockInv t ∧ NoFrameWaits t
end

