-- ==== Sys2Proof/Laws/Memory.lean ====
section
/-! SUPPORT. Laws of the buffer's cells: reading after writing, the canonical form, and the buffer
seen as the list of its bytes. -/

namespace Sys2Proof.Machine

/-! ### Read after write -/

@[simp] theorem Memory.read_nil (i : Nat) : Memory.read [] i = none := rfl

theorem Memory.read_write (mem : Memory) (i j : Nat) (v : Byte) :
    (mem.write i v).read j = if j = i then some v else mem.read j := by
  induction mem with
  | nil => simp [Memory.write, Memory.read]
  | cons c rest ih =>
    obtain ⟨a, b⟩ := c
    by_cases h₁ : i < a
    · simp only [Memory.write, h₁, if_true, Memory.read]
    · by_cases h₂ : i = a
      · subst h₂
        simp only [Memory.write, Nat.lt_irrefl, if_false, if_true, Memory.read]
        split <;> rfl
      · simp only [Memory.write, h₁, h₂, if_false, Memory.read, ih]
        by_cases h₃ : j = a
        · have : j ≠ i := by omega
          simp [h₃, show a ≠ i by omega]
        · simp [h₃]

/-! ### The canonical form -/

/-- Every index listed is at least `a`. -/
def Memory.above (a : Nat) (mem : Memory) : Prop := ∀ c ∈ mem, a ≤ c.1

theorem Memory.wf_cons (a : Nat) (b : Byte) (rest : Memory) :
    Memory.wf ((a, b) :: rest) = true ↔ Memory.above (a + 1) rest ∧ Memory.wf rest = true := by
  induction rest generalizing a b with
  | nil => simp [Memory.wf, Memory.above]
  | cons c rest ih =>
    obtain ⟨a', b'⟩ := c
    simp only [Memory.wf, Bool.and_eq_true, decide_eq_true_eq]
    constructor
    · rintro ⟨h, hwf⟩
      refine ⟨?_, hwf⟩
      intro c hc
      rcases List.mem_cons.mp hc with rfl | hc
      · exact h
      · have := (ih a' b').mp hwf |>.1 c hc
        omega
    · rintro ⟨h, hwf⟩
      exact ⟨h (a', b') (by simp), hwf⟩

theorem Memory.above_write (a : Nat) (mem : Memory) (i : Nat) (v : Byte)
    (h : Memory.above a mem) (hi : a ≤ i) : Memory.above a (mem.write i v) := by
  induction mem with
  | nil => intro c hc; simp [Memory.write] at hc; simp [hc, hi]
  | cons c rest ih =>
    obtain ⟨a', b'⟩ := c
    have hr : Memory.above a rest := fun c hc => h c (by simp [hc])
    have ha : a ≤ a' := h (a', b') (by simp)
    intro c hc
    unfold Memory.write at hc
    split at hc
    · rcases List.mem_cons.mp hc with rfl | hc
      · exact hi
      · exact h c hc
    · split at hc
      · rcases List.mem_cons.mp hc with rfl | hc
        · exact ha
        · exact hr c hc
      · rcases List.mem_cons.mp hc with rfl | hc
        · exact ha
        · exact ih hr c hc

theorem Memory.wf_write (mem : Memory) (i : Nat) (v : Byte) (h : mem.wf = true) :
    (mem.write i v).wf = true := by
  induction mem with
  | nil => rfl
  | cons c rest ih =>
    obtain ⟨a, b⟩ := c
    have ⟨hab, hwf⟩ := (Memory.wf_cons a b rest).mp h
    unfold Memory.write
    split
    · rename_i hlt
      refine (Memory.wf_cons i v _).mpr ⟨?_, h⟩
      intro c hc
      rcases List.mem_cons.mp hc with rfl | hc
      · exact hlt
      · have := hab c hc; omega
    · split
      · exact (Memory.wf_cons a v rest).mpr ⟨hab, hwf⟩
      · refine (Memory.wf_cons a b _).mpr ⟨Memory.above_write _ _ _ _ hab (by omega), ih hwf⟩

theorem Memory.wf_keepBelow (mem : Memory) (r : Nat) (h : mem.wf = true) :
    (mem.keepBelow r).wf = true := by
  induction mem with
  | nil => rfl
  | cons c rest ih =>
    obtain ⟨a, b⟩ := c
    have ⟨hab, hwf⟩ := (Memory.wf_cons a b rest).mp h
    unfold Memory.keepBelow at ih ⊢
    rw [List.filter_cons]
    split
    · refine (Memory.wf_cons a b _).mpr ⟨?_, ih hwf⟩
      intro c hc
      exact hab c (List.mem_filter.mp hc).1
    · exact ih hwf

theorem moveDown_wf (k r i : Nat) (mem mem' : Memory) (h : mem.wf = true)
    (hm : moveDown k r i mem = some mem') : mem'.wf = true := by
  induction r generalizing i mem with
  | zero => simp [moveDown] at hm; exact hm ▸ h
  | succ r ih =>
    unfold moveDown at hm
    split at hm
    · cases hm
    · exact ih _ _ (Memory.wf_write _ _ _ h) hm

/-! ### The move loop -/

/-- What the move loop answers: it goes through when the cells it reads hold values, and the result
is the copy made at once (20_memory.md R56). -/
theorem moveDown_spec (k r i : Nat) (mem : Memory) (hk : 1 ≤ k)
    (hs : ∀ j, i ≤ j → j < i + r → (mem.read (j + k)).isSome = true) :
    ∃ mem', moveDown k r i mem = some mem' ∧
      ∀ j, mem'.read j = if i ≤ j ∧ j < i + r then mem.read (j + k) else mem.read j := by
  induction r generalizing i mem with
  | zero => exact ⟨mem, rfl, fun j => (if_neg (by omega)).symm⟩
  | succ r ih =>
    obtain ⟨b, hb⟩ := Option.isSome_iff_exists.mp (hs i (by omega) (by omega))
    have hread : ∀ j, i < j → (mem.write i b).read j = mem.read j := fun j hj => by
      rw [Memory.read_write]; simp; omega
    obtain ⟨mem', hm, hr⟩ := ih (i + 1) (mem.write i b) (fun j h₁ h₂ => by
      rw [hread _ (by omega)]; exact hs j (by omega) (by omega))
    refine ⟨mem', by simp only [moveDown, hb]; exact hm, fun j => ?_⟩
    rw [hr j]
    by_cases h₁ : i + 1 ≤ j ∧ j < i + 1 + r
    · rw [if_pos h₁, if_pos ⟨by omega, by omega⟩, hread _ (by omega)]
    · rw [if_neg h₁, Memory.read_write]
      by_cases h₂ : j = i
      · subst h₂; rw [if_pos rfl, if_pos ⟨by omega, by omega⟩, hb]
      · rw [if_neg h₂, if_neg (by omega)]

/-! ### The buffer as the list of its bytes -/

/-- The cells `i, i + 1, ...` holding these bytes. -/
def cellsFrom : Nat → List Byte → Memory
  | _, [] => []
  | i, b :: bs => (i, b) :: cellsFrom (i + 1) bs

theorem Memory.read_keepBelow (mem : Memory) (r j : Nat) :
    (mem.keepBelow r).read j = if j < r then mem.read j else none := by
  induction mem with
  | nil => simp [Memory.keepBelow]
  | cons c rest ih =>
    obtain ⟨a, b⟩ := c
    unfold Memory.keepBelow at ih ⊢
    rw [List.filter_cons]
    by_cases ha : a < r
    · simp only [ha, decide_true, if_true, Memory.read]
      by_cases hj : j = a
      · simp [hj, ha]
      · simp [hj, ih]
    · simp only [ha, decide_false, Memory.read]
      by_cases hj : j = a
      · subst hj; simp [ih, ha]
      · simp [hj, ih]

theorem bytes_cellsFrom (i : Nat) (bs : List Byte) : (cellsFrom i bs).bytes = bs := by
  induction bs generalizing i with
  | nil => rfl
  | cons b bs ih => simpa [cellsFrom, Memory.bytes] using ih (i + 1)

theorem indices_cellsFrom (i : Nat) (bs : List Byte) :
    (cellsFrom i bs).map Prod.fst = List.range' i bs.length := by
  induction bs generalizing i with
  | nil => rfl
  | cons b bs ih => simp [cellsFrom, List.range'_succ, ih]

theorem read_cellsFrom (i : Nat) (bs : List Byte) (j : Nat) :
    (cellsFrom i bs).read j = if j < i then none else bs[j - i]? := by
  induction bs generalizing i with
  | nil => simp [cellsFrom]
  | cons b bs ih =>
    simp only [cellsFrom, Memory.read, ih]
    by_cases h₁ : j = i
    · simp [h₁]
    · by_cases h₂ : j < i
      · simp [h₁, h₂, show j < i + 1 by omega]
      · simp only [h₁, h₂, if_false, show ¬ j < i + 1 by omega]
        rw [show j - i = (j - (i + 1)) + 1 by omega, List.getElem?_cons_succ]

/-- Memory listing the indices `i, i + 1, ...` is the cells of its bytes. -/
theorem eq_cellsFrom (mem : Memory) (i n : Nat) (h : mem.map Prod.fst = List.range' i n) :
    mem = cellsFrom i mem.bytes := by
  induction mem generalizing i n with
  | nil => rfl
  | cons c rest ih =>
    obtain ⟨a, b⟩ := c
    cases n with
    | zero => simp at h
    | succ n =>
      simp only [List.map_cons, List.range'_succ, List.cons.injEq] at h
      obtain ⟨rfl, h⟩ := h
      have := ih _ _ h
      simp only [Memory.bytes, List.map_cons, cellsFrom] at this ⊢
      rw [← this]

theorem write_cellsFrom (i : Nat) (bs : List Byte) (v : Byte) :
    (cellsFrom i bs).write (i + bs.length) v = cellsFrom i (bs ++ [v]) := by
  induction bs generalizing i with
  | nil => rfl
  | cons b bs ih =>
    simp only [cellsFrom, Memory.write, List.length_cons, List.cons_append]
    rw [if_neg (by omega), if_neg (by omega), show i + (bs.length + 1) = i + 1 + bs.length by omega,
      ih]

theorem wf_cellsFrom (i : Nat) (bs : List Byte) : (cellsFrom i bs).wf = true := by
  induction bs generalizing i with
  | nil => rfl
  | cons b bs ih =>
    refine (Memory.wf_cons i b _).mpr ⟨?_, ih _⟩
    intro c hc
    have : c.1 ∈ (cellsFrom (i + 1) bs).map Prod.fst := List.mem_map_of_mem hc
    rw [indices_cellsFrom, List.mem_range'] at this
    omega

/-- Two memories in canonical form that read the same are the same. -/
theorem Memory.ext_read (m₁ m₂ : Memory) (h₁ : m₁.wf = true) (h₂ : m₂.wf = true)
    (h : ∀ i, m₁.read i = m₂.read i) : m₁ = m₂ := by
  have none_of_above : ∀ (a : Nat) (mem : Memory), Memory.above (a + 1) mem → mem.read a = none := by
    intro a mem ha
    induction mem with
    | nil => rfl
    | cons c rest ih =>
      obtain ⟨x, y⟩ := c
      have : a + 1 ≤ x := ha (x, y) (by simp)
      simp only [Memory.read, show a ≠ x by omega, if_false]
      exact ih fun c hc => ha c (by simp [hc])
  induction m₁ generalizing m₂ with
  | nil =>
    cases m₂ with
    | nil => rfl
    | cons c r => obtain ⟨a, b⟩ := c; have := h a; simp [Memory.read] at this
  | cons c₁ r₁ ih =>
    obtain ⟨a₁, b₁⟩ := c₁
    have ⟨ha₁, hw₁⟩ := (Memory.wf_cons a₁ b₁ r₁).mp h₁
    cases m₂ with
    | nil => have := h a₁; simp [Memory.read] at this
    | cons c₂ r₂ =>
      obtain ⟨a₂, b₂⟩ := c₂
      have ⟨ha₂, hw₂⟩ := (Memory.wf_cons a₂ b₂ r₂).mp h₂
      have e : a₁ = a₂ := by
        rcases Nat.lt_trichotomy a₁ a₂ with hlt | heq | hgt
        · have := h a₁
          simp only [Memory.read, if_true, show a₁ ≠ a₂ by omega, if_false] at this
          rw [none_of_above a₁ r₂ fun c hc => by have := ha₂ c hc; omega] at this
          cases this
        · exact heq
        · have := h a₂
          simp only [Memory.read, if_true, show a₂ ≠ a₁ by omega, if_false] at this
          rw [none_of_above a₂ r₁ fun c hc => by have := ha₁ c hc; omega] at this
          cases this
      subst e
      have hb : b₁ = b₂ := by have := h a₁; simpa [Memory.read] using this
      subst hb
      congr 1
      refine ih r₂ hw₁ hw₂ fun i => ?_
      by_cases hi : i = a₁
      · subst hi; rw [none_of_above i r₁ ha₁, none_of_above i r₂ ha₂]
      · have := h i; simpa [Memory.read, hi] using this

/-! ### The valid cells of a state -/

theorem CellsValid.eq_cells {s : State} (h : CellsValid s) : s.buf = cellsFrom 0 (contents s) :=
  eq_cellsFrom s.buf 0 s.len (by rw [h, List.range_eq_range'])

theorem CellsValid.length {s : State} (h : CellsValid s) : (contents s).length = s.len := by
  have := congrArg List.length h
  simpa [contents, Memory.bytes] using this

theorem CellsValid.wf {s : State} (h : CellsValid s) : s.buf.wf = true := by
  rw [h.eq_cells]; exact wf_cellsFrom _ _

theorem CellsValid.read {s : State} (h : CellsValid s) (i : Nat) :
    s.buf.read i = (contents s)[i]? := by
  rw [h.eq_cells, read_cellsFrom]
  simp [contents]

/-- A state whose buffer is the cells of a list of `LEN` bytes has valid cells. -/
theorem cellsValid_of_eq {s : State} (bs : List Byte) (hb : s.buf = cellsFrom 0 bs)
    (hl : s.len = bs.length) : CellsValid s ∧ contents s = bs := by
  refine ⟨?_, ?_⟩
  · unfold CellsValid; rw [hb, hl, indices_cellsFrom, List.range_eq_range']
  · unfold contents; rw [hb, bytes_cellsFrom]

theorem CellsValid.readBuf {s : State} (h : CellsValid s) (i : Nat) :
    Sys2Proof.Machine.readBuf s i = (contents s)[i]? := by
  unfold Sys2Proof.Machine.readBuf
  split
  · exact h.read i
  · rename_i hi
    rw [List.getElem?_eq_none (by rw [h.length]; omega)]

end Sys2Proof.Machine
end

