-- ==== Sys2Proof/Laws/State.lean ====
section
/-! SUPPORT. One lemma for each field and each named update of the state, so that no proof unfolds a
record update. -/

namespace Sys2Proof.Machine

/-! ### emitEvt -/

@[simp] theorem emitEvt_cfg (es : List EvtEvent) (s : State) : (emitEvt es s).cfg = s.cfg := rfl
@[simp] theorem emitEvt_phase (es : List EvtEvent) (s : State) :
    (emitEvt es s).phase = s.phase := rfl
@[simp] theorem emitEvt_err (es : List EvtEvent) (s : State) : (emitEvt es s).err = s.err := rfl
@[simp] theorem emitEvt_bootcnt (es : List EvtEvent) (s : State) :
    (emitEvt es s).bootcnt = s.bootcnt := rfl
@[simp] theorem emitEvt_candv (es : List EvtEvent) (s : State) :
    (emitEvt es s).candv = s.candv := rfl
@[simp] theorem emitEvt_cand (es : List EvtEvent) (s : State) : (emitEvt es s).cand = s.cand := rfl
@[simp] theorem emitEvt_n (es : List EvtEvent) (s : State) : (emitEvt es s).n = s.n := rfl
@[simp] theorem emitEvt_m (es : List EvtEvent) (s : State) : (emitEvt es s).m = s.m := rfl
@[simp] theorem emitEvt_buf (es : List EvtEvent) (s : State) : (emitEvt es s).buf = s.buf := rfl
@[simp] theorem emitEvt_len (es : List EvtEvent) (s : State) : (emitEvt es s).len = s.len := rfl
@[simp] theorem emitEvt_seq (es : List EvtEvent) (s : State) : (emitEvt es s).seq = s.seq := rfl
@[simp] theorem emitEvt_evt (es : List EvtEvent) (s : State) :
    (emitEvt es s).evt = s.evt ++ es := rfl
@[simp] theorem emitEvt_diag (es : List EvtEvent) (s : State) : (emitEvt es s).diag = s.diag := rfl
@[simp] theorem emitEvt_resetPin (es : List EvtEvent) (s : State) :
    (emitEvt es s).resetPin = s.resetPin := rfl
@[simp] theorem emitEvt_srcerrPin (es : List EvtEvent) (s : State) :
    (emitEvt es s).srcerrPin = s.srcerrPin := rfl
@[simp] theorem emitEvt_source (es : List EvtEvent) (s : State) :
    (emitEvt es s).source = s.source := rfl
@[simp] theorem emitEvt_wire (es : List EvtEvent) (s : State) : (emitEvt es s).wire = s.wire := rfl
@[simp] theorem emitEvt_script (es : List EvtEvent) (s : State) :
    (emitEvt es s).script = s.script := rfl
@[simp] theorem emitEvt_ans (es : List EvtEvent) (s : State) : (emitEvt es s).ans = s.ans := rfl
@[simp] theorem emitEvt_result (es : List EvtEvent) (s : State) :
    (emitEvt es s).result = s.result := rfl
@[simp] theorem emitEvt_free (es : List EvtEvent) (s : State) : (emitEvt es s).free = s.free := rfl

/-! ### emitDiag -/

@[simp] theorem emitDiag_cfg (e : DiagEvent) (s : State) : (emitDiag e s).cfg = s.cfg := rfl
@[simp] theorem emitDiag_phase (e : DiagEvent) (s : State) : (emitDiag e s).phase = s.phase := rfl
@[simp] theorem emitDiag_err (e : DiagEvent) (s : State) : (emitDiag e s).err = s.err := rfl
@[simp] theorem emitDiag_bootcnt (e : DiagEvent) (s : State) :
    (emitDiag e s).bootcnt = s.bootcnt := rfl
@[simp] theorem emitDiag_candv (e : DiagEvent) (s : State) : (emitDiag e s).candv = s.candv := rfl
@[simp] theorem emitDiag_cand (e : DiagEvent) (s : State) : (emitDiag e s).cand = s.cand := rfl
@[simp] theorem emitDiag_n (e : DiagEvent) (s : State) : (emitDiag e s).n = s.n := rfl
@[simp] theorem emitDiag_m (e : DiagEvent) (s : State) : (emitDiag e s).m = s.m := rfl
@[simp] theorem emitDiag_buf (e : DiagEvent) (s : State) : (emitDiag e s).buf = s.buf := rfl
@[simp] theorem emitDiag_len (e : DiagEvent) (s : State) : (emitDiag e s).len = s.len := rfl
@[simp] theorem emitDiag_seq (e : DiagEvent) (s : State) : (emitDiag e s).seq = s.seq := rfl
@[simp] theorem emitDiag_evt (e : DiagEvent) (s : State) : (emitDiag e s).evt = s.evt := rfl
@[simp] theorem emitDiag_diag (e : DiagEvent) (s : State) :
    (emitDiag e s).diag = s.diag ++ [e] := rfl
@[simp] theorem emitDiag_resetPin (e : DiagEvent) (s : State) :
    (emitDiag e s).resetPin = s.resetPin := rfl
@[simp] theorem emitDiag_srcerrPin (e : DiagEvent) (s : State) :
    (emitDiag e s).srcerrPin = s.srcerrPin := rfl
@[simp] theorem emitDiag_source (e : DiagEvent) (s : State) :
    (emitDiag e s).source = s.source := rfl
@[simp] theorem emitDiag_wire (e : DiagEvent) (s : State) : (emitDiag e s).wire = s.wire := rfl
@[simp] theorem emitDiag_script (e : DiagEvent) (s : State) :
    (emitDiag e s).script = s.script := rfl
@[simp] theorem emitDiag_ans (e : DiagEvent) (s : State) : (emitDiag e s).ans = s.ans := rfl
@[simp] theorem emitDiag_result (e : DiagEvent) (s : State) :
    (emitDiag e s).result = s.result := rfl
@[simp] theorem emitDiag_free (e : DiagEvent) (s : State) : (emitDiag e s).free = s.free := rfl

/-! ### trap -/

@[simp] theorem trap_cfg (e : Err) (s : State) : (trap e s).cfg = s.cfg := rfl
@[simp] theorem trap_phase (e : Err) (s : State) : (trap e s).phase = .fail := rfl
@[simp] theorem trap_err (e : Err) (s : State) : (trap e s).err = e := rfl
@[simp] theorem trap_bootcnt (e : Err) (s : State) :
    (trap e s).bootcnt = Config.freeBootcnt s.free % (s.cfg.w + 1) := rfl
@[simp] theorem trap_candv (e : Err) (s : State) : (trap e s).candv = Config.freeCandv s.free := rfl
@[simp] theorem trap_cand (e : Err) (s : State) : (trap e s).cand = Config.freeCand s.free := rfl
@[simp] theorem trap_n (e : Err) (s : State) : (trap e s).n = Config.freeN s.free := rfl
@[simp] theorem trap_m (e : Err) (s : State) : (trap e s).m = Config.freeM s.free := rfl
@[simp] theorem trap_buf (e : Err) (s : State) : (trap e s).buf = [] := rfl
@[simp] theorem trap_len (e : Err) (s : State) :
    (trap e s).len = Config.freeLen s.free % (s.cfg.cap + 1) := rfl
@[simp] theorem trap_seq (e : Err) (s : State) :
    (trap e s).seq = Config.freeSeq s.free % 2 ^ s.cfg.seqW := rfl
@[simp] theorem trap_evt (e : Err) (s : State) : (trap e s).evt = s.evt := rfl
@[simp] theorem trap_diag (e : Err) (s : State) :
    (trap e s).diag = s.diag ++ [.errmsg e.code] := rfl
@[simp] theorem trap_resetPin (e : Err) (s : State) : (trap e s).resetPin = s.resetPin := rfl
@[simp] theorem trap_srcerrPin (e : Err) (s : State) : (trap e s).srcerrPin = s.srcerrPin := rfl
@[simp] theorem trap_source (e : Err) (s : State) : (trap e s).source = s.source := rfl
@[simp] theorem trap_wire (e : Err) (s : State) : (trap e s).wire = s.wire := rfl
@[simp] theorem trap_script (e : Err) (s : State) : (trap e s).script = s.script := rfl
@[simp] theorem trap_ans (e : Err) (s : State) : (trap e s).ans = s.ans := rfl
@[simp] theorem trap_result (e : Err) (s : State) : (trap e s).result = s.result := rfl
@[simp] theorem trap_free (e : Err) (s : State) : (trap e s).free = s.free + 1 := rfl

/-! ### resetBlock -/

@[simp] theorem resetBlock_cfg (s : State) : (resetBlock s).cfg = s.cfg := rfl
@[simp] theorem resetBlock_phase (s : State) : (resetBlock s).phase = .boot := rfl
@[simp] theorem resetBlock_err (s : State) : (resetBlock s).err = .none := rfl
@[simp] theorem resetBlock_bootcnt (s : State) : (resetBlock s).bootcnt = 0 := rfl
@[simp] theorem resetBlock_candv (s : State) : (resetBlock s).candv = false := rfl
@[simp] theorem resetBlock_cand (s : State) : (resetBlock s).cand = Config.freeCand s.free := rfl
@[simp] theorem resetBlock_n (s : State) : (resetBlock s).n = Config.freeN s.free := rfl
@[simp] theorem resetBlock_m (s : State) : (resetBlock s).m = Config.freeM s.free := rfl
@[simp] theorem resetBlock_buf (s : State) : (resetBlock s).buf = [] := rfl
@[simp] theorem resetBlock_len (s : State) : (resetBlock s).len = 0 := rfl
@[simp] theorem resetBlock_seq (s : State) : (resetBlock s).seq = 0 := rfl
@[simp] theorem resetBlock_evt (s : State) : (resetBlock s).evt = s.evt := rfl
@[simp] theorem resetBlock_diag (s : State) : (resetBlock s).diag = s.diag := rfl
@[simp] theorem resetBlock_resetPin (s : State) : (resetBlock s).resetPin = s.resetPin := rfl
@[simp] theorem resetBlock_srcerrPin (s : State) : (resetBlock s).srcerrPin = s.srcerrPin := rfl
@[simp] theorem resetBlock_source (s : State) : (resetBlock s).source = s.source := rfl
@[simp] theorem resetBlock_wire (s : State) : (resetBlock s).wire = s.wire := rfl
@[simp] theorem resetBlock_script (s : State) : (resetBlock s).script = s.script := rfl
@[simp] theorem resetBlock_ans (s : State) : (resetBlock s).ans = s.ans := rfl
@[simp] theorem resetBlock_result (s : State) : (resetBlock s).result = s.result := rfl
@[simp] theorem resetBlock_free (s : State) : (resetBlock s).free = s.free + 1 := rfl

/-! ### enterRun -/

@[simp] theorem enterRun_cfg (k : Nat) (s : State) : (enterRun k s).cfg = s.cfg := rfl
@[simp] theorem enterRun_phase (k : Nat) (s : State) : (enterRun k s).phase = .run := rfl
@[simp] theorem enterRun_err (k : Nat) (s : State) : (enterRun k s).err = s.err := rfl
@[simp] theorem enterRun_bootcnt (k : Nat) (s : State) : (enterRun k s).bootcnt = s.bootcnt := rfl
@[simp] theorem enterRun_candv (k : Nat) (s : State) : (enterRun k s).candv = s.candv := rfl
@[simp] theorem enterRun_cand (k : Nat) (s : State) : (enterRun k s).cand = s.cand := rfl
@[simp] theorem enterRun_n (k : Nat) (s : State) : (enterRun k s).n = BitVec.ofNat 4 k := rfl
@[simp] theorem enterRun_m (k : Nat) (s : State) : (enterRun k s).m = markerOf k := rfl
@[simp] theorem enterRun_buf (k : Nat) (s : State) : (enterRun k s).buf = s.buf := rfl
@[simp] theorem enterRun_len (k : Nat) (s : State) : (enterRun k s).len = s.len := rfl
@[simp] theorem enterRun_seq (k : Nat) (s : State) : (enterRun k s).seq = s.seq := rfl
@[simp] theorem enterRun_evt (k : Nat) (s : State) : (enterRun k s).evt = s.evt := rfl
@[simp] theorem enterRun_diag (k : Nat) (s : State) :
    (enterRun k s).diag = s.diag ++ [.nch (BitVec.ofNat 4 k)] := rfl
@[simp] theorem enterRun_resetPin (k : Nat) (s : State) :
    (enterRun k s).resetPin = s.resetPin := rfl
@[simp] theorem enterRun_srcerrPin (k : Nat) (s : State) :
    (enterRun k s).srcerrPin = s.srcerrPin := rfl
@[simp] theorem enterRun_source (k : Nat) (s : State) : (enterRun k s).source = s.source := rfl
@[simp] theorem enterRun_wire (k : Nat) (s : State) : (enterRun k s).wire = s.wire := rfl
@[simp] theorem enterRun_script (k : Nat) (s : State) : (enterRun k s).script = s.script := rfl
@[simp] theorem enterRun_ans (k : Nat) (s : State) : (enterRun k s).ans = s.ans := rfl
@[simp] theorem enterRun_result (k : Nat) (s : State) : (enterRun k s).result = s.result := rfl
@[simp] theorem enterRun_free (k : Nat) (s : State) : (enterRun k s).free = s.free := rfl

/-! ### holdByte -/

@[simp] theorem holdByte_cfg (b : Byte) (s : State) : (holdByte b s).cfg = s.cfg := rfl
@[simp] theorem holdByte_phase (b : Byte) (s : State) : (holdByte b s).phase = s.phase := rfl
@[simp] theorem holdByte_err (b : Byte) (s : State) : (holdByte b s).err = s.err := rfl
@[simp] theorem holdByte_bootcnt (b : Byte) (s : State) : (holdByte b s).bootcnt = s.bootcnt := rfl
@[simp] theorem holdByte_candv (b : Byte) (s : State) : (holdByte b s).candv = s.candv := rfl
@[simp] theorem holdByte_cand (b : Byte) (s : State) : (holdByte b s).cand = s.cand := rfl
@[simp] theorem holdByte_n (b : Byte) (s : State) : (holdByte b s).n = s.n := rfl
@[simp] theorem holdByte_m (b : Byte) (s : State) : (holdByte b s).m = s.m := rfl
@[simp] theorem holdByte_buf (b : Byte) (s : State) : (holdByte b s).buf = s.buf := rfl
@[simp] theorem holdByte_len (b : Byte) (s : State) : (holdByte b s).len = s.len := rfl
@[simp] theorem holdByte_seq (b : Byte) (s : State) : (holdByte b s).seq = s.seq := rfl
@[simp] theorem holdByte_evt (b : Byte) (s : State) : (holdByte b s).evt = s.evt := rfl
@[simp] theorem holdByte_diag (b : Byte) (s : State) : (holdByte b s).diag = s.diag := rfl
@[simp] theorem holdByte_resetPin (b : Byte) (s : State) :
    (holdByte b s).resetPin = s.resetPin := rfl
@[simp] theorem holdByte_srcerrPin (b : Byte) (s : State) :
    (holdByte b s).srcerrPin = s.srcerrPin := rfl
@[simp] theorem holdByte_source (b : Byte) (s : State) : (holdByte b s).source = s.source := rfl
@[simp] theorem holdByte_wire (b : Byte) (s : State) : (holdByte b s).wire = s.wire ++ [b] := rfl
@[simp] theorem holdByte_script (b : Byte) (s : State) : (holdByte b s).script = s.script := rfl
@[simp] theorem holdByte_ans (b : Byte) (s : State) : (holdByte b s).ans = s.ans := rfl
@[simp] theorem holdByte_result (b : Byte) (s : State) : (holdByte b s).result = s.result := rfl
@[simp] theorem holdByte_free (b : Byte) (s : State) : (holdByte b s).free = s.free := rfl

/-! ### The status ports -/

/-- Every value of `LEN`, `0..CAP`, fits the `LEN` port (10_state.md R20, R36). -/
theorem lt_two_pow_lenWidth (cap : Nat) : cap < 2 ^ lenWidth cap := Nat.lt_log2_self

end Sys2Proof.Machine
end

