-- ==== Sys2Proof/Laws/Ops.lean ====
section
/-! SUPPORT. One lemma for each shared operation: all it can answer, and, where the valid cells are
those below `LEN`, what it does to the bytes of the buffer. -/

namespace Sys2Proof.Machine

/-! ### Sequencing -/

@[simp] theorem Flow.go_andThen (s : State) (g : State → Flow) : (Flow.go s).andThen g = g s := rfl
@[simp] theorem Flow.raised_andThen (s : State) (g : State → Flow) :
    (Flow.raised s).andThen g = .raised s := rfl
@[simp] theorem Flow.stop_andThen (e : Fault) (g : State → Flow) :
    (Flow.stop e).andThen g = .stop e := rfl
@[simp] theorem Flow.go_outcome (s : State) : (Flow.go s).outcome = .next s := rfl
@[simp] theorem Flow.raised_outcome (s : State) : (Flow.raised s).outcome = .next s := rfl
@[simp] theorem Flow.stop_outcome (e : Fault) : (Flow.stop e).outcome = .fault e := rfl

theorem Flow.outcome_eq_next {f : Flow} {t : State} (h : f.outcome = .next t) :
    f = .go t ∨ f = .raised t := by
  cases f <;> simp_all [Flow.outcome]

theorem Flow.andThen_eq_go {f : Flow} {g : State → Flow} {t : State} (h : f.andThen g = .go t) :
    ∃ s, f = .go s ∧ g s = .go t := by
  cases f <;> simp_all [Flow.andThen]

theorem Flow.andThen_eq_raised {f : Flow} {g : State → Flow} {t : State}
    (h : f.andThen g = .raised t) : f = .raised t ∨ ∃ s, f = .go s ∧ g s = .raised t := by
  cases f <;> simp_all [Flow.andThen]

theorem inPhase_eq_next {p : Phase} {s t : State} {f : Flow} (h : inPhase p s f = .next t) :
    s.phase = p ∧ f.outcome = .next t := by
  unfold inPhase at h
  split at h
  · exact ⟨‹_›, h⟩
  · split at h <;> cases h

theorem whenCalled_eq_next {c : Prop} [Decidable c] {f : Flow} {t : State}
    (h : whenCalled c f = .next t) : c ∧ f.outcome = .next t := by
  unfold whenCalled at h
  split at h
  · exact ⟨‹_›, h⟩
  · cases h

theorem inPhase_of {p : Phase} {s : State} (f : Flow) (h : s.phase = p) :
    inPhase p s f = f.outcome := if_pos h

theorem whenCalled_of {c : Prop} [Decidable c] (f : Flow) (h : c) : whenCalled c f = f.outcome :=
  if_pos h

/-! ### Appending -/

/-- All `appendByte` can answer. -/
theorem appendByte_cases (d : Byte) (s : State) :
    (s.len < s.cfg.cap ∧ ∃ a, Appended d s a ∧ appendByte d s = .go a) ∨
    (s.cfg.cap ≤ s.len ∧ appendByte d s = .stop .indexOutsideBuffer) := by
  unfold appendByte
  split
  · refine .inl ⟨‹_›, _, ⟨?_, ?_, rfl, rfl⟩, rfl⟩
    · simp [Memory.read_write]
    · intro a ha; simp [Memory.read_write, ha]
  · exact .inr ⟨by omega, rfl⟩

/-- Appending to valid cells. -/
theorem appendByte_cells (d : Byte) (s : State) (hv : CellsValid s) (hl : s.len < s.cfg.cap) :
    appendByte d s =
      .go { s with buf := cellsFrom 0 (contents s ++ [d]), len := s.len + 1 } := by
  unfold appendByte
  rw [if_pos hl]
  have := write_cellsFrom 0 (contents s) d
  rw [hv.length, Nat.zero_add, ← hv.eq_cells] at this
  rw [this]

/-! ### Discarding -/

/-- `keepNewest` on valid cells drops the `k` oldest bytes. -/
theorem keepNewest_cells (k r : Nat) (s : State) (hv : CellsValid s) (hk : 1 ≤ k)
    (hr : k + r = s.len) :
    keepNewest k r s = .go { s with buf := cellsFrom 0 ((contents s).drop k), len := r } := by
  have hlen := hv.length
  have hsome : ∀ j, 0 ≤ j → j < 0 + r → (s.buf.read (j + k)).isSome = true := fun j _ hj => by
    rw [hv.read, Option.isSome_iff_exists]
    exact ⟨_, List.getElem?_eq_getElem (by omega)⟩
  obtain ⟨mem, hm, hread⟩ := moveDown_spec k r 0 s.buf hk hsome
  unfold keepNewest
  simp only [hm]
  have : mem.keepBelow r = cellsFrom 0 ((contents s).drop k) := by
    refine Memory.ext_read _ _ (Memory.wf_keepBelow _ _ (moveDown_wf _ _ _ _ _ hv.wf hm))
      (wf_cellsFrom _ _) fun i => ?_
    rw [Memory.read_keepBelow, read_cellsFrom, hread]
    by_cases hi : i < r
    · rw [if_pos hi, if_pos ⟨by omega, by omega⟩, hv.read, if_neg (by omega), List.getElem?_drop]
      congr 1; omega
    · rw [if_neg hi, if_neg (by omega), List.getElem?_eq_none]
      rw [List.length_drop]; omega
  rw [this]

/-- Whatever `keepNewest` answers, it changes nothing but the cells and `LEN`. -/
theorem keepNewest_eq_go {k r : Nat} {s t : State} (h : keepNewest k r s = .go t) :
    t = { s with buf := t.buf, len := r } := by
  unfold keepNewest at h
  split at h
  · cases h
  · cases h; rfl

theorem keepNewest_ne_raised {k r : Nat} {s t : State} : keepNewest k r s ≠ .raised t := by
  unfold keepNewest; split <;> simp

theorem discardFrame_eq_go {p : Nat} {s t : State} (h : discardFrame p s = .go t) :
    t = { s with buf := t.buf, len := t.len } ∧ t.len + (p + s.n.toNat + 1) = s.len := by
  unfold discardFrame at h
  split at h
  · have := keepNewest_eq_go h
    rw [this]
    exact ⟨rfl, by simp; omega⟩
  · cases h

theorem discardFrame_ne_raised {p : Nat} {s t : State} : discardFrame p s ≠ .raised t := by
  unfold discardFrame; split
  · exact keepNewest_ne_raised
  · simp

/-! ### Reading -/

theorem readRange_cells (s : State) (hv : CellsValid s) (i k : Nat) (h : i + k ≤ s.len) :
    readRange s i k = some (((contents s).drop i).take k) := by
  induction k generalizing i with
  | zero => simp [readRange]
  | succ k ih =>
    have hi : i < (contents s).length := by rw [hv.length]; omega
    simp only [readRange, hv.readBuf, List.getElem?_eq_getElem hi, ih (i + 1) (by omega)]
    rw [List.drop_eq_getElem_cons hi, List.take_succ_cons]

theorem readRange_length {s : State} {i k : Nat} {bs : List Byte} (h : readRange s i k = some bs) :
    bs.length = k := by
  induction k generalizing i bs with
  | zero => simp [readRange] at h; simp [h.symm]
  | succ k ih =>
    unfold readRange at h
    split at h
    · cases h
    · split at h
      · cases h
      · rename_i bs' hbs
        cases h
        simp [ih hbs]

theorem readRange_none (s : State) (i k j : Nat) (hj : i ≤ j) (hjk : j < i + k) (hl : s.len ≤ j) :
    readRange s i k = none := by
  induction k generalizing i with
  | zero => omega
  | succ k ih =>
    unfold readRange
    split
    · rfl
    · rename_i b hb
      by_cases hi : i = j
      · subst hi; simp [readBuf, show ¬ i < s.len by omega] at hb
      · rw [ih (i + 1) (by omega) (by omega)]

/-! ### SCAN -/

theorem scanBelow_cells (s : State) (hv : CellsValid s) (k : Nat) (hk : k ≤ s.len) :
    ∃ r, scanBelow s k = .ok r ∧
      (∀ p, r = some p → p < k ∧ readBuf s p = some s.m ∧
        ∀ q, q < k → readBuf s q = some s.m → q ≤ p) ∧
      (r = none → ∀ q, q < k → readBuf s q ≠ some s.m) := by
  induction k with
  | zero => exact ⟨none, rfl, by simp, by simp⟩
  | succ k ih =>
    have hi : k < (contents s).length := by rw [hv.length]; omega
    have hb : readBuf s k = some (contents s)[k] := by
      rw [hv.readBuf, List.getElem?_eq_getElem hi]
    simp only [scanBelow, hb]
    by_cases hm : (contents s)[k] = s.m
    · refine ⟨some k, by simp [hm], ?_, by simp⟩
      rintro p hp
      cases hp
      exact ⟨by omega, by rw [hb, hm], fun q hq _ => by omega⟩
    · obtain ⟨r, hr, h₁, h₂⟩ := ih (by omega)
      refine ⟨r, by simp [hm, hr], fun p hp => ?_, fun hn q hq hqm => ?_⟩
      · obtain ⟨a, b, c⟩ := h₁ p hp
        refine ⟨by omega, b, fun q hq hqm => ?_⟩
        by_cases hqk : q = k
        · subst hqk; rw [hb] at hqm; exact absurd (Option.some.inj hqm) hm
        · exact c q (by omega) hqm
      · by_cases hqk : q = k
        · subst hqk; rw [hb] at hqm; exact absurd (Option.some.inj hqm) hm
        · exact h₂ hn q (by omega) hqm

/-- SCAN on valid cells returns the largest qualifying position, or none when there is none
(41_synchronizer.md R125). -/
theorem scanBuf_cells (s : State) (hv : CellsValid s) :
    ∃ r, scanBuf s = .ok r ∧ (∀ p, r = some p → Qualifies s p ∧ ∀ q, Qualifies s q → q ≤ p) ∧
      (r = none → ∀ q, ¬ Qualifies s q) := by
  obtain ⟨r, hr, h₁, h₂⟩ := scanBelow_cells s hv (s.len - s.n.toNat) (by omega)
  refine ⟨r, hr, fun p hp => ?_, fun hn q hq => h₂ hn q (by have := hq.1; omega) hq.2⟩
  obtain ⟨a, b, c⟩ := h₁ p hp
  exact ⟨⟨by omega, b⟩, fun q hq => c q (by have := hq.1; omega) hq.2⟩

/-- The two answers of SCAN on valid cells, told from the qualifying positions. -/
theorem scanBuf_eq_none (s : State) (hv : CellsValid s) (h : ∀ p, ¬ Qualifies s p) :
    scanBuf s = .ok none := by
  obtain ⟨r, hr, h₁, -⟩ := scanBuf_cells s hv
  cases r with
  | none => exact hr
  | some p => exact absurd (h₁ p rfl).1 (h p)

theorem scanBuf_eq_some (s : State) (hv : CellsValid s) (p : Nat) (hp : Qualifies s p)
    (hmax : ∀ q, Qualifies s q → q ≤ p) : scanBuf s = .ok (some p) := by
  obtain ⟨r, hr, h₁, h₂⟩ := scanBuf_cells s hv
  cases r with
  | none => exact absurd hp (h₂ rfl p)
  | some q =>
    have := hmax q (h₁ q rfl).1
    have := (h₁ q rfl).2 p hp
    rw [hr, show q = p by omega]

/-! ### EMIT and SAMPLE -/

/-- All EMIT can answer (42_decoder.md R153). -/
theorem emitBatch_cases (batch : List Byte) (s : State) :
    (s.cfg.testmode = true ∧ emitBatch batch s = .go s) ∨
    (s.cfg.testmode = false ∧ s.ans = .ok ∧
      emitBatch batch s = .go (emitEvt (batchEvents batch) s)) ∨
    (∃ k, s.cfg.testmode = false ∧ s.ans = .failAt k ∧
      emitBatch batch s = .raised (trap .sinkWriteError (emitEvt (acceptedEvents batch k) s))) ∨
    (s.cfg.testmode = false ∧ s.ans = .never ∧ emitBatch batch s = .stop .sinkNeverAnswers) := by
  unfold emitBatch
  cases ht : s.cfg.testmode <;> cases ha : s.ans <;> simp

/-- Whatever SAMPLE answers, it changes nothing but `SEQ` and the DIAG trace. -/
theorem sampleFrame_eq_go {p : Nat} {s t : State} (h : sampleFrame p s = .go t) :
    t = { s with seq := nextSeq s, diag := t.diag } := by
  unfold sampleFrame at h
  split at h
  · split at h
    · cases h
    · cases h; rfl
  · cases h; rfl

theorem sampleFrame_ne_raised {p : Nat} {s t : State} : sampleFrame p s ≠ .raised t := by
  unfold sampleFrame; repeat' split
  all_goals simp

/-- SAMPLE of a whole frame on valid cells (43_diagnostics.md R166). -/
theorem sampleFrame_cells (p : Nat) (s : State) (hv : CellsValid s)
    (hp : p + s.n.toNat + 1 ≤ s.len) :
    sampleFrame p s = .go { s with
      seq := nextSeq s
      diag := s.diag ++ if reportDue s.cfg.p (nextSeq s) then
        [.frame (nextSeq s) (((contents s).drop p).take (s.n.toNat + 1))] else [] } := by
  unfold sampleFrame
  rw [readRange_cells s hv p (s.n.toNat + 1) (by omega)]
  cases reportDue s.cfg.p (nextSeq s) <;> simp [emitDiag]

/-! ### CYCLEEND -/

/-- What one CYCLEEND that goes on does to a state: it found no frame and changed at most the cells
and `LEN`, or it processed one frame (41_synchronizer.md R124). -/
structure Processed (batch : List Byte) (s t : State) : Prop where
  count : batch.length = s.n.toNat
  answer : s.cfg.testmode = true ∨ s.ans = .ok
  state : t = { s with
    buf := t.buf
    len := t.len
    seq := nextSeq s
    evt := s.evt ++ if s.cfg.testmode then [] else batchEvents batch
    diag := t.diag }

theorem processFrame_eq_go {p : Nat} {s t : State} (h : processFrame p s = .go t) :
    ∃ batch, Processed batch s t := by
  unfold processFrame at h
  split at h
  · cases h
  · rename_i batch hb
    obtain ⟨s₁, h₁, h⟩ := Flow.andThen_eq_go h
    obtain ⟨s₂, h₂, h₃⟩ := Flow.andThen_eq_go h
    have e₂ := sampleFrame_eq_go h₂
    have e₃ := (discardFrame_eq_go h₃).1
    refine ⟨batch, readRange_length hb, ?_, ?_⟩
    · rcases emitBatch_cases batch s with ⟨ht, -⟩ | ⟨-, ha, -⟩ | ⟨k, -, -, e⟩ | ⟨-, -, e⟩
      · exact .inl ht
      · exact .inr ha
      · rw [e] at h₁; cases h₁
      · rw [e] at h₁; cases h₁
    · rcases emitBatch_cases batch s with ⟨ht, e⟩ | ⟨ht, -, e⟩ | ⟨k, -, -, e⟩ | ⟨-, -, e⟩
      · rw [e] at h₁; cases h₁
        rw [e₃, e₂]; simp [ht]
      · rw [e] at h₁; cases h₁
        rw [e₃, e₂]; simp [ht, emitEvt, nextSeq]
      · rw [e] at h₁; cases h₁
      · rw [e] at h₁; cases h₁

/-- What a raise inside CYCLEEND leaves: the sink failed (60_exceptions.md R204). -/
structure SinkFailed (batch : List Byte) (k : Nat) (s t : State) : Prop where
  count : batch.length = s.n.toNat
  testmode : s.cfg.testmode = false
  answer : s.ans = .failAt k
  state : t = trap .sinkWriteError (emitEvt (acceptedEvents batch k) s)

theorem processFrame_eq_raised {p : Nat} {s t : State} (h : processFrame p s = .raised t) :
    ∃ batch k, SinkFailed batch k s t := by
  unfold processFrame at h
  split at h
  · cases h
  · rename_i batch hb
    rcases Flow.andThen_eq_raised h with h | ⟨s₁, -, h⟩
    · rcases emitBatch_cases batch s with ⟨-, e⟩ | ⟨-, -, e⟩ | ⟨k, ht, ha, e⟩ | ⟨-, -, e⟩
      · rw [e] at h; cases h
      · rw [e] at h; cases h
      · rw [e] at h; cases h; exact ⟨batch, k, readRange_length hb, ht, ha, rfl⟩
      · rw [e] at h; cases h
    · rcases Flow.andThen_eq_raised h with h | ⟨s₂, -, h⟩
      · exact absurd h sampleFrame_ne_raised
      · exact absurd h discardFrame_ne_raised

/-- All CYCLEEND can do when it goes on. -/
theorem cycleEnd_eq_go {s t : State} (h : cycleEnd s = .go t) :
    t = { s with buf := t.buf, len := t.len } ∨ ∃ batch, Processed batch s t := by
  unfold cycleEnd at h
  split at h
  · cases h
  · exact .inr (processFrame_eq_go h)
  · split at h
    · exact .inl (by have := keepNewest_eq_go h; rw [this])
    · cases h; exact .inl rfl

/-- All CYCLEEND can do when it raises. -/
theorem cycleEnd_eq_raised {s t : State} (h : cycleEnd s = .raised t) :
    ∃ batch k, SinkFailed batch k s t := by
  unfold cycleEnd at h
  split at h
  · cases h
  · exact processFrame_eq_raised h
  · split at h
    · exact absurd h keepNewest_ne_raised
    · cases h

/-! CYCLEEND on valid cells. -/

theorem overflowRecovery_cells (s : State) (hv : CellsValid s) (hfull : s.len = s.cfg.cap)
    (hcap : 30 ≤ s.cfg.cap) :
    overflowRecovery s = .go { s with
      buf := cellsFrom 0 ((contents s).drop (s.cfg.cap / 2))
      len := s.cfg.cap - s.cfg.cap / 2 } :=
  keepNewest_cells _ _ s hv (by omega) (by omega)

theorem discardFrame_cells (p : Nat) (s : State) (hv : CellsValid s)
    (hp : p + s.n.toNat + 1 ≤ s.len) :
    discardFrame p s = .go { s with
      buf := cellsFrom 0 ((contents s).drop (p + s.n.toNat + 1))
      len := s.len - (p + s.n.toNat + 1) } := by
  unfold discardFrame
  rw [if_pos hp]
  exact keepNewest_cells _ _ s hv (by omega) (by omega)

/-- The batch of the frame at `p` (42_decoder.md R151). -/
def batchAt (s : State) (p : Nat) : List Byte := ((contents s).drop (p + 1)).take s.n.toNat

theorem decodeBatch_cells (p : Nat) (s : State) (hv : CellsValid s)
    (hp : p + s.n.toNat + 1 ≤ s.len) : decodeBatch p s = some (batchAt s p) :=
  readRange_cells s hv (p + 1) s.n.toNat (by omega)

theorem batchAt_length (s : State) (p : Nat) (hv : CellsValid s) (hp : p + s.n.toNat + 1 ≤ s.len) :
    (batchAt s p).length = s.n.toNat := by
  simp [batchAt, hv.length]; omega

/-- The state after a frame at `p` was processed and its batch accepted, or not asked for. -/
def afterFrame (s : State) (p : Nat) : State :=
  { s with
    buf := cellsFrom 0 ((contents s).drop (p + s.n.toNat + 1))
    len := s.len - (p + s.n.toNat + 1)
    seq := nextSeq s
    evt := s.evt ++ if s.cfg.testmode then [] else batchEvents (batchAt s p)
    diag := s.diag ++ if reportDue s.cfg.p (nextSeq s) then
        [.frame (nextSeq s) (((contents s).drop p).take (s.n.toNat + 1))] else [] }

/-- All the processing of a frame at `p` can answer on valid cells. -/
theorem processFrame_cells (p : Nat) (s : State) (hv : CellsValid s)
    (hp : p + s.n.toNat + 1 ≤ s.len) :
    ((s.cfg.testmode = true ∨ s.ans = .ok) ∧ processFrame p s = .go (afterFrame s p)) ∨
    (∃ k, s.cfg.testmode = false ∧ s.ans = .failAt k ∧ processFrame p s =
      .raised (trap .sinkWriteError (emitEvt (acceptedEvents (batchAt s p) k) s))) ∨
    (s.cfg.testmode = false ∧ s.ans = .never ∧ processFrame p s = .stop .sinkNeverAnswers) := by
  unfold processFrame
  simp only [decodeBatch_cells p s hv hp]
  rcases emitBatch_cases (batchAt s p) s with ⟨ht, e⟩ | ⟨ht, ha, e⟩ | ⟨k, ht, ha, e⟩ | ⟨ht, ha, e⟩
  · refine .inl ⟨.inl ht, ?_⟩
    rw [e, Flow.go_andThen, sampleFrame_cells p s hv hp, Flow.go_andThen]
    refine (discardFrame_cells p _ ?_ ?_).trans ?_
    · exact hv
    · exact hp
    · simp [afterFrame, contents, ht]
  · refine .inl ⟨.inr ha, ?_⟩
    rw [e, Flow.go_andThen,
      sampleFrame_cells p (emitEvt (batchEvents (batchAt s p)) s) hv hp, Flow.go_andThen]
    refine (discardFrame_cells p _ ?_ ?_).trans ?_
    · exact hv
    · exact hp
    · simp [afterFrame, contents, ht, emitEvt, nextSeq]
      rfl
  · exact .inr (.inl ⟨k, ht, ha, by rw [e]; rfl⟩)
  · exact .inr (.inr ⟨ht, ha, by rw [e]; rfl⟩)

theorem cycleEnd_of_none {s : State} (h : scanBuf s = .ok none) :
    cycleEnd s = if s.len = s.cfg.cap then overflowRecovery s else .go s := by
  unfold cycleEnd; simp only [h]

theorem cycleEnd_of_some {s : State} {p : Nat} (h : scanBuf s = .ok (some p)) :
    cycleEnd s = processFrame p s := by
  unfold cycleEnd; simp only [h]

end Sys2Proof.Machine
end

