-- ==== Sys2Proof/Laws/Step.lean ====
section
/-! SUPPORT. What a step can do, said once: the environment's gap, the event taken, the operation
run; and what each operation of the block can answer. -/

namespace Sys2Proof.Machine

/-! ### The gap -/

/-- Two states that differ at most in the environment's pins and queues. -/
def SameButQueues (s t : State) : Prop :=
  t = { s with resetPin := t.resetPin, srcerrPin := t.srcerrPin, source := t.source,
               wire := t.wire, script := t.script }

theorem SameButQueues.refl (s : State) : SameButQueues s s := rfl

theorem SameButQueues.trans {s t u : State} (h₁ : SameButQueues s t) (h₂ : SameButQueues t u) :
    SameButQueues s u := by
  unfold SameButQueues at *
  rw [h₂, h₁]

theorem apply_sameButQueues (a : EnvAction) (s : State) : SameButQueues s (a.apply s) := by
  cases a with
  | scriptBeat o =>
    simp only [EnvAction.apply]
    split
    · exact .refl s
    · rfl
  | _ => rfl

theorem applyAll_sameButQueues (acts : List EnvAction) (s : State) :
    SameButQueues s (applyAll acts s) := by
  induction acts generalizing s with
  | nil => exact .refl s
  | cons a rest ih => exact (apply_sameButQueues a s).trans (ih _)

/-- The environment's gap touches nothing but its own pins and queues. -/
theorem arrive_sameButQueues (s : State) : SameButQueues s (arrive s) := by
  unfold arrive
  split
  · exact .refl s
  · exact SameButQueues.trans (t := { s with script := _ }) rfl (applyAll_sameButQueues _ _)

@[simp] theorem arrive_cfg (s : State) : (arrive s).cfg = s.cfg := by rw [arrive_sameButQueues s]
@[simp] theorem arrive_phase (s : State) : (arrive s).phase = s.phase := by
  rw [arrive_sameButQueues s]
@[simp] theorem arrive_err (s : State) : (arrive s).err = s.err := by rw [arrive_sameButQueues s]
@[simp] theorem arrive_bootcnt (s : State) : (arrive s).bootcnt = s.bootcnt := by
  rw [arrive_sameButQueues s]
@[simp] theorem arrive_candv (s : State) : (arrive s).candv = s.candv := by
  rw [arrive_sameButQueues s]
@[simp] theorem arrive_cand (s : State) : (arrive s).cand = s.cand := by
  rw [arrive_sameButQueues s]
@[simp] theorem arrive_n (s : State) : (arrive s).n = s.n := by rw [arrive_sameButQueues s]
@[simp] theorem arrive_m (s : State) : (arrive s).m = s.m := by rw [arrive_sameButQueues s]
@[simp] theorem arrive_buf (s : State) : (arrive s).buf = s.buf := by rw [arrive_sameButQueues s]
@[simp] theorem arrive_len (s : State) : (arrive s).len = s.len := by rw [arrive_sameButQueues s]
@[simp] theorem arrive_seq (s : State) : (arrive s).seq = s.seq := by rw [arrive_sameButQueues s]
@[simp] theorem arrive_evt (s : State) : (arrive s).evt = s.evt := by rw [arrive_sameButQueues s]
@[simp] theorem arrive_diag (s : State) : (arrive s).diag = s.diag := by
  rw [arrive_sameButQueues s]
@[simp] theorem arrive_ans (s : State) : (arrive s).ans = s.ans := by rw [arrive_sameButQueues s]
@[simp] theorem arrive_result (s : State) : (arrive s).result = s.result := by
  rw [arrive_sameButQueues s]
@[simp] theorem arrive_free (s : State) : (arrive s).free = s.free := by
  rw [arrive_sameButQueues s]

/-- With an empty script nothing happens in the gap. -/
theorem arrive_of_script_nil {s : State} (h : s.script = []) : arrive s = s := by
  unfold arrive; simp [h]

/-! ### The event taken -/

/-- The state in which the operation of the beat `o` runs. -/
def takeBeat (o : Offer) (rest : List Offer) (a : State) : State :=
  { a with source := rest, ans := o.ans }

/-- All a step can be (60_exceptions.md R212, 44_system.md R180). -/
inductive StepKind (s a : State) : Prop
  | reset (h : a.resetPin = true)
      (eq : step s = exec .reset { a with resetPin := false, srcerrPin := false })
  | srcerr (h₁ : a.resetPin = false) (h₂ : a.srcerrPin = true)
      (eq : step s = exec .srcerr { a with srcerrPin := false })
  | bootBeat (h₁ : a.resetPin = false) (h₂ : a.srcerrPin = false) (hp : a.phase = .boot)
      (o : Offer) (rest : List Offer) (hs : a.source = o :: rest)
      (eq : step s = exec (decodeBoot o.word) (takeBeat o rest a))
  | runBeat (h₁ : a.resetPin = false) (h₂ : a.srcerrPin = false) (hp : a.phase = .run)
      (o : Offer) (rest : List Offer) (hs : a.source = o :: rest)
      (eq : step s = exec (decodeRun o.word) (takeBeat o rest a))
  | wait (h₁ : a.resetPin = false) (h₂ : a.srcerrPin = false)
      (h₃ : a.source = [] ∨ a.phase = .fail) (eq : step s = .next a)

theorem step_kind (s : State) : StepKind s (arrive s) := by
  cases h₁ : (arrive s).resetPin with
  | true => exact .reset h₁ (by simp [step, fetch, h₁, decode, accept])
  | false =>
    cases h₂ : (arrive s).srcerrPin with
    | true => exact .srcerr h₁ h₂ (by simp [step, fetch, h₁, h₂, decode, accept])
    | false =>
      cases h₃ : (arrive s).source with
      | nil => exact .wait h₁ h₂ (.inl h₃) (by simp [step, fetch, h₁, h₂, h₃])
      | cons o rest =>
        cases h₄ : (arrive s).phase with
        | boot =>
          refine .bootBeat h₁ h₂ h₄ o rest h₃ ?_
          have h₄' : s.phase = .boot := by simpa using h₄
          simp [step, fetch, h₁, h₂, h₃, h₄', decode, accept, takeBeat]
        | run =>
          refine .runBeat h₁ h₂ h₄ o rest h₃ ?_
          have h₄' : s.phase = .run := by simpa using h₄
          simp [step, fetch, h₁, h₂, h₃, h₄', decode, accept, takeBeat]
        | fail =>
          refine .wait h₁ h₂ (.inr h₄) ?_
          have h₄' : s.phase = .fail := by simpa using h₄
          simp [step, fetch, h₁, h₂, h₃, h₄']

/-- A quiet state with a beat offered in phase BOOT. -/
theorem step_boot {s : State} {o : Offer} {rest : List Offer} (hq : Quiet s) (hp : s.phase = .boot)
    (hs : s.source = o :: rest) : step s = exec (decodeBoot o.word) (takeBeat o rest s) := by
  simp [step, fetch, arrive_of_script_nil hq.1, hq.2.1, hq.2.2, hs, hp, decode, accept, takeBeat]

/-- A quiet state with a beat offered in phase RUN. -/
theorem step_run {s : State} {o : Offer} {rest : List Offer} (hq : Quiet s) (hp : s.phase = .run)
    (hs : s.source = o :: rest) : step s = exec (decodeRun o.word) (takeBeat o rest s) := by
  simp [step, fetch, arrive_of_script_nil hq.1, hq.2.1, hq.2.2, hs, hp, decode, accept, takeBeat]

/-! ### The operations of the block -/

/-- All BOOTCLOSE can do (40_bootstrap.md R104). -/
theorem bootClose_cases (s : State) :
    ((s.candv = false ∨ s.cand.toNat ≤ 1) ∧ bootClose s = .raised (trap .syncNotFound s)) ∨
    ((s.candv = true ∧ 2 ≤ s.cand.toNat) ∧
      bootClose s = .go (enterRun (s.cand.toNat - 1) s)) := by
  unfold bootClose channelCount
  cases hv : s.candv with
  | false => exact .inl ⟨.inl rfl, by simp⟩
  | true =>
    by_cases hc : s.cand.toNat ≤ 1
    · refine .inl ⟨.inr hc, ?_⟩
      rw [if_neg (by simp), if_pos (by omega)]
    · refine .inr ⟨⟨rfl, by omega⟩, ?_⟩
      rw [if_neg (by simp), if_neg (by omega)]
      congr 2; omega

/-- All a beat of phase BOOT can do (40_bootstrap.md R102, R103): `b` is the state with the
candidate recorded, if the byte is one. -/
theorem countBootByte_cases (b : State) :
    (b.bootcnt + 1 ≠ b.cfg.w ∧ countBootByte b = .go { b with bootcnt := b.bootcnt + 1 }) ∨
    (b.bootcnt + 1 = b.cfg.w ∧ (b.candv = false ∨ b.cand.toNat ≤ 1) ∧
      countBootByte b = .raised (trap .syncNotFound { b with bootcnt := b.bootcnt + 1 })) ∨
    (b.bootcnt + 1 = b.cfg.w ∧ b.candv = true ∧ 2 ≤ b.cand.toNat ∧
      countBootByte b = .go (enterRun (b.cand.toNat - 1) { b with bootcnt := b.bootcnt + 1 })) := by
  unfold countBootByte
  by_cases h : b.bootcnt + 1 = b.cfg.w
  · rw [if_pos h]
    rcases bootClose_cases { b with bootcnt := b.bootcnt + 1 } with ⟨hc, e⟩ | ⟨hc, e⟩
    · exact .inr (.inl ⟨h, hc, e⟩)
    · exact .inr (.inr ⟨h, hc.1, hc.2, e⟩)
  · rw [if_neg h]; exact .inl ⟨h, rfl⟩

/-- The state with the candidate recorded, if the beat's byte is one. -/
def noteCandidate (w : BeatWord) (s : State) : State :=
  if isCandidate (beatData w) then { s with candv := true, cand := loNibble (beatData w) } else s

theorem exec_decodeBoot (w : BeatWord) (s : State) (hp : s.phase = .boot) :
    exec (decodeBoot w) s = (countBootByte (noteCandidate w s)).outcome := by
  unfold decodeBoot noteCandidate
  split
  · exact inPhase_of _ hp
  · exact inPhase_of _ hp

/-- The flow of a beat of phase RUN: append, then CYCLEEND at `last = 1` or when the buffer is full
(30_encoding.md R82). -/
def beatFlow (last : Bool) (d : Byte) (s : State) : Flow :=
  (appendByte d s).andThen fun a => if last ∨ a.len = a.cfg.cap then cycleEnd a else .go a

theorem exec_decodeRun (w : BeatWord) (s : State) (hp : s.phase = .run) :
    exec (decodeRun w) s = (beatFlow (beatLast w) (beatData w) s).outcome := by
  unfold decodeRun beatFlow
  cases beatLast w with
  | true =>
    simp [exec, execPushl, inPhase_of _ hp]
  | false => simp [exec, execPush, inPhase_of _ hp]

/-- All a beat of phase RUN can do. -/
theorem beatFlow_cases (last : Bool) (d : Byte) (s : State) :
    (s.cfg.cap ≤ s.len ∧ beatFlow last d s = .stop .indexOutsideBuffer) ∨
    ∃ a, Appended d s a ∧ s.len < s.cfg.cap ∧ appendByte d s = .go a ∧
      beatFlow last d s = if last ∨ a.len = a.cfg.cap then cycleEnd a else .go a := by
  unfold beatFlow
  rcases appendByte_cases d s with ⟨hl, a, ha, e⟩ | ⟨hl, e⟩
  · exact .inr ⟨a, ha, hl, e, by rw [e]; rfl⟩
  · exact .inl ⟨hl, by rw [e]; rfl⟩

/-- A beat of phase RUN that goes on: what it did to the state. -/
theorem beatFlow_eq_go {last : Bool} {d : Byte} {s t : State} (h : beatFlow last d s = .go t) :
    t = { s with buf := t.buf, len := t.len } ∨ ∃ batch, Processed batch s t := by
  rcases beatFlow_cases last d s with ⟨-, e⟩ | ⟨a, ha, -, -, e⟩
  · rw [e] at h; cases h
  · rw [e] at h
    have hrest := ha.rest
    split at h
    · rcases cycleEnd_eq_go h with h | ⟨batch, hc, hans, hst⟩
      · left; rw [h, hrest]
      · right
        refine ⟨batch, ?_, ?_, ?_⟩
        · rw [hrest] at hc; exact hc
        · rw [hrest] at hans; exact hans
        · rw [hst, hrest]; rfl
    · cases h; left; exact hrest

/-- A beat of phase RUN that raises: the sink failed. -/
theorem beatFlow_eq_raised {last : Bool} {d : Byte} {s t : State}
    (h : beatFlow last d s = .raised t) :
    ∃ batch k, batch.length = s.n.toNat ∧ s.cfg.testmode = false ∧ s.ans = .failAt k ∧
      ∃ a, a = { s with buf := a.buf, len := a.len } ∧
        t = trap .sinkWriteError (emitEvt (acceptedEvents batch k) a) := by
  rcases beatFlow_cases last d s with ⟨-, e⟩ | ⟨a, ha, -, -, e⟩
  · rw [e] at h; cases h
  · rw [e] at h
    have hrest := ha.rest
    split at h
    · obtain ⟨batch, k, hc, ht, ha', hst⟩ := cycleEnd_eq_raised h
      rw [hrest] at hc ht ha'
      exact ⟨batch, k, hc, ht, ha', a, hrest, hst⟩
    · cases h

end Sys2Proof.Machine
end

