-- ==== Sys2Proof/Laws/Cycle.lean ====
section
/-! SUPPORT. The read cycle on valid cells: what CYCLEEND does to the bytes of the buffer, and what
a beat of phase RUN does. -/

namespace Sys2Proof.Machine

theorem qualifies_iff {s : State} (hv : CellsValid s) (p : Nat) :
    Qualifies s p ↔ p + s.n.toNat + 1 ≤ s.len ∧ (contents s)[p]? = some s.m := by
  unfold Qualifies; rw [hv.readBuf]

/-- A state that keeps the bytes from `k` on: its buffer and `LEN`. -/
def dropBytes (k : Nat) (s : State) : State :=
  { s with buf := cellsFrom 0 ((contents s).drop k), len := s.len - k }

theorem dropBytes_cells (k : Nat) (s : State) (hv : CellsValid s) :
    CellsValid (dropBytes k s) ∧ contents (dropBytes k s) = (contents s).drop k :=
  cellsValid_of_eq _ rfl (by simp [dropBytes, hv.length])

/-- A qualifying position of what is kept was one before (41_synchronizer.md R134). -/
theorem qualifies_of_dropped {s t : State} (k : Nat) (hv : CellsValid s) (hvt : CellsValid t)
    (hn : t.n = s.n) (hm : t.m = s.m) (hl : t.len + k = s.len)
    (hc : contents t = (contents s).drop k) {q : Nat} (hq : Qualifies t q) :
    Qualifies s (q + k) := by
  rw [qualifies_iff hvt, hn, hm, hc, List.getElem?_drop] at hq
  rw [qualifies_iff hv]
  exact ⟨by omega, by rw [Nat.add_comm]; exact hq.2⟩

/-! ### CYCLEEND -/

theorem afterFrame_cells (s : State) (p : Nat) (hv : CellsValid s) :
    CellsValid (afterFrame s p) ∧
      contents (afterFrame s p) = (contents s).drop (p + s.n.toNat + 1) :=
  cellsValid_of_eq _ rfl (by simp [afterFrame, hv.length])

/-- All CYCLEEND can answer in mid-operation (41_synchronizer.md R124). -/
inductive CycleKind (s : State) : Prop
  | wait (h : ∀ p, ¬ Qualifies s p) (hl : s.len ≠ s.cfg.cap) (eq : cycleEnd s = .go s)
  | overflow (h : ∀ p, ¬ Qualifies s p) (hl : s.len = s.cfg.cap)
      (eq : cycleEnd s = .go (dropBytes (s.cfg.cap / 2) s))
  | frame (p : Nat) (h : Qualifies s p) (hmax : ∀ q, Qualifies s q → q ≤ p)
      (ha : s.cfg.testmode = true ∨ s.ans = .ok) (eq : cycleEnd s = .go (afterFrame s p))
  | sinkFails (p : Nat) (h : Qualifies s p) (hmax : ∀ q, Qualifies s q → q ≤ p) (k : Nat)
      (ht : s.cfg.testmode = false) (ha : s.ans = .failAt k) (eq : cycleEnd s =
        .raised (trap .sinkWriteError (emitEvt (acceptedEvents (batchAt s p) k) s)))
  | sinkSilent (p : Nat) (h : Qualifies s p) (hmax : ∀ q, Qualifies s q → q ≤ p)
      (ht : s.cfg.testmode = false) (ha : s.ans = .never)
      (eq : cycleEnd s = .stop .sinkNeverAnswers)

theorem cycle_kind (s : State) (hv : CellsValid s) (hcap : 30 ≤ s.cfg.cap) : CycleKind s := by
  obtain ⟨r, hr, h₁, h₂⟩ := scanBuf_cells s hv
  cases r with
  | none =>
    have h := h₂ rfl
    by_cases hl : s.len = s.cfg.cap
    · refine .overflow h hl ?_
      rw [cycleEnd_of_none hr, if_pos hl, overflowRecovery_cells s hv hl hcap, ← hl]; rfl
    · exact .wait h hl (by rw [cycleEnd_of_none hr, if_neg hl])
  | some p =>
    obtain ⟨h, hmax⟩ := h₁ p rfl
    have e := cycleEnd_of_some hr
    rcases processFrame_cells p s hv h.1 with ⟨ha, e'⟩ | ⟨k, ht, ha, e'⟩ | ⟨ht, ha, e'⟩
    · exact .frame p h hmax ha (e.trans e')
    · exact .sinkFails p h hmax k ht ha (e.trans e')
    · exact .sinkSilent p h hmax ht ha (e.trans e')

/-- After a CYCLEEND that goes on: valid cells that are a suffix of the old ones, no qualifying
position, not full (41_synchronizer.md R134, R135). -/
theorem cycleEnd_go_spec {s t : State} (hv : CellsValid s) (hcap : 30 ≤ s.cfg.cap)
    (hle : s.len ≤ s.cfg.cap) (h : cycleEnd s = .go t) :
    CellsValid t ∧ contents t <:+ contents s ∧ t.len < s.cfg.cap ∧ (∀ p, ¬ Qualifies t p) ∧
      t.phase = s.phase ∧ t.n = s.n ∧ t.m = s.m ∧ t.cfg = s.cfg ∧ t.err = s.err ∧
      (t.seq = s.seq ∨ t.seq = nextSeq s) ∧ t.result = s.result := by
  cases cycle_kind s hv hcap with
  | wait hn hl eq =>
    rw [eq] at h; cases h
    exact ⟨hv, List.suffix_rfl, by omega, hn, rfl, rfl, rfl, rfl, rfl, .inl rfl, rfl⟩
  | overflow hn hl eq =>
    rw [eq] at h; cases h
    obtain ⟨hv', hc⟩ := dropBytes_cells (s.cfg.cap / 2) s hv
    refine ⟨hv', hc ▸ List.drop_suffix _ _, by simp [dropBytes]; omega, fun p hp => ?_,
      rfl, rfl, rfl, rfl, rfl, .inl rfl, rfl⟩
    exact hn _ (qualifies_of_dropped (t := dropBytes (s.cfg.cap / 2) s) _ hv hv' rfl rfl
      (by simp [dropBytes]; omega) hc hp)
  | frame p hq hmax ha eq =>
    rw [eq] at h; cases h
    obtain ⟨hv', hc⟩ := afterFrame_cells s p hv
    have hp := hq.1
    refine ⟨hv', hc ▸ List.drop_suffix _ _, by simp [afterFrame]; omega, fun q hq' => ?_,
      rfl, rfl, rfl, rfl, rfl, .inr rfl, rfl⟩
    have := hmax _ (qualifies_of_dropped (t := afterFrame s p) _ hv hv' rfl rfl
      (by simp [afterFrame]; omega) hc hq')
    omega
  | sinkFails p hq hmax k ht ha eq => rw [eq] at h; cases h
  | sinkSilent p hq hmax ht ha eq => rw [eq] at h; cases h

/-! ### A beat of phase RUN -/

/-- The state with `d` appended to valid cells. -/
def pushed (d : Byte) (s : State) : State :=
  { s with buf := cellsFrom 0 (contents s ++ [d]), len := s.len + 1 }

theorem pushed_cells (d : Byte) (s : State) (hv : CellsValid s) :
    CellsValid (pushed d s) ∧ contents (pushed d s) = contents s ++ [d] :=
  cellsValid_of_eq _ rfl (by simp [pushed, hv.length])

theorem beatFlow_cells (last : Bool) (d : Byte) (s : State) (hv : CellsValid s)
    (hl : s.len < s.cfg.cap) :
    beatFlow last d s =
      if last ∨ s.len + 1 = s.cfg.cap then cycleEnd (pushed d s) else .go (pushed d s) := by
  unfold beatFlow
  rw [appendByte_cells d s hv hl]
  rfl

/-- What a beat of phase RUN that goes on leaves: valid cells that are a suffix of the old ones and
the new byte, a buffer that is not full and, when a CYCLEEND had to run, no qualifying position. -/
theorem beatFlow_go_spec {last : Bool} {d : Byte} {s t : State} (hv : CellsValid s)
    (hcap : 30 ≤ s.cfg.cap) (hl : s.len < s.cfg.cap) (h : beatFlow last d s = .go t) :
    CellsValid t ∧ contents t <:+ contents s ++ [d] ∧ t.len < s.cfg.cap ∧
      t.phase = s.phase ∧ t.n = s.n ∧ t.m = s.m ∧ t.cfg = s.cfg ∧ t.err = s.err ∧
      (t.seq = s.seq ∨ t.seq = nextSeq s) ∧ t.result = s.result ∧
      (last = true ∨ s.len + 1 = s.cfg.cap → ∀ p, ¬ Qualifies t p) := by
  rw [beatFlow_cells last d s hv hl] at h
  obtain ⟨hv', hc⟩ := pushed_cells d s hv
  split at h
  · obtain ⟨a, b, c, e, f⟩ := cycleEnd_go_spec hv' hcap (show s.len + 1 ≤ _ by exact hl) h
    exact ⟨a, hc ▸ b, c, f.1, f.2.1, f.2.2.1, f.2.2.2.1, f.2.2.2.2.1, f.2.2.2.2.2.1,
      f.2.2.2.2.2.2, fun _ => e⟩
  · rename_i hn
    cases h
    refine ⟨hv', hc ▸ List.suffix_rfl, by simp [pushed]; omega, rfl, rfl, rfl, rfl, rfl, .inl rfl,
      rfl, fun hend => absurd hend hn⟩

end Sys2Proof.Machine
end

