-- ==== Sys2Proof/Laws/Fields.lean ====
section
/-! SUPPORT. Laws of the bit fields: what a word was put together from is what is read from it
(00_scope.md R13, 30_encoding.md R80, R87).  Every field is told as a number first. -/

namespace Sys2Proof

theorem toNat_append {v w : Nat} (x : BitVec v) (y : BitVec w) :
    (x ++ y).toNat = x.toNat * 2 ^ w + y.toNat := by
  rw [BitVec.toNat_append, ← Nat.shiftLeft_add_eq_or_of_lt y.isLt, Nat.shiftLeft_eq]

/-! ### The numbers the fields stand for -/

theorem toNat_hiNibble (b : Byte) : (hiNibble b).toNat = b.toNat / 16 := by
  have := b.isLt
  simp [hiNibble, BitVec.extractLsb'_toNat, Nat.shiftRight_eq_div_pow]
  omega

theorem toNat_loNibble (b : Byte) : (loNibble b).toNat = b.toNat % 16 := by
  simp [loNibble, BitVec.extractLsb'_toNat]

theorem toNat_byteOf (hi lo : Nibble) : (byteOf hi lo).toNat = 16 * hi.toNat + lo.toNat := by
  have := toNat_append hi lo
  unfold byteOf
  omega

theorem toNat_beatData (w : BeatWord) : (beatData w).toNat = w.toNat % 256 := by
  simp [beatData, BitVec.extractLsb'_toNat]

theorem beatLast_iff (w : BeatWord) : beatLast w = true ↔ 256 ≤ w.toNat := by
  have := w.isLt
  simp only [beatLast, BitVec.getLsbD, Nat.testBit, Nat.shiftRight_eq_div_pow, Nat.and_comm 1,
    Nat.and_one_is_mod, bne_iff_ne]
  omega

theorem toNat_beatOf (last : Bool) (d : Byte) : (beatOf last d).toNat = 256 * last.toNat + d.toNat := by
  have := toNat_append (BitVec.ofBool last) d
  unfold beatOf
  rw [this]
  cases last <;> simp

theorem toNat_evtWordOf (sync : Bool) (ch : Nibble) (val : Byte) :
    (evtWordOf sync ch val).toNat = 4096 * sync.toNat + 256 * ch.toNat + val.toNat := by
  have h₁ := toNat_append (BitVec.ofBool sync) (ch ++ val)
  have h₂ := toNat_append ch val
  unfold evtWordOf
  rw [h₁, h₂]
  cases sync <;> simp <;> omega

theorem evtSync_iff (w : EvtWord) : w.getLsbD 12 = true ↔ 4096 ≤ w.toNat := by
  have := w.isLt
  simp only [BitVec.getLsbD, Nat.testBit, Nat.shiftRight_eq_div_pow, Nat.and_comm 1,
    Nat.and_one_is_mod, bne_iff_ne]
  omega

theorem toNat_evtCh (w : EvtWord) : (w.extractLsb' 8 4).toNat = w.toNat / 256 % 16 := by
  simp [BitVec.extractLsb'_toNat, Nat.shiftRight_eq_div_pow]

theorem toNat_evtVal (w : EvtWord) : (w.extractLsb' 0 8).toNat = w.toNat % 256 := by
  simp [BitVec.extractLsb'_toNat]

/-! ### Reading what was put together -/

@[simp] theorem beatData_beatOf (last : Bool) (d : Byte) : beatData (beatOf last d) = d := by
  refine BitVec.eq_of_toNat_eq ?_
  have := d.isLt
  rw [toNat_beatData, toNat_beatOf]; omega

@[simp] theorem beatLast_beatOf (last : Bool) (d : Byte) : beatLast (beatOf last d) = last := by
  have h := beatLast_iff (beatOf last d)
  have := d.isLt
  rw [toNat_beatOf] at h
  cases last
  · exact Bool.eq_false_iff.mpr fun e => by have := h.mp e; simp at this; omega
  · exact h.mpr (by simp)

theorem beatOf_eta (w : BeatWord) : beatOf (beatLast w) (beatData w) = w := by
  refine BitVec.eq_of_toNat_eq ?_
  have h := beatLast_iff w
  have := w.isLt
  rw [toNat_beatOf, toNat_beatData]
  cases hl : beatLast w
  · rw [hl] at h; simp at h; simp; omega
  · rw [hl] at h; simp at h; simp; omega

@[simp] theorem hiNibble_byteOf (hi lo : Nibble) : hiNibble (byteOf hi lo) = hi := by
  refine BitVec.eq_of_toNat_eq ?_
  have := lo.isLt
  rw [toNat_hiNibble, toNat_byteOf]; omega

@[simp] theorem loNibble_byteOf (hi lo : Nibble) : loNibble (byteOf hi lo) = lo := by
  refine BitVec.eq_of_toNat_eq ?_
  have := lo.isLt
  rw [toNat_loNibble, toNat_byteOf]; omega

theorem byteOf_eta (b : Byte) : byteOf (hiNibble b) (loNibble b) = b := by
  refine BitVec.eq_of_toNat_eq ?_
  rw [toNat_byteOf, toNat_hiNibble, toNat_loNibble]; omega

theorem evtWordOf_sync (sync : Bool) (ch : Nibble) (val : Byte) :
    (evtWordOf sync ch val).getLsbD 12 = sync := by
  have h := evtSync_iff (evtWordOf sync ch val)
  have := ch.isLt
  have := val.isLt
  rw [toNat_evtWordOf] at h
  cases sync
  · exact Bool.eq_false_iff.mpr fun e => by have := h.mp e; simp at this; omega
  · exact h.mpr (by simp; omega)

theorem evtWordOf_ch (sync : Bool) (ch : Nibble) (val : Byte) :
    (evtWordOf sync ch val).extractLsb' 8 4 = ch := by
  refine BitVec.eq_of_toNat_eq ?_
  have := ch.isLt
  have := val.isLt
  rw [toNat_evtCh, toNat_evtWordOf]; omega

theorem evtWordOf_val (sync : Bool) (ch : Nibble) (val : Byte) :
    (evtWordOf sync ch val).extractLsb' 0 8 = val := by
  refine BitVec.eq_of_toNat_eq ?_
  have := val.isLt
  rw [toNat_evtVal, toNat_evtWordOf]; omega

theorem evtWordOf_eta (w : EvtWord) :
    evtWordOf (w.getLsbD 12) (w.extractLsb' 8 4) (w.extractLsb' 0 8) = w := by
  refine BitVec.eq_of_toNat_eq ?_
  have h := evtSync_iff w
  have := w.isLt
  rw [toNat_evtWordOf, toNat_evtCh, toNat_evtVal]
  cases hl : w.getLsbD 12
  · rw [hl] at h; simp at h; simp; omega
  · rw [hl] at h; simp at h; simp; omega

/-- The candidate test reads "the value is 0xF0 or more" (30_encoding.md R75). -/
theorem isCandidate_iff (b : Byte) : isCandidate b = true ↔ 0xF0 ≤ b.toNat := by
  have h := toNat_hiNibble b
  have := b.isLt
  simp only [isCandidate, beq_iff_eq]
  constructor
  · intro e; rw [e] at h; simp at h; omega
  · intro e; exact BitVec.eq_of_toNat_eq (by simp; omega)

/-- A candidate byte is `0xF` followed by its low nibble. -/
theorem eq_byteOf_of_isCandidate {b : Byte} (h : isCandidate b = true) :
    b = byteOf 0xF#4 (loNibble b) := by
  have : hiNibble b = 0xF#4 := by simpa [isCandidate] using h
  rw [← this, byteOf_eta]

theorem isCandidate_byteOf (c : Nibble) : isCandidate (byteOf 0xF#4 c) = true := by
  simp [isCandidate]

end Sys2Proof
end

