-- ==== Sys2Proof/Laws/PerInstr.lean ====
section
/-! SUPPORT. For every constructor: the bits of its encoding lie on a row of spec/opcode_table.json
that bears its mnemonic (30_encoding.md R90); and no two rows of one place overlap. -/

namespace Sys2Proof.Laws

/-- The row's mask and match, as a number of the place's width. -/
theorem hits_of_lt {v : Nat} (r : Row) (w : BitVec v) (h : w &&& BitVec.ofNat v r.mask = BitVec.ofNat v r.value)
    (hm : r.mask < 2 ^ v) (hv : r.value < 2 ^ v) : r.hits w.toNat = true := by
  have := congrArg BitVec.toNat h
  rw [BitVec.toNat_and, BitVec.toNat_ofNat, BitVec.toNat_ofNat, Nat.mod_eq_of_lt hm,
    Nat.mod_eq_of_lt hv] at this
  simp [Row.hits, this]

/-- Two rows overlap: some word of the place matches both. -/
def overlap (r q : Row) : Bool :=
  decide (r.place = q.place) && (r.value &&& q.mask == q.value &&& r.mask)

/-- No two rows of one place overlap, so a word selects at most one row (30_encoding.md R90). -/
theorem opcodeTable_disjoint : opcodeTable.Pairwise (fun r q => overlap r q = false) := by decide

/-- The rows are told apart by the mask and match alone. -/
theorem overlap_of_hits {r q : Row} {w : Nat} (hp : r.place = q.place) (hr : r.hits w = true)
    (hq : q.hits w = true) : overlap r q = true := by
  simp only [Row.hits, beq_iff_eq] at hr hq
  simp only [overlap, hp, decide_true, Bool.true_and, beq_iff_eq, ← hr, ← hq]
  rw [Nat.and_assoc, Nat.and_assoc, Nat.and_comm r.mask]

/-- The bits of the instruction's encoding, where it has bits, match a row with its mnemonic. -/
def RowFits.Statement (i : Instr) : Prop :=
  i.wellFormed = true → ∀ place w, (encode i).bits = some (place, w) →
    ∃ r ∈ opcodeTable, r.mnemonic = i.mnemonic ∧ r.place = place ∧ r.hits w = true

/-- A data byte that is no candidate byte lies on one of the four rows of BSKIP. -/
theorem bskip_row (w : Nat) (h : w % 256 < 0xF0) :
    w &&& 0x080 = 0 ∨ w &&& 0x0C0 = 0x080 ∨ w &&& 0x0E0 = 0x0C0 ∨ w &&& 0x0F0 = 0x0E0 := by
  have low : ∀ m, m < 256 → w &&& m = (w % 256) &&& m := fun m hm => by
    rw [show (256 : Nat) = 2 ^ 8 from rfl, ← Nat.and_two_pow_sub_one_eq_mod, Nat.and_assoc]
    rw [Nat.and_comm (2 ^ 8 - 1) m, Nat.and_two_pow_sub_one_eq_mod, Nat.mod_eq_of_lt hm]
  rw [low _ (by decide), low _ (by decide), low _ (by decide), low _ (by decide)]
  have cases : ∀ x < 15, ∀ y < 16, (16 * x + y) &&& 0x080 = 0 ∨ (16 * x + y) &&& 0x0C0 = 0x080 ∨
      (16 * x + y) &&& 0x0E0 = 0x0C0 ∨ (16 * x + y) &&& 0x0F0 = 0x0E0 := by decide
  have := cases (w % 256 / 16) (by omega) (w % 16) (by omega)
  rwa [show 16 * (w % 256 / 16) + w % 16 = w % 256 by omega] at this

namespace RowFits

theorem bskip (last : Bool) (d : Byte) : Statement (.bskip last d) := by
  rintro h place w ⟨⟩
  have hd : d.toNat ≤ 0xEF := by simpa [Instr.wellFormed] using h
  rcases bskip_row (beatOf last d).toNat (by have := d.isLt; rw [toNat_beatOf]; omega) with
    e | e | e | e
  · exact ⟨_, .head _, rfl, rfl, by simp [Row.hits, e]⟩
  · exact ⟨_, .tail _ (.head _), rfl, rfl, by simp [Row.hits, e]⟩
  · exact ⟨_, .tail _ (.tail _ (.head _)), rfl, rfl, by simp [Row.hits, e]⟩
  · exact ⟨_, .tail _ (.tail _ (.tail _ (.head _))), rfl, rfl, by simp [Row.hits, e]⟩

theorem bcand (last : Bool) (c : Nibble) : Statement (.bcand last c) := by
  rintro - place w ⟨⟩
  refine ⟨⟨"BCAND", .bootBeat, 0x0F0, 0x0F0⟩, by decide, rfl, rfl,
    hits_of_lt (v := 9) _ _ ?_ (by decide) (by decide)⟩
  revert last c
  decide

/-- The mask of the two rows of phase RUN picks out `last`. -/
theorem beatOf_and_last (last : Bool) (d : Byte) :
    beatOf last d &&& 0x100#9 = BitVec.ofBool last ++ 0#8 := by
  rw [show 0x100#9 = 1#1 ++ 0#8 from rfl, beatOf, BitVec.and_append]
  cases last <;> simp

theorem push (d : Byte) : Statement (.push d) := by
  rintro - place w ⟨⟩
  exact ⟨⟨"PUSH", .runBeat, 0x100, 0x000⟩, by decide, rfl, rfl,
    hits_of_lt (v := 9) _ _ (beatOf_and_last false d) (by decide) (by decide)⟩

theorem pushl (d : Byte) : Statement (.pushl d) := by
  rintro - place w ⟨⟩
  exact ⟨⟨"PUSHL", .runBeat, 0x100, 0x100⟩, by decide, rfl, rfl,
    hits_of_lt (v := 9) _ _ (beatOf_and_last true d) (by decide) (by decide)⟩

theorem wireMarker (m : Nibble) : Statement (.wireMarker m) := by
  rintro - place w ⟨⟩
  refine ⟨⟨"WIRE.MARKER", .wireFirst, 0xF0, 0xF0⟩, by decide, rfl, rfl,
    hits_of_lt (v := 8) _ _ ?_ (by decide) (by decide)⟩
  revert m
  decide

theorem wirePayload (v : Byte) : Statement (.wirePayload v) := by
  rintro - place w ⟨⟩
  exact ⟨⟨"WIRE.PAYLOAD", .wireLater, 0x00, 0x00⟩, by decide, rfl, rfl, by simp [Row.hits]⟩

theorem evtAxis (ch : Nibble) (val : Byte) : Statement (.evtAxis ch val) := by
  rintro - place w ⟨⟩
  refine ⟨⟨"EVT.AXIS", .evtPort, 0x1000, 0x0000⟩, by decide, rfl, rfl,
    hits_of_lt (v := 13) _ _ ?_ (by decide) (by decide)⟩
  change evtWordOf false ch val &&& 0x1000#13 = 0#13
  rw [show 0x1000#13 = 1#1 ++ (0#4 ++ 0#8) from rfl, evtWordOf, BitVec.and_append,
    BitVec.and_append]
  simp

theorem evtSync : Statement .evtSync := by
  rintro - place w ⟨⟩
  exact ⟨⟨"EVT.SYNC", .evtPort, 0x1FFF, 0x1000⟩, by decide, rfl, rfl, by decide⟩

/-! The rows without bits. -/

theorem reset : Statement .reset := by rintro - place w ⟨⟩
theorem srcerr : Statement .srcerr := by rintro - place w ⟨⟩
theorem bootclose : Statement .bootclose := by rintro - place w ⟨⟩
theorem cycleend : Statement .cycleend := by rintro - place w ⟨⟩
theorem scan : Statement .scan := by rintro - place w ⟨⟩
theorem discard (p : Nat) : Statement (.discard p) := by rintro - place w ⟨⟩
theorem ovfrec : Statement .ovfrec := by rintro - place w ⟨⟩
theorem decode (p : Nat) : Statement (.decode p) := by rintro - place w ⟨⟩
theorem emit (batch : List Byte) : Statement (.emit batch) := by rintro - place w ⟨⟩
theorem sample (p : Nat) : Statement (.sample p) := by rintro - place w ⟨⟩

end RowFits

end Sys2Proof.Laws
end

