-- ==== Sys2Proof/Laws/Run.lean ====
section
/-! SUPPORT. Runs of several steps, and what one offered beat of phase RUN does to a machine that
meets the invariant, in terms of the bytes of the buffer. -/

namespace Sys2Proof.Machine

@[simp] theorem run_zero (s : State) : Sys2Proof.core.run 0 s = .next s := rfl

/-- A run whose first step goes on. -/
theorem run_succ_of_next {s t : State} (k : Nat) (h : step s = .next t) :
    Sys2Proof.core.run (k + 1) s = Sys2Proof.core.run k t := by
  have h' : Sys2Proof.core.step s = .next t := h
  simp only [Host.Core.run, h']

/-- A run whose first step faults. -/
theorem run_succ_of_fault {s : State} {f : Fault} (k : Nat) (h : step s = .fault f) :
    Sys2Proof.core.run (k + 1) s = .fault f := by
  have h' : Sys2Proof.core.step s = .fault f := h
  simp only [Host.Core.run, h']

/-- A run whose first step is refused. -/
theorem run_succ_of_refused {s : State} {r : Refusal} (k : Nat) (h : step s = .refused r) :
    Sys2Proof.core.run (k + 1) s = .refused r := by
  have h' : Sys2Proof.core.step s = .refused r := h
  simp only [Host.Core.run, h']

@[simp] theorem run_one (s : State) : Sys2Proof.core.run 1 s = step s := by
  cases h : step s with
  | next t => rw [run_succ_of_next 0 h]; rfl
  | fault f => rw [run_succ_of_fault 0 h]; rfl
  | refused r => rw [run_succ_of_refused 0 h]; rfl

/-- A run continued: `j` steps and then `k` more. -/
theorem run_add {s t : State} (j k : Nat) (h : Sys2Proof.core.run j s = .next t) :
    Sys2Proof.core.run (j + k) s = Sys2Proof.core.run k t := by
  induction j generalizing s with
  | zero => cases h; rw [Nat.zero_add]
  | succ j ih =>
    cases hs : step s with
    | next u =>
      rw [run_succ_of_next j hs] at h
      rw [Nat.add_right_comm, run_succ_of_next _ hs, ih h]
    | fault f => rw [run_succ_of_fault j hs] at h; cases h
    | refused r => rw [run_succ_of_refused j hs] at h; cases h

/-! ### One beat of phase RUN on the bytes of the buffer -/

/-- `p` qualifies in a buffer that holds these bytes (41_synchronizer.md R125). -/
def QualifiesIn (m : Byte) (n : Nat) (bytes : List Byte) (p : Nat) : Prop :=
  p + n + 1 ≤ bytes.length ∧ bytes[p]? = some m

theorem qualifies_iff_in {s : State} (hv : CellsValid s) (p : Nat) :
    Qualifies s p ↔ QualifiesIn s.m s.n.toNat (contents s) p := by
  rw [qualifies_iff hv, QualifiesIn, hv.length]

/-- What stays the same while beats of phase RUN are taken. -/
structure RunsOn (s t : State) : Prop where
  phase : t.phase = .run
  quiet : Quiet t
  n : t.n = s.n
  m : t.m = s.m
  cfg : t.cfg = s.cfg
  err : t.err = s.err
  cells : CellsValid t
  len : t.len < t.cfg.cap

/-- What one beat does to the bytes `c` (the buffer and the beat's byte) when the sink accepts
everything: `c'` is the buffer afterwards, `out` the batch published, if any
(41_synchronizer.md R122, R123, R124). -/
inductive BeatEffect (m : Byte) (n cap : Nat) (last : Bool) (c : List Byte) :
    List Byte → Option (List Byte) → Prop
  | store (h₁ : last = false) (h₂ : c.length ≠ cap) : BeatEffect m n cap last c c none
  | wait (h : ∀ p, ¬ QualifiesIn m n c p) (hl : c.length ≠ cap) : BeatEffect m n cap last c c none
  | overflow (h : ∀ p, ¬ QualifiesIn m n c p) (hl : c.length = cap) :
      BeatEffect m n cap last c (c.drop (cap / 2)) none
  | frame (p : Nat) (h : QualifiesIn m n c p) (hmax : ∀ q, QualifiesIn m n c q → q ≤ p)
      (hend : last = true ∨ c.length = cap) :
      BeatEffect m n cap last c (c.drop (p + n + 1)) (some ((c.drop (p + 1)).take n))

/-- The events of a batch, if there is one. -/
def publishedEvents : Option (List Byte) → List EvtEvent
  | none => []
  | some batch => batchEvents batch

/-- One beat of phase RUN with a sink that accepts everything, outside test mode. -/
theorem step_beat {s : State} {o : Offer} {rest : List Offer} (hq : Quiet s) (hp : s.phase = .run)
    (hv : CellsValid s) (hl : s.len < s.cfg.cap) (hcap : 30 ≤ s.cfg.cap)
    (htm : s.cfg.testmode = false) (hs : s.source = o :: rest) (ho : o.ans = .ok) :
    ∃ (t : State) (out : Option (List Byte)), step s = .next t ∧ RunsOn s t ∧ t.source = rest ∧
      t.evt = s.evt ++ publishedEvents out ∧
      BeatEffect s.m s.n.toNat s.cfg.cap (beatLast o.word) (contents s ++ [beatData o.word])
        (contents t) out := by
  have e := step_run hq hp hs
  rw [exec_decodeRun o.word (takeBeat o rest s) hp,
    beatFlow_cells _ _ (takeBeat o rest s) hv hl] at e
  generalize ha : pushed (beatData o.word) (takeBeat o rest s) = a at e
  have hva : CellsValid a ∧ contents a = contents s ++ [beatData o.word] := by
    subst ha; exact pushed_cells (beatData o.word) (takeBeat o rest s) hv
  obtain ⟨hva, hca⟩ := hva
  have hlen : (contents s ++ [beatData o.word]).length = a.len := by rw [← hca, hva.length]
  have hrest : a = { s with buf := a.buf, len := s.len + 1, source := rest, ans := o.ans } := by
    subst ha; rfl
  have hal : a.len = s.len + 1 := by rw [hrest]
  have hcfg : a.cfg = s.cfg := by rw [hrest]
  have hqa : ∀ p, Qualifies a p ↔
      QualifiesIn s.m s.n.toNat (contents s ++ [beatData o.word]) p := fun p => by
    rw [qualifies_iff_in hva, hca, hrest]
  by_cases hc : beatLast o.word = true ∨ (takeBeat o rest s).len + 1 = (takeBeat o rest s).cfg.cap
  · rw [if_pos hc] at e
    have hc' : beatLast o.word = true ∨ (contents s ++ [beatData o.word]).length = s.cfg.cap := by
      rw [hlen, hal]; exact hc
    have spec := fun {t : State} (ht : cycleEnd a = .go t) =>
      cycleEnd_go_spec hva (hcfg ▸ hcap) (by rw [hal, hcfg]; exact hl) ht
    have on : ∀ {t : State}, cycleEnd a = .go t → Quiet t → RunsOn s t := fun {t} ht hqt => by
      obtain ⟨c₁, -, c₂, -, c₃, c₄, c₅, c₆, c₇, -, -⟩ := spec ht
      rw [hrest] at c₂ c₃ c₄ c₅ c₆ c₇
      exact ⟨c₃.trans hp, hqt, c₄, c₅, c₆, c₇, c₁, by rw [c₆]; exact c₂⟩
    cases cycle_kind a hva (hcfg ▸ hcap) with
    | wait hn hl' eq =>
      refine ⟨a, none, by rw [e, eq]; rfl, on eq (by rw [hrest]; exact hq), by rw [hrest], ?_, ?_⟩
      · rw [hrest]; simp [publishedEvents]
      · rw [hca]
        exact .wait (fun p hp => hn p ((hqa p).mpr hp)) (by rw [hlen, ← hcfg]; exact hl')
    | overflow hn hl' eq =>
      refine ⟨_, none, by rw [e, eq]; rfl, on eq (by rw [hrest]; exact hq), ?_, ?_, ?_⟩
      · rw [hrest]; rfl
      · rw [hrest]; simp [publishedEvents, dropBytes]
      · rw [(dropBytes_cells _ _ hva).2, hca, hcfg]
        exact .overflow (fun p hp => hn p ((hqa p).mpr hp)) (by rw [hlen, ← hcfg]; exact hl')
    | frame p hf hmax _ eq =>
      refine ⟨_, some (batchAt a p), by rw [e, eq]; rfl, on eq (by rw [hrest]; exact hq), ?_, ?_, ?_⟩
      · rw [hrest]; rfl
      · have : a.evt = s.evt := by rw [hrest]
        simp [afterFrame, hcfg, htm, publishedEvents, this]
      · have hn : a.n = s.n := by rw [hrest]
        rw [(afterFrame_cells a p hva).2, batchAt, hca, hn]
        exact .frame p ((hqa p).mp hf) (fun q hq => hmax q ((hqa q).mpr hq)) hc'
    | sinkFails _ _ _ _ _ hans => rw [hrest] at hans; simp [ho] at hans
    | sinkSilent _ _ _ _ hans => rw [hrest] at hans; simp [ho] at hans
  · rw [if_neg hc] at e
    simp only [not_or, Bool.not_eq_true] at hc
    refine ⟨a, none, e, ⟨by rw [hrest]; exact hp, by rw [hrest]; exact hq, by rw [hrest],
      by rw [hrest], hcfg, by rw [hrest], hva, ?_⟩, by rw [hrest], ?_, ?_⟩
    · have h₂ : s.len + 1 ≠ s.cfg.cap := hc.2
      rw [hal, hcfg]; omega
    · rw [hrest]; simp [publishedEvents]
    · rw [hca]
      exact .store hc.1 (by rw [hlen, hal]; exact hc.2)

end Sys2Proof.Machine
end

