-- ==== Sys2Proof/Tests/Slice0.lean ====
section
/-! SUPPORT. The model's own tests: ill-formed terms refused, words of the spec decoded, one step on
vectors of 95_test_vectors.md, and a witness for the hypotheses of every obligation.  Every expected
value is the spec's (the vector or rule is named), never the model's own answer. -/

namespace Sys2Proof.Tests

open Sys2Proof.Machine

/-! ### WellFormed: one ill-formed term for each check -/

theorem test_bskip_refuses_a_candidate : (Instr.bskip false 0xF0#8).wellFormed = false := by decide
theorem test_bskip_accepts_ef : (Instr.bskip true 0xEF#8).wellFormed = true := by decide
theorem test_wireMarker_refuses_one : (Instr.wireMarker 1#4).wellFormed = false := by decide
theorem test_wireMarker_accepts_two : (Instr.wireMarker 2#4).wellFormed = true := by decide
theorem test_evtAxis_refuses_channel_14 : (Instr.evtAxis 14#4 0#8).wellFormed = false := by decide
theorem test_evtAxis_accepts_channel_13 : (Instr.evtAxis 13#4 0#8).wellFormed = true := by decide
theorem test_emit_refuses_no_value : (Instr.emit []).wellFormed = false := by decide
theorem test_emit_refuses_15_values : (Instr.emit (List.replicate 15 0#8)).wellFormed = false := by
  decide

/-! ### Decoding: words written out from the spec's encodings -/

/-- R84 row 1; 95_test_vectors.md V1 -/
theorem test_decode_bskip : decode (.bootBeat 0b0_0111_1111#9) = .ok (.bskip false 0x7F#8) := rfl
/-- R84: `last` takes no part in phase BOOT -/
theorem test_decode_bskip_last : decode (.bootBeat 0b1_1110_1111#9) = .ok (.bskip true 0xEF#8) := rfl
/-- V2: `B 0xF7` is 0x0F7 -/
theorem test_decode_bcand : decode (.bootBeat 0x0F7#9) = .ok (.bcand false 7#4) := rfl
/-- section 7: `B 0xF4` is 0x0F4 -/
theorem test_decode_push : decode (.runBeat 0x0F4#9) = .ok (.push 0xF4#8) := rfl
/-- section 7: `BL 0x00` is 0x100 -/
theorem test_decode_pushl : decode (.runBeat 0x100#9) = .ok (.pushl 0x00#8) := rfl
/-- R81 -/
theorem test_decode_reset : decode (.pin .reset) = .ok .reset := rfl
/-- R81 -/
theorem test_decode_srcerr : decode (.pin .srcerr) = .ok .srcerr := rfl
/-- section 7: marker for N = 14 -/
theorem test_decode_wireMarker : decode (.wireFirst 0xFF#8) = .ok (.wireMarker 15#4) := rfl
/-- R77: "0xF0 and 0xF1 are never a marker" -/
theorem test_decode_never_a_marker : decode (.wireFirst 0xF1#8) = .error .neverAMarker := rfl
/-- R73: a marker's high nibble is 1111 -/
theorem test_decode_not_a_marker : decode (.wireFirst 0xE9#8) = .error .notAMarker := rfl
/-- R74: the raw value -/
theorem test_decode_wirePayload : decode (.wireLater 0xFF#8) = .ok (.wirePayload 0xFF#8) := rfl
/-- section 7: `AXIS(13, 0xFF)` is 0x0DFF -/
theorem test_decode_evtAxis : decode (.evtPort 0x0DFF#13) = .ok (.evtAxis 13#4 0xFF#8) := rfl
/-- section 7: SYNC is 0x1000 -/
theorem test_decode_evtSync : decode (.evtPort 0x1000#13) = .ok .evtSync := rfl
/-- R85: channel 14 is never produced -/
theorem test_decode_channel_14 : decode (.evtPort 0x0E00#13) = .error .neverProduced := rfl
/-- R85: `sync = 1` with another bit set is never produced -/
theorem test_decode_sync_with_value : decode (.evtPort 0x1001#13) = .error .neverProduced := rfl
/-- R90: the rows without bits are their own names -/
theorem test_decode_calls :
    decode (.call .bootclose) = .ok .bootclose ∧ decode (.call .cycleend) = .ok .cycleend ∧
    decode (.call .scan) = .ok .scan ∧ decode (.call (.discard 3)) = .ok (.discard 3) ∧
    decode (.call .ovfrec) = .ok .ovfrec ∧ decode (.call (.decode 3)) = .ok (.decode 3) ∧
    decode (.call (.emit [7#8])) = .ok (.emit [7#8]) ∧
    decode (.call (.sample 3)) = .ok (.sample 3) := ⟨rfl, rfl, rfl, rfl, rfl, rfl, rfl, rfl⟩
/-- 42_decoder.md R151: a batch has 1 to 14 values -/
theorem test_decode_no_such_batch : decode (.call (.emit [])) = .error .noSuchBatch := rfl
/-- the table's words: a BOOT row fixes data bits only, a RUN row fixes bit 8 -/
theorem test_decodeTableWord :
    decodeTableWord 8 0x7F = some (.bskip false 0x7F#8) ∧
    decodeTableWord 8 0xF0 = some (.bcand false 0#4) ∧
    decodeTableWord 16 0x000 = some (.push 0#8) ∧ decodeTableWord 16 0x1F4 = some (.pushl 0xF4#8) ∧
    decodeTableWord 16 0x2FE = some (.evtAxis 2#4 0xFE#8) ∧
    decodeTableWord 16 0x1000 = some .evtSync ∧ decodeTableWord 16 0x2000 = none := by decide

/-! ### One step on small states -/

/-- The answer is a next state of which `f` holds. -/
def goesTo (o : Host.Outcome State Fault Refusal) (f : State → Bool) : Bool :=
  match o with
  | .next t => f t
  | _ => false

/-- The bytes in cells `0, 1, ...`. -/
def cells (bytes : List Byte) : Memory := bytes.zipIdx.map fun (b, i) => (i, b)

/-- Phase RUN with `n` channels and these bytes in the buffer, `CAP = 30`, `SEQ_W = 32`, `P = 0`. -/
def running (n : Nat) (bytes : List Byte) : State :=
  { State.reset with
    cfg := { Config.default with w := 1, cap := 30 }
    phase := .run, n := BitVec.ofNat 4 n, m := markerOf n, buf := cells bytes, len := bytes.length }

/-- The block after a fatal error. -/
def failed (e : Err) : State := { State.reset with phase := .fail, err := e }

/-- V1 -/
theorem test_bskip : goesTo (exec (.bskip true 0x7F#8) { State.reset with bootcnt := 4 })
    (fun t => t.bootcnt == 5 && t.candv == false && t.phase == .boot && t.diag == []) = true := by
  decide
/-- V7: `BL 0xEF` in a one-byte window -/
theorem test_bskip_closes : goesTo
    (exec (.bskip true 0xEF#8) { State.reset with cfg := { Config.default with w := 1 } })
    (fun t => t.phase == .fail && t.err == .syncNotFound && t.diag == [.errmsg 1#2]) = true := by
  decide
/-- V2 -/
theorem test_bcand : goesTo
    (exec (.bcand false 7#4) { State.reset with bootcnt := 9, candv := true, cand := 4#4 })
    (fun t => t.bootcnt == 10 && t.candv && t.cand == 7#4 && t.phase == .boot) = true := by decide
/-- V7: `BL 0xFF` in a one-byte window -/
theorem test_bcand_closes : goesTo
    (exec (.bcand true 15#4) { State.reset with cfg := { Config.default with w := 1 } })
    (fun t => t.phase == .run && t.n == 14#4 && t.m == 0xFF#8 && t.diag == [.nch 14#4]) = true := by
  decide
/-- V4: the last candidate is 0xF1 -/
theorem test_bootclose_rejects : goesTo (exec .bootclose { State.reset with
      bootcnt := 32, candv := true, cand := 1#4 })
    (fun t => t.phase == .fail && t.err == .syncNotFound && t.diag == [.errmsg 1#2]) = true := by
  decide
/-- V7: the last candidate is 0xF2 -/
theorem test_bootclose_accepts : goesTo (exec .bootclose { State.reset with
      bootcnt := 32, candv := true, cand := 2#4 })
    (fun t => t.phase == .run && t.n == 1#4 && t.m == 0xF2#8 && t.len == 0 && t.seq == 0) = true := by
  decide
/-- V9: PUSH does not scan -/
theorem test_push : goesTo (exec (.push 0x22#8) (running 3 [0x10#8, 0xF4#8, 0x20#8, 0x21#8]))
    (fun t => t.buf == cells [0x10#8, 0xF4#8, 0x20#8, 0x21#8, 0x22#8] && t.len == 5 && t.evt == [])
    = true := by decide
/-- P4: the 30th beat fills the buffer; 15 bytes are discarded -/
theorem test_push_overflow : goesTo
    (exec (.push 29#8) (running 14 ((List.range 29).map (BitVec.ofNat 8))))
    (fun t => t.len == 15 && t.buf == cells (((List.range 15).map fun i => BitVec.ofNat 8 (i + 15)))
      && t.phase == .run && t.evt == []) = true := by decide
/-- V9, the last beat -/
theorem test_pushl : goesTo
    (exec (.pushl 0x23#8) (running 3 [0x10#8, 0xF4#8, 0x20#8, 0x21#8, 0x22#8]))
    (fun t => t.evt == [.axis 0#4 0x20#8, .axis 1#4 0x21#8, .axis 2#4 0x22#8, .sync] &&
      t.buf == cells [0x23#8] && t.len == 1 && t.seq == 1) = true := by decide
/-- V12 script A: the newest frame wins, the older is dropped -/
theorem test_pushl_newest : goesTo
    (exec (.pushl 4#8) (running 2 [0xF3#8, 1#8, 2#8, 0xF3#8, 3#8]))
    (fun t => t.evt == [.axis 0#4 3#8, .axis 1#4 4#8, .sync] && t.len == 0 && t.seq == 1) = true := by
  decide
/-- V29 -/
theorem test_reset : goesTo (exec .reset (failed .readError))
    (fun t => t.phase == .boot && t.err == .none && t.bootcnt == 0 && t.candv == false &&
      t.len == 0 && t.seq == 0 && t.evt == [] && t.diag == []) = true := by decide
/-- V30 -/
theorem test_srcerr : goesTo (exec .srcerr (running 3 [0xF4#8, 1#8, 2#8, 3#8]))
    (fun t => t.phase == .fail && t.err == .readError && t.diag == [.errmsg 2#2] && t.evt == [])
    = true := by decide
/-- V31 -/
theorem test_srcerr_in_fail : exec .srcerr (failed .syncNotFound) = .next (failed .syncNotFound) :=
  rfl
/-- section 7: marker for N = 8 -/
theorem test_wireMarker : goesTo (exec (.wireMarker 9#4) State.reset)
    (fun t => t.wire == [0xF9#8] && t.evt == []) = true := by decide
/-- R74 -/
theorem test_wirePayload : goesTo (exec (.wirePayload 0xFE#8) State.reset)
    (fun t => t.wire == [0xFE#8]) = true := by decide
/-- R87 -/
theorem test_evtAxis : goesTo (exec (.evtAxis 1#4 0x7F#8) (running 3 []))
    (fun t => t.evt == [.axis 1#4 0x7F#8]) = true := by decide
/-- R87 -/
theorem test_evtSync : goesTo (exec .evtSync (running 3 [])) (fun t => t.evt == [.sync]) = true := by
  decide
/-- V23: the sink fails on the first event -/
theorem test_cycleend_sink_fails : goesTo
    (exec .cycleend { running 3 [0xF4#8, 1#8, 2#8, 3#8] with ans := .failAt 0 })
    (fun t => t.phase == .fail && t.err == .sinkWriteError && t.evt == [] &&
      t.diag == [.errmsg 3#2]) = true := by decide
/-- V18 -/
theorem test_cycleend : goesTo
    (exec .cycleend (running 2 [0xF3#8, 1#8, 2#8, 0xF3#8, 3#8, 4#8, 0xF3#8]))
    (fun t => t.evt == [.axis 0#4 3#8, .axis 1#4 4#8, .sync] && t.buf == cells [0xF3#8] &&
      t.len == 1 && t.seq == 1) = true := by decide
/-- V13: the scan starts at `p = 1` -/
theorem test_scan : goesTo (exec .scan (running 2 [0xF3#8, 0xF3#8, 1#8, 2#8]))
    (fun t => t.result == some (.index (some 1))) = true := by decide
/-- V9: fewer than `N + 1` bytes -/
theorem test_scan_none : goesTo (exec .scan (running 3 [0x10#8, 0xF4#8]))
    (fun t => t.result == some (.index none)) = true := by decide
/-- V11: `K = 3`, `r = 2` -/
theorem test_discard : goesTo (exec (.discard 0) (running 2 [0xF3#8, 1#8, 2#8, 0xF3#8, 3#8]))
    (fun t => t.buf == cells [0xF3#8, 3#8] && t.len == 2) = true := by decide
/-- V17: an odd capacity -/
theorem test_ovfrec : goesTo (exec .ovfrec
      { running 1 ((List.range 31).map (BitVec.ofNat 8)) with
        cfg := { Config.default with cap := 31 } })
    (fun t => t.len == 16 && t.buf == cells (((List.range 16).map fun i => BitVec.ofNat 8 (i + 15))))
    = true := by decide
/-- V21: values are delivered verbatim -/
theorem test_decode : goesTo (exec (.decode 0) (running 3 [0xF4#8, 0xFF#8, 0xF4#8, 0#8]))
    (fun t => t.result == some (.batch [0xFF#8, 0xF4#8, 0#8])) = true := by decide
/-- V22: the sink fails in mid-batch -/
theorem test_emit_fails : goesTo
    (exec (.emit [1#8, 2#8, 3#8]) { running 3 [] with ans := .failAt 2 })
    (fun t => t.evt == [.axis 0#4 1#8, .axis 1#4 2#8] && t.phase == .fail &&
      t.err == .sinkWriteError && t.diag == [.errmsg 3#2]) = true := by decide
/-- V24: test mode, the sink's answer is not consulted -/
theorem test_emit_test_mode : goesTo (exec (.emit [1#8, 2#8, 3#8])
      { running 3 [] with ans := .failAt 2, cfg := { Config.default with testmode := true } })
    (fun t => t.evt == [] && t.phase == .run && t.diag == []) = true := by decide
/-- V25: a report is due -/
theorem test_sample_due : goesTo (exec (.sample 0)
      { running 2 [0xF3#8, 0x0A#8, 0x0B#8] with seq := 5, cfg := { Config.default with p := 3 } })
    (fun t => t.seq == 6 && t.diag == [.frame 6 [0xF3#8, 0x0A#8, 0x0B#8]] && t.len == 3) = true := by
  decide
/-- V27: the counter wraps -/
theorem test_sample_wraps : goesTo (exec (.sample 0)
      { running 2 [0xF3#8, 0x0A#8, 0x0B#8] with
        seq := 3, cfg := { Config.default with p := 3, seqW := 2 } })
    (fun t => t.seq == 0 && t.diag == [.frame 0 [0xF3#8, 0x0A#8, 0x0B#8]]) = true := by decide
/-- V32: RESET, SRCERR and a beat presented together -/
theorem test_step_priority : goesTo (step { running 3 [0xF4#8, 1#8] with
      resetPin := true, srcerrPin := true, source := [⟨0x0F4#9, .ok⟩] })
    (fun t => t.phase == .boot && t.len == 0 && t.srcerrPin == false &&
      t.source == [⟨0x0F4#9, .ok⟩]) = true := by decide
/-- V31: a beat in phase FAIL stays with the source -/
theorem test_step_fail_keeps_the_beat :
    step { failed .syncNotFound with source := [⟨0x0F4#9, .ok⟩] } =
      .next { failed .syncNotFound with source := [⟨0x0F4#9, .ok⟩] } := rfl
/-- P3, the line `B 0xF4` after SyncNotFound: "offered, not accepted"; the later line offers the byte,
so the source ends up with none of the refused line (log 20). -/
theorem test_script_beat_refused : step { failed .syncNotFound with
      script := ScriptLine.gaps 0xF4#8 (.b 0xF4#8 .ok) } = .next (failed .syncNotFound) := rfl
/-- V2: the line `B 0xF7` in phase BOOT is offered and taken -/
theorem test_script_beat_taken : goesTo (step { State.reset with
      script := ScriptLine.gaps 0xF7#8 (.b 0xF7#8 .ok) })
    (fun t => t.bootcnt == 1 && t.candv && t.cand == 7#4 && t.source == []) = true := by decide
/-- A word of the table, placed, is taken by the next step from reset (log 12). -/
theorem test_withFetchWord : goesTo (step (State.reset.withFetchWord 16 0x0F4))
    (fun t => t.phase == .run && t.len == 1 && t.buf == cells [0xF4#8]) = true := by decide

/-! ### Witnesses: concrete inputs that meet the hypotheses of each obligation together -/

/-- The invariant, from its parts, each of which is decided on a concrete state. -/
theorem blockInv_of (s : State)
    (h₁ : s.cfg.ok ∧ s.buf.wf = true ∧ s.len ≤ s.cfg.cap ∧ s.seq < 2 ^ s.cfg.seqW ∧ s.result = none)
    (h₂ : s.phase ≠ .fail → CellsValid s)
    (h₃ : s.phase = .boot → s.len = 0 ∧ s.seq = 0 ∧ s.bootcnt < s.cfg.w ∧ s.err = .none)
    (h₄ : s.phase = .run → 1 ≤ s.n.toNat ∧ s.n.toNat ≤ 14 ∧ s.m.toNat = 0xF0 + s.n.toNat + 1 ∧
      s.err = .none ∧ s.len < s.cfg.cap)
    (h₅ : s.phase = .fail → s.err ≠ .none) : BlockInv s :=
  ⟨h₁.1, h₁.2.1, h₁.2.2.1, h₁.2.2.2.1, h₁.2.2.2.2, h₂, h₃, h₄, h₅⟩

/-- A buffer in which SCAN finds nothing has no qualifying position. -/
theorem not_qualifies_of_scan (s : State) (hv : CellsValid s) (h : scanBuf s = .ok none) (p : Nat) :
    ¬ Qualifies s p := by
  obtain ⟨r, hr, -, hn⟩ := scanBuf_cells s hv
  rw [h] at hr
  cases hr
  exact hn rfl p

/-- Phase RUN, one channel, these bytes in the buffer, these beats offered. -/
def offered (bytes : List Byte) (offers : List Offer) : State :=
  { running 1 bytes with source := offers }

theorem blockInv_running : BlockInv (running 1 []) :=
  blockInv_of _ (by decide) (fun _ => rfl) nofun (fun _ => by decide) nofun

/-- The beats offered are no part of the invariant. -/
theorem blockInv_offered (offers : List Offer) : BlockInv (offered [] offers) :=
  have h := blockInv_running
  ⟨h.config, h.canonical, h.lenLe, h.seqLt, h.transient, h.cells, h.boot, h.run, h.fail⟩

theorem blockInv_reset : BlockInv { State.reset with cfg := { Config.default with w := 1 } } :=
  blockInv_of _ (by decide) (fun _ => rfl) (fun _ => by decide) nofun nofun

theorem blockInv_failed : BlockInv (failed .readError) :=
  blockInv_of _ (by decide) (fun h => absurd rfl h) nofun nofun (fun _ => by decide)

/-- A full buffer of `CAP = 30` bytes without a marker. -/
def full : State := running 14 (List.replicate 30 0#8)

theorem cycleInv_full : CycleInv full :=
  ⟨rfl, by decide, by decide, by decide, by decide⟩

/-- A buffer of exactly one frame, `N = 1`. -/
def oneFrame : State := running 1 [0xF2#8, 5#8]

theorem cycleInv_oneFrame : CycleInv oneFrame :=
  ⟨rfl, by decide, by decide, by decide, by decide⟩

theorem witness_DecodeOfEncode :
    (Instr.bskip true 0xEF#8).wellFormed = true ∧ (Instr.wireMarker 2#4).wellFormed = true ∧
    (Instr.evtAxis 13#4 0xFF#8).wellFormed = true ∧
    (Instr.emit (List.replicate 14 0#8)).wellFormed = true := by decide

theorem witness_EncodeOfDecode :
    decode (.wireFirst 0xF2#8) = .ok (.wireMarker 2#4) ∧
    decode (.evtPort 0x0D00#13) = .ok (.evtAxis 13#4 0#8) := ⟨rfl, rfl⟩

/-- One word for each clause, at the edge of its range. -/
theorem witness_BeatSelection :
    0xF0 ≤ (0x0F0#9).toNat % 256 ∧ 0xF0 ≤ (0x1FF#9).toNat % 256 ∧ (0x1EF#9).toNat % 256 < 0xF0 ∧
    (0x0FF#9).toNat < 0x100 ∧ 0x100 ≤ (0x100#9).toNat := by decide

theorem witness_CandidateCountAndMarker :
    0xF0 ≤ (0xF0#8 : Byte).toNat ∧
    (0xF0 ≤ (0xF2#8 : Byte).toNat ∧ channelCount (loNibble 0xF2#8) = ((1 : Nat) : Int) ∧ 1 ≤ 1) ∧
    (0xF0 ≤ (0xFF#8 : Byte).toNat ∧ channelCount (loNibble 0xFF#8) = ((14 : Nat) : Int) ∧ 1 ≤ 14) := by
  decide

theorem witness_MarkerTellsTheFrameLength : (1 ≤ 1 ∧ 1 ≤ 14) ∧ (1 ≤ 14 ∧ 14 ≤ 14) := by decide

theorem witness_FramePositionsAreChannels :
    ∃ (n : Nat) (batch : List Byte) (j : Nat), batch.length = n ∧ 1 ≤ j ∧ j ≤ n ∧ j = 14 :=
  ⟨14, List.replicate 14 0#8, 14, by decide⟩

theorem witness_EvtPortWords : (13#4 : Nibble).toNat ≤ 13 := by decide

theorem witness_AscendingMovesCopyAtOnce :
    1 ≤ 1 ∧ ∀ i < 2, ((cells [1#8, 2#8, 3#8]).read (i + 1)).isSome = true := by decide

theorem witness_BskipCountsTheByte :
    ∃ s t : State, (s.phase = .boot ∧ s.bootcnt + 1 ≠ s.cfg.w) ∧
      (t.phase = .boot ∧ t.bootcnt + 1 = t.cfg.w) :=
  ⟨{ State.reset with bootcnt := 30 }, { State.reset with bootcnt := 31 }, by decide⟩

theorem witness_BcandRecordsTheCandidate :
    ∃ s t : State, (s.phase = .boot ∧ s.bootcnt + 1 ≠ s.cfg.w) ∧
      (t.phase = .boot ∧ t.bootcnt + 1 = t.cfg.w) :=
  ⟨{ State.reset with bootcnt := 30 }, { State.reset with bootcnt := 31 }, by decide⟩

/-- The closing states of the bootstrap: no candidate, the last one 0xF1, the last one 0xF2. -/
theorem witness_BootcloseDecides :
    ∃ a b c : State,
      (a.phase = .boot ∧ a.bootcnt = a.cfg.w ∧ a.candv = false) ∧
      (b.phase = .boot ∧ b.bootcnt = b.cfg.w ∧ b.candv = true ∧ b.cand.toNat ≤ 1) ∧
      (c.phase = .boot ∧ c.bootcnt = c.cfg.w ∧ c.candv = true ∧ c.cand.toNat = 2) :=
  ⟨{ State.reset with bootcnt := 32 }, { State.reset with bootcnt := 32, candv := true, cand := 1#4 },
    { State.reset with bootcnt := 32, candv := true, cand := 2#4 }, by decide⟩

/-- A window of one byte, for 0xEF (none), 0xF1 (rejected) and 0xF2 (accepted). -/
theorem witness_BootstrapClosedForm : ∀ d ∈ [0xEF#8, 0xF1#8, 0xF2#8],
    ∃ (s : State) (offers rest : List Offer), Quiet s ∧ s.phase = .boot ∧ s.bootcnt = 0 ∧
      s.candv = false ∧ s.len = 0 ∧ s.seq = 0 ∧ offers.length = s.cfg.w ∧ 1 ≤ s.cfg.w ∧
      s.source = offers ++ rest ∧ offerBytes offers = [d] := fun d _ =>
  ⟨{ State.reset with cfg := { Config.default with w := 1 }, source := [⟨beatOf true d, .ok⟩] },
    [⟨beatOf true d, .ok⟩], [], by
      refine ⟨⟨rfl, rfl, rfl⟩, rfl, rfl, rfl, rfl, rfl, rfl, Nat.le_refl 1, rfl, ?_⟩
      simp [offerBytes]⟩

theorem witness_PushAppendsTheByte :
    ∃ s t : State, (s.phase = .run ∧ s.len < s.cfg.cap ∧ s.len + 1 ≠ s.cfg.cap) ∧
      (t.phase = .run ∧ t.len < t.cfg.cap ∧ t.len + 1 = t.cfg.cap ∧ BlockInv t ∧ SinkAnswers t) :=
  ⟨running 3 [], running 3 (List.replicate 29 0#8), by decide, rfl, by decide, by decide,
    blockInv_of _ (by decide) (fun _ => by decide) nofun (fun _ => by decide) nofun, by decide⟩

theorem witness_PushlAppendsAndEndsTheCycle :
    ∃ s : State, s.phase = .run ∧ s.len < s.cfg.cap ∧ BlockInv s ∧ SinkAnswers s :=
  ⟨offered [] [], rfl, by decide, blockInv_offered [], by decide⟩

theorem witness_ScanFindsTheRightmost :
    ∃ s t : State, (s.phase = .run ∧ CellsValid s ∧ Qualifies s 0) ∧
      (t.phase = .run ∧ CellsValid t ∧ ∀ p, ¬ Qualifies t p) :=
  ⟨oneFrame, full, ⟨rfl, by decide, by decide⟩, rfl, by decide,
    not_qualifies_of_scan _ (by decide) rfl⟩

theorem witness_CycleendWithoutAFrame :
    ∃ s t : State, (CycleInv s ∧ (∀ p, ¬ Qualifies s p) ∧ s.len ≠ s.cfg.cap) ∧
      (CycleInv t ∧ (∀ p, ¬ Qualifies t p) ∧ t.len = t.cfg.cap) :=
  ⟨running 1 [0xF2#8], full,
    ⟨⟨rfl, by decide, by decide, by decide, by decide⟩, not_qualifies_of_scan _ (by decide) rfl,
      by decide⟩,
    cycleInv_full, not_qualifies_of_scan _ (by decide) rfl, by decide⟩

/-- A frame found, with each of the sink's answers. -/
theorem witness_CycleendIsTheSubProceduresInOrder : ∀ ans ∈ [SinkAnswer.ok, .failAt 0, .never],
    ∃ s : State, CycleInv s ∧ s.ans = ans ∧ Qualifies s 0 ∧ ∀ q, Qualifies s q → q ≤ 0 := fun ans _ =>
  ⟨{ oneFrame with ans := ans }, ⟨rfl, cycleInv_oneFrame.cells, cycleInv_oneFrame.lenLe,
    cycleInv_oneFrame.cap, cycleInv_oneFrame.count⟩, rfl, ⟨Nat.le_refl 2, rfl⟩, fun q hq => by
      have h : q + 1 + 1 ≤ 2 := hq.1
      omega⟩

/-- The whole buffer, and one byte less. -/
theorem witness_DiscardKeepsTheResidual :
    ∃ s t : State, (s.phase = .run ∧ CellsValid s ∧ 0 + s.n.toNat + 1 = s.len) ∧
      (t.phase = .run ∧ CellsValid t ∧ 0 + t.n.toNat + 1 < t.len) :=
  ⟨oneFrame, running 1 [0xF2#8, 5#8, 6#8], by decide⟩

theorem witness_OvfrecDropsTheOldestHalf :
    ∃ s : State, s.phase = .run ∧ CellsValid s ∧ s.len = s.cfg.cap ∧ s.cfg.cap = 30 :=
  ⟨full, by decide⟩

/-- A full buffer with a marker at index 16, behind which fewer than `N` bytes stand. -/
theorem witness_OverflowDiscardsNoMarker :
    ∃ s : State, CycleInv s ∧ s.len = s.cfg.cap ∧ (∀ p, ¬ Qualifies s p) ∧
      readBuf s 16 = some s.m :=
  ⟨running 14 (List.replicate 16 0#8 ++ 0xFF#8 :: List.replicate 13 0#8),
    ⟨rfl, by decide, by decide, by decide, by decide⟩, by decide,
    not_qualifies_of_scan _ (by decide) rfl, by decide⟩

theorem witness_OneScanPerCycleIsEnough :
    ∃ s t : State, CycleInv s ∧ exec .cycleend s = .next t ∧ t.phase ≠ .fail :=
  ⟨oneFrame, _, cycleInv_oneFrame, rfl, by decide⟩

theorem witness_ForwardProgress :
    ∃ (d : Byte) (s t : State), s.phase = .run ∧ BlockInv s ∧
      (exec (.push d) s = .next t ∨ exec (.pushl d) s = .next t ∨ exec .reset s = .next t) ∧ t.phase ≠ .fail :=
  ⟨0xF2#8, offered [] [], _, rfl, blockInv_offered [], .inl rfl, by decide⟩

theorem witness_BufferIsASuffixOfTheStream :
    ∃ (d : Byte) (s t : State), s.phase = .run ∧ BlockInv s ∧
      (exec (.push d) s = .next t ∨ exec (.pushl d) s = .next t) ∧ t.phase ≠ .fail :=
  ⟨0xF2#8, offered [] [], _, rfl, blockInv_offered [], .inr rfl, by decide⟩

/-- A dropped older frame before the newest one. -/
theorem witness_NewestFrameWins :
    ∃ (s : State) (older payload : List Byte), CycleInv s ∧ SinkAnswers s ∧ s.ans = .ok ∧
      s.cfg.testmode = false ∧ contents s = older ++ s.m :: payload ∧
      payload.length = s.n.toNat ∧ older = [0xF2#8, 1#8] :=
  ⟨running 1 [0xF2#8, 1#8, 0xF2#8, 2#8], [0xF2#8, 1#8], [2#8],
    ⟨rfl, by decide, by decide, by decide, by decide⟩, by decide, rfl, rfl, by decide, by decide, rfl⟩

/-- One byte into an empty buffer, and a chunk of three. -/
theorem witness_ChunkIsAppendThenCycleend : ∀ bs ∈ [[], [0xF2#8, 1#8]],
    ∃ (s : State) (b : Byte) (ans : SinkAnswer) (rest : List Offer),
      BlockInv s ∧ Quiet s ∧ s.phase = .run ∧ s.len + (bs.length + 1) ≤ s.cfg.cap ∧
      s.source = (chunkBeats (bs ++ [b])).map (fun w => ⟨w, ans⟩) ++ rest := fun bs hb =>
  ⟨offered [] ((chunkBeats (bs ++ [7#8])).map (fun w => ⟨w, .ok⟩) ++ []), 7#8, .ok, [],
    blockInv_offered _, ⟨rfl, rfl, rfl⟩, rfl, by
      have : bs.length ≤ 2 := by revert bs; decide
      change 0 + (bs.length + 1) ≤ 30
      omega, rfl⟩

theorem witness_OneByteChunksParseGreedily :
    ∃ (s : State) (offers rest : List Offer), BlockInv s ∧ Quiet s ∧ s.phase = .run ∧
      (∀ p, ¬ Qualifies s p) ∧ s.cfg.testmode = false ∧ s.source = offers ++ rest ∧
      (∀ o ∈ offers, beatLast o.word = true ∧ o.ans = .ok) ∧ offers ≠ [] :=
  ⟨offered [] [⟨0x1F2#9, .ok⟩, ⟨0x107#9, .ok⟩], [⟨0x1F2#9, .ok⟩, ⟨0x107#9, .ok⟩], [],
    blockInv_offered _, ⟨rfl, rfl, rfl⟩, rfl, not_qualifies_of_scan _ (by decide) rfl, rfl, rfl,
    by decide, by decide⟩

theorem witness_SingleFrameAfterNoise :
    ∃ (s : State) (noise payload : List Byte) (offers rest : List Offer),
      BlockInv s ∧ Quiet s ∧ s.phase = .run ∧ s.cfg.testmode = false ∧ s.len = 0 ∧
      payload.length = s.n.toNat ∧ (∀ b ∈ noise, b ≠ s.m) ∧ s.source = offers ++ rest ∧
      offerBytes offers = noise ++ s.m :: payload ∧ (∀ o ∈ offers, o.ans = .ok) ∧
      (∀ o, offers.getLast? = some o → beatLast o.word = true) ∧ noise ≠ [] :=
  ⟨offered [] [⟨0x000#9, .ok⟩, ⟨0x0F2#9, .ok⟩, ⟨0x1F2#9, .ok⟩], [0#8], [0xF2#8],
    [⟨0x000#9, .ok⟩, ⟨0x0F2#9, .ok⟩, ⟨0x1F2#9, .ok⟩], [],
    blockInv_offered _, ⟨rfl, rfl, rfl⟩, rfl, rfl, rfl, by decide, by decide, rfl, by decide,
    by decide, fun o h => by cases h; decide, by decide⟩

/-- Noise, one frame, and the beginning of another. -/
theorem witness_WellFormedStreamsGiveTrueBatches :
    ∃ (s : State) (noise tail : List Byte) (frames : List (List Byte)) (offers rest : List Offer),
      BlockInv s ∧ Quiet s ∧ s.phase = .run ∧ s.cfg.testmode = false ∧ s.len = 0 ∧
      (∀ b ∈ noise, b ≠ s.m) ∧
      (∀ f ∈ frames, f.length = s.n.toNat ∧ ∀ b ∈ f, b ≠ s.m) ∧
      (tail = [] ∨ ∃ q, tail = s.m :: q ∧ q.length < s.n.toNat ∧ ∀ b ∈ q, b ≠ s.m) ∧
      s.source = offers ++ rest ∧
      offerBytes offers = noise ++ frames.flatMap (fun f => s.m :: f) ++ tail ∧
      (∀ o ∈ offers, o.ans = .ok) ∧ frames ≠ [] :=
  ⟨offered [] [⟨0x100#9, .ok⟩, ⟨0x0F2#9, .ok⟩, ⟨0x005#9, .ok⟩, ⟨0x1F2#9, .ok⟩], [0#8], [0xF2#8],
    [[5#8]], [⟨0x100#9, .ok⟩, ⟨0x0F2#9, .ok⟩, ⟨0x005#9, .ok⟩, ⟨0x1F2#9, .ok⟩], [],
    blockInv_offered _, ⟨rfl, rfl, rfl⟩, rfl, rfl, rfl, by decide, by decide,
    .inr ⟨[], rfl, by decide, nofun⟩, rfl, by decide, by decide, by decide⟩

theorem witness_DecodeTakesTheBytesVerbatim :
    ∃ s : State, s.phase = .run ∧ CellsValid s ∧ 0 + s.n.toNat + 1 = s.len := ⟨oneFrame, by decide⟩

/-- Test mode; the sink's answers OK, FAIL(0) and FAIL(N). -/
theorem witness_EmitPublishesTheBatch :
    ∃ (batch : List Byte) (a b c d : State),
      (a.phase = .run ∧ batch.length = a.n.toNat ∧ a.cfg.testmode = true) ∧
      (b.phase = .run ∧ batch.length = b.n.toNat ∧ b.cfg.testmode = false ∧ b.ans = .ok) ∧
      (c.phase = .run ∧ batch.length = c.n.toNat ∧ c.cfg.testmode = false ∧ c.ans = .failAt 0) ∧
      (d.phase = .run ∧ batch.length = d.n.toNat ∧ d.cfg.testmode = false ∧
        d.ans = .failAt d.n.toNat) :=
  ⟨[7#8], { running 1 [] with cfg := { Config.default with testmode := true } }, running 1 [],
    { running 1 [] with ans := .failAt 0 }, { running 1 [] with ans := .failAt 1 }, by decide⟩

theorem witness_SilentSinkStalls :
    ∃ (batch : List Byte) (s : State), s.phase = .run ∧ batch.length = s.n.toNat ∧
      s.cfg.testmode = false ∧ s.ans = .never :=
  ⟨[7#8], { running 1 [] with ans := .never }, by decide⟩

/-- `P = 0`; the new count no multiple of `P`; the new count a multiple of `P`. -/
theorem witness_SampleCountsAndReports :
    ∃ a b c : State,
      (a.phase = .run ∧ CellsValid a ∧ 0 + a.n.toNat + 1 = a.len ∧ a.cfg.p = 0) ∧
      (b.phase = .run ∧ CellsValid b ∧ 0 + b.n.toNat + 1 = b.len ∧ b.cfg.p ≠ 0 ∧
        (b.seq + 1) % 2 ^ b.cfg.seqW % b.cfg.p ≠ 0) ∧
      (c.phase = .run ∧ CellsValid c ∧ 0 + c.n.toNat + 1 = c.len ∧ c.cfg.p ≠ 0 ∧
        (c.seq + 1) % 2 ^ c.cfg.seqW % c.cfg.p = 0) :=
  ⟨oneFrame, { oneFrame with cfg := { Config.default with p := 2 } },
    { oneFrame with cfg := { Config.default with p := 1 } }, by decide⟩

/-- The block waits; a whole batch; a batch that the sink breaks off. -/
theorem witness_EvtTraceGrowsByWholeBatches :
    ∃ a a' b b' c c' : State,
      (a.cfg.testmode = false ∧ step a = .next a' ∧ a'.evt = a.evt) ∧
      (b.cfg.testmode = false ∧ step b = .next b' ∧ b'.evt ≠ b.evt ∧ b'.phase = .run) ∧
      (c.cfg.testmode = false ∧ step c = .next c' ∧ c'.phase = .fail) :=
  ⟨State.reset, _, offered [0xF2#8] [⟨0x105#9, .ok⟩], _, offered [0xF2#8] [⟨0x105#9, .failAt 1⟩], _,
    ⟨rfl, rfl, rfl⟩, ⟨rfl, rfl, by decide, rfl⟩, rfl, rfl, rfl⟩

/-- A step in test mode, and an operation there that finds a frame. -/
theorem witness_TestModeOnlySilencesTheSink :
    ∃ s t u : State, s.cfg.testmode = true ∧ step s = .next t ∧ exec .cycleend s = .next u ∧
      u.seq = 1 :=
  ⟨{ oneFrame with cfg := { Config.default with testmode := true } }, _, _, rfl, rfl, rfl, rfl⟩

theorem witness_SamplePeriodHasNoInfluence :
    ∃ s t : State, BlockInv s ∧ step s = .next t :=
  ⟨offered [] [⟨0x1F2#9, .ok⟩], _, blockInv_offered _, rfl⟩

theorem witness_SrcerrRaisesReadErrorOnce :
    ∃ s t : State, s.phase ≠ .fail ∧ t.phase = .fail := ⟨State.reset, failed .readError, by decide⟩

/-- In each phase. -/
theorem witness_StepKeepsInv :
    ∃ a a' b b' c c' : State, (BlockInv a ∧ step a = .next a' ∧ a.phase = .boot) ∧
      (BlockInv b ∧ step b = .next b' ∧ b.phase = .run) ∧
      (BlockInv c ∧ step c = .next c' ∧ c.phase = .fail) :=
  ⟨_, _, _, _, _, _, ⟨blockInv_reset, rfl, rfl⟩,
    ⟨blockInv_offered [⟨0x1F2#9, .ok⟩], rfl, rfl⟩, blockInv_failed, rfl, rfl⟩

theorem witness_StepsComplete : ∃ s : State, BlockInv s ∧ s.source = [⟨0x1F2#9, .ok⟩] :=
  ⟨_, blockInv_offered _, rfl⟩

/-- A step into each phase, from another one. -/
theorem witness_PhaseChanges :
    ∃ a a' b b' c c' : State, (step a = .next a' ∧ a.phase = .fail ∧ a'.phase = .boot) ∧
      (step b = .next b' ∧ b.phase = .boot ∧ b'.phase = .run) ∧
      (step c = .next c' ∧ c.phase = .run ∧ c'.phase = .fail) :=
  ⟨{ failed .readError with resetPin := true }, _,
    { State.reset with cfg := { Config.default with w := 1 }, source := [⟨0x1F2#9, .ok⟩] }, _,
    offered [0xF2#8] [⟨0x105#9, .failAt 1⟩], _, ⟨rfl, rfl, rfl⟩, ⟨rfl, rfl, rfl⟩, rfl, rfl, rfl⟩

/-- A beat and a SRCERR are presented in phase FAIL. -/
theorem witness_FailIsTerminal :
    ∃ s : State, s.phase = .fail ∧ (arrive s).resetPin = false ∧ (arrive s).srcerrPin = true ∧
      (arrive s).source ≠ [] :=
  ⟨{ failed .readError with srcerrPin := true, source := [⟨0x0F4#9, .ok⟩] }, by decide⟩

theorem witness_FormatIsFixedInARun :
    ∃ s t : State, s.phase = .run ∧ step s = .next t ∧ t.phase = .run :=
  ⟨offered [] [⟨0x0F4#9, .ok⟩], _, rfl, rfl, rfl⟩

theorem witness_ConfigurationIsConstant :
    ∃ s t u : State, exec .cycleend s = .next t ∧ step s = .next u := ⟨oneFrame, _, _, rfl, rfl⟩

/-- RESET; SRCERR alone; a beat in each phase; nothing. -/
theorem witness_EventPriority :
    ∃ a b c d e f : State,
      ((arrive a).resetPin = true ∧ (arrive a).srcerrPin = true) ∧
      ((arrive b).resetPin = false ∧ (arrive b).srcerrPin = true) ∧
      ((arrive c).resetPin = false ∧ (arrive c).srcerrPin = false ∧ (arrive c).source ≠ [] ∧
        (arrive c).phase = .boot) ∧
      ((arrive d).resetPin = false ∧ (arrive d).srcerrPin = false ∧ (arrive d).source ≠ [] ∧
        (arrive d).phase = .run) ∧
      ((arrive e).resetPin = false ∧ (arrive e).srcerrPin = false ∧ (arrive e).source ≠ [] ∧
        (arrive e).phase = .fail) ∧
      ((arrive f).resetPin = false ∧ (arrive f).srcerrPin = false ∧ (arrive f).source = []) :=
  ⟨{ State.reset with resetPin := true, srcerrPin := true }, { State.reset with srcerrPin := true },
    { State.reset with source := [⟨0x0F4#9, .ok⟩] }, offered [] [⟨0x0F4#9, .ok⟩],
    { failed .readError with source := [⟨0x0F4#9, .ok⟩] }, State.reset, by decide⟩

theorem witness_StepRunsTheDecodedInstruction :
    ∃ (s u : State) (sig : Signal) (i : Instr), (fetch (arrive s) = some sig ∧ decode sig = .ok i) ∧
      fetch (arrive u) = none :=
  ⟨offered [] [⟨0x1F4#9, .ok⟩], State.reset, .runBeat 0x1F4#9, .pushl 0xF4#8, ⟨rfl, rfl⟩, rfl⟩

theorem witness_PlacedWordRunsNext :
    (0x1FF < 0x200 ∧ decodeTableWord 16 0x1FF = some (.pushl 0xFF#8)) ∧
    (0xF0 < 0x200 ∧ decodeTableWord 8 0xF0 = some (.bcand false 0#4)) := by decide

theorem witness_StatusPortsShowTheRegisters :
    ∃ s t : State, (BlockInv s ∧ s.phase = .run) ∧ (BlockInv t ∧ t.phase = .boot) :=
  ⟨_, _, ⟨blockInv_offered [], rfl⟩, blockInv_reset, rfl⟩

theorem witness_EvtRowsAppendTheirEvent :
    ∃ s t : State, (s.phase = .run ∧ s.cfg.testmode = false) ∧
      ¬ (t.phase = .run ∧ t.cfg.testmode = false) := ⟨running 1 [], State.reset, by decide⟩

/-- A state for each clause; an index one too high, a full buffer. -/
theorem witness_StopsAreNamed :
    (failed .readError).phase = .fail ∧ oneFrame.phase = .run ∧ State.reset.phase = .boot ∧
    ¬ (State.reset.phase = .boot ∧ State.reset.bootcnt = State.reset.cfg.w) ∧
    State.reset.phase ≠ .run ∧ oneFrame.len ≠ oneFrame.cfg.cap ∧
    ([] : List Byte).length ≠ oneFrame.n.toNat ∧
    (oneFrame.len < 1 + oneFrame.n.toNat + 1 ∧ 1 ≤ oneFrame.n.toNat) ∧
    (∃ s : State, s.phase = .run ∧ s.len < 1 + s.n.toNat + 1 ∧ s.cfg.p ≠ 0 ∧
      (s.seq + 1) % 2 ^ s.cfg.seqW % s.cfg.p = 0) ∧
    full.cfg.cap ≤ full.len := by
  refine ⟨rfl, rfl, rfl, by decide, by decide, by decide, by decide, by decide,
    ⟨{ oneFrame with cfg := { Config.default with p := 1 } }, by decide⟩, by decide⟩

/-- The shortest frame, `N = 1`, at the head of the buffer; and a frame whose last byte leaves room
for one byte only. -/
theorem witness_CompletedFrameWaitsAfterPush :
    ∃ s t : State, (BlockInv s ∧ s.phase = .run ∧ s.len + 1 < s.cfg.cap ∧ 0 + s.n.toNat = s.len ∧
        readBuf s 0 = some s.m) ∧
      (BlockInv t ∧ t.phase = .run ∧ t.len + 1 < t.cfg.cap ∧ 27 + t.n.toNat = t.len ∧
        readBuf t 27 = some t.m ∧ t.len + 2 = t.cfg.cap) :=
  ⟨running 1 [0xF2#8], running 1 (List.replicate 27 0#8 ++ [0xF2#8]),
    ⟨blockInv_of _ (by decide) (fun _ => by decide) nofun (fun _ => by decide) nofun, by decide⟩,
    blockInv_of _ (by decide) (fun _ => by decide) nofun (fun _ => by decide) nofun, by decide⟩

/-- A beat that ends its read; a beat that fills the buffer; no beat taken, in phase BOOT. -/
theorem witness_NoFrameWaitsBetweenReadCycles :
    ∃ a a' b b' u u' : State,
      (BlockInv a ∧ NoFrameWaits a ∧ EndsReadCycle (arrive a) ∧ step a = .next a' ∧
        a.phase = .run) ∧
      (BlockInv b ∧ NoFrameWaits b ∧ EndsReadCycle (arrive b) ∧ step b = .next b' ∧
        b.len + 1 = b.cfg.cap ∧ b.source = [⟨0x000#9, .ok⟩]) ∧
      (BlockInv u ∧ NoFrameWaits u ∧ EndsReadCycle (arrive u) ∧ step u = .next u' ∧
        u.phase = .boot) :=
  ⟨offered [] [⟨0x1F2#9, .ok⟩], _, offered (List.replicate 29 0#8) [⟨0x000#9, .ok⟩], _,
    { State.reset with cfg := { Config.default with w := 1 } }, _,
    ⟨blockInv_offered _, fun _ => not_qualifies_of_scan _ (by decide) rfl,
      fun _ _ _ o rest h => by cases h; exact .inl (by decide), rfl, rfl⟩,
    ⟨blockInv_of _ (by decide) (fun _ => by decide) nofun (fun _ => by decide) nofun,
      fun _ => not_qualifies_of_scan _ (by decide) rfl,
      fun _ _ _ o rest h => .inr rfl, rfl, rfl, rfl⟩,
    blockInv_reset, nofun, nofun, rfl, rfl⟩

end Sys2Proof.Tests
end

section
/-! O49: the configuration is constant (00_scope.md R7, 10_state.md R35).  Each shared operation
keeps the configuration in every state it can end in; every instruction is one of them behind its
guard, and a step is a gap of the environment followed by an instruction, or waiting. -/

namespace Sys2Proof.Machine

/-! ### The shared operations -/

theorem bootClose_keeps_cfg {s t : State} (h : (bootClose s).outcome = .next t) :
    t.cfg = s.cfg := by
  rcases bootClose_cases s with ⟨-, e⟩ | ⟨-, e⟩
  · rw [e] at h; cases h; rfl
  · rw [e] at h; cases h; rfl

theorem countBootByte_keeps_cfg {s t : State} (h : (countBootByte s).outcome = .next t) :
    t.cfg = s.cfg := by
  rcases countBootByte_cases s with ⟨-, e⟩ | ⟨-, -, e⟩ | ⟨-, -, -, e⟩
  · rw [e] at h; cases h; rfl
  · rw [e] at h; cases h; rfl
  · rw [e] at h; cases h; rfl

theorem emitBatch_keeps_cfg {batch : List Byte} {s t : State}
    (h : (emitBatch batch s).outcome = .next t) : t.cfg = s.cfg := by
  rcases emitBatch_cases batch s with ⟨-, e⟩ | ⟨-, -, e⟩ | ⟨k, -, -, e⟩ | ⟨-, -, e⟩
  · rw [e] at h; cases h; rfl
  · rw [e] at h; cases h; rfl
  · rw [e] at h; cases h; rfl
  · rw [e] at h; cases h

theorem sampleFrame_keeps_cfg {p : Nat} {s t : State} (h : (sampleFrame p s).outcome = .next t) :
    t.cfg = s.cfg := by
  rcases Flow.outcome_eq_next h with h | h
  · rw [sampleFrame_eq_go h]
  · exact absurd h sampleFrame_ne_raised

theorem discardFrame_keeps_cfg {p : Nat} {s t : State} (h : (discardFrame p s).outcome = .next t) :
    t.cfg = s.cfg := by
  rcases Flow.outcome_eq_next h with h | h
  · rw [(discardFrame_eq_go h).1]
  · exact absurd h discardFrame_ne_raised

theorem overflowRecovery_keeps_cfg {s t : State} (h : (overflowRecovery s).outcome = .next t) :
    t.cfg = s.cfg := by
  rcases Flow.outcome_eq_next h with h | h
  · rw [keepNewest_eq_go h]
  · exact absurd h keepNewest_ne_raised

theorem cycleEnd_keeps_cfg {s t : State} (h : (cycleEnd s).outcome = .next t) :
    t.cfg = s.cfg := by
  rcases Flow.outcome_eq_next h with h | h
  · rcases cycleEnd_eq_go h with e | ⟨batch, hproc⟩
    · rw [e]
    · rw [hproc.state]
  · obtain ⟨batch, k, hfail⟩ := cycleEnd_eq_raised h
    rw [hfail.state, trap_cfg, emitEvt_cfg]

theorem beatFlow_keeps_cfg {last : Bool} {d : Byte} {s t : State}
    (h : (beatFlow last d s).outcome = .next t) : t.cfg = s.cfg := by
  rcases Flow.outcome_eq_next h with h | h
  · rcases beatFlow_eq_go h with e | ⟨batch, hproc⟩
    · rw [e]
    · rw [hproc.state]
  · obtain ⟨batch, k, -, -, -, a, ha, ht⟩ := beatFlow_eq_raised h
    rw [ht, trap_cfg, emitEvt_cfg, ha]

/-! ### The instructions -/

/-- PUSH is the beat of phase RUN with `last = 0` (30_encoding.md R84). -/
theorem execPush_eq_beatFlow (d : Byte) (s : State) :
    execPush d s = inPhase .run s (beatFlow false d s) := by
  simp [execPush, beatFlow]

/-- PUSHL is the beat of phase RUN with `last = 1` (30_encoding.md R84). -/
theorem execPushl_eq_beatFlow (d : Byte) (s : State) :
    execPushl d s = inPhase .run s (beatFlow true d s) := by
  simp [execPushl, beatFlow]

theorem execSrcerr_keeps_cfg {s t : State} (h : execSrcerr s = .next t) : t.cfg = s.cfg := by
  unfold execSrcerr at h
  split at h
  · cases h; rfl
  · cases h; exact trap_cfg _ s

theorem portEvent_keeps_cfg {e : EvtEvent} {s t : State} (h : portEvent e s = .next t) :
    t.cfg = s.cfg := by
  cases (whenCalled_eq_next h).2
  exact emitEvt_cfg [e] s

/-- SCAN hands its position over in `result` and writes nothing else. -/
theorem execScan_keeps_cfg {s t : State} (h : execScan s = .next t) : t.cfg = s.cfg := by
  have hflow := (whenCalled_eq_next h).2
  split at hflow
  · cases hflow
  · cases hflow; rfl

/-- DECODE hands its batch over in `result` and writes nothing else. -/
theorem execDecode_keeps_cfg {p : Nat} {s t : State} (h : execDecode p s = .next t) :
    t.cfg = s.cfg := by
  have hflow := (whenCalled_eq_next h).2
  split at hflow
  · cases hflow
  · cases hflow; rfl

/-- Every instruction is a shared operation behind its guard.  BCAND records the candidate before it
counts the byte, which leaves the configuration alone (the `rfl`). -/
theorem exec_keeps_cfg {i : Instr} {s t : State} (h : exec i s = .next t) : t.cfg = s.cfg := by
  cases i with
  | bskip _ _ => exact countBootByte_keeps_cfg (inPhase_eq_next h).2
  | bcand _ _ => exact (countBootByte_keeps_cfg (inPhase_eq_next h).2).trans rfl
  | push d => exact beatFlow_keeps_cfg (inPhase_eq_next ((execPush_eq_beatFlow d s).symm.trans h)).2
  | pushl d =>
    exact beatFlow_keeps_cfg (inPhase_eq_next ((execPushl_eq_beatFlow d s).symm.trans h)).2
  | reset => cases h; exact resetBlock_cfg s
  | srcerr => exact execSrcerr_keeps_cfg h
  | wireMarker _ => cases h; exact holdByte_cfg _ s
  | wirePayload v => cases h; exact holdByte_cfg v s
  | evtAxis _ _ => exact portEvent_keeps_cfg h
  | evtSync => exact portEvent_keeps_cfg h
  | bootclose => exact bootClose_keeps_cfg (whenCalled_eq_next h).2
  | cycleend => exact cycleEnd_keeps_cfg (whenCalled_eq_next h).2
  | scan => exact execScan_keeps_cfg h
  | discard _ => exact discardFrame_keeps_cfg (whenCalled_eq_next h).2
  | ovfrec => exact overflowRecovery_keeps_cfg (whenCalled_eq_next h).2
  | decode _ => exact execDecode_keeps_cfg h
  | emit _ => exact emitBatch_keeps_cfg (whenCalled_eq_next h).2
  | sample _ => exact sampleFrame_keeps_cfg (whenCalled_eq_next h).2

/-! ### The step -/

/-- No step changes the configuration: the environment's gap keeps it (`arrive_cfg`), taking an
event writes pins and queues only (the `rfl`s below), and the event's instruction keeps it. -/
theorem step_keeps_cfg {s t : State} (h : step s = .next t) : t.cfg = s.cfg := by
  rw [← arrive_cfg s]
  cases step_kind s with
  | reset _ e => exact (exec_keeps_cfg (e.symm.trans h)).trans rfl
  | srcerr _ _ e => exact (exec_keeps_cfg (e.symm.trans h)).trans rfl
  | bootBeat _ _ _ _ _ _ e => exact (exec_keeps_cfg (e.symm.trans h)).trans rfl
  | runBeat _ _ _ _ _ _ e => exact (exec_keeps_cfg (e.symm.trans h)).trans rfl
  | wait _ _ _ e => cases e.symm.trans h; rfl

/-- Settles O49: the configuration is kept by every instruction, hence by every step. -/
theorem configurationIsConstant : Obligations.ConfigurationIsConstant :=
  ⟨fun _ _ _ => exec_keeps_cfg, fun _ _ => step_keeps_cfg⟩

end Sys2Proof.Machine
end

section
/-! O44: every step keeps the invariant of 10_state.md R31.  What the invariant says of a state is
untouched by the environment's pins and queues; each of the block's own writes (a raise, RESET, a
bootstrap byte, a beat of phase RUN) establishes it again; a step is one of these or waiting. -/

namespace Sys2Proof.Machine

/-! ### What the invariant says at once -/

theorem BlockInv.cap_ge {s : State} (h : BlockInv s) : 30 ≤ s.cfg.cap := by
  obtain ⟨-, hcap, -, -⟩ := h.config
  exact hcap

theorem BlockInv.cells_of_run {s : State} (h : BlockInv s) (hp : s.phase = .run) : CellsValid s :=
  h.cells (by rw [hp]; nofun)

theorem BlockInv.len_lt_of_run {s : State} (h : BlockInv s) (hp : s.phase = .run) :
    s.len < s.cfg.cap := by
  obtain ⟨-, -, -, -, hl⟩ := h.run hp
  exact hl

/-! ### What the invariant does not speak of -/

/-- The invariant says nothing of the pins, the queues and the sink's answer. -/
theorem BlockInv.with_environment {s : State} (h : BlockInv s) (resetPin srcerrPin : Bool)
    (source : List Offer) (wire : List Byte) (script : List (List EnvAction)) (ans : SinkAnswer) :
    BlockInv { s with resetPin, srcerrPin, source, wire, script, ans } :=
  ⟨h.config, h.canonical, h.lenLe, h.seqLt, h.transient, h.cells, h.boot, h.run, h.fail⟩

theorem arrive_keeps_blockInv {s : State} (h : BlockInv s) : BlockInv (arrive s) := by
  rw [arrive_sameButQueues s]
  exact h.with_environment _ _ _ _ _ _

theorem takeBeat_keeps_blockInv {s : State} (h : BlockInv s) (o : Offer) (rest : List Offer) :
    BlockInv (takeBeat o rest s) :=
  h.with_environment _ _ _ _ _ _

@[simp] theorem noteCandidate_phase (w : BeatWord) (s : State) :
    (noteCandidate w s).phase = s.phase := by
  unfold noteCandidate; split <;> rfl

@[simp] theorem noteCandidate_len (w : BeatWord) (s : State) : (noteCandidate w s).len = s.len := by
  unfold noteCandidate; split <;> rfl

/-- Nor does it speak of the candidate. -/
theorem noteCandidate_keeps_blockInv {s : State} (h : BlockInv s) (w : BeatWord) :
    BlockInv (noteCandidate w s) := by
  unfold noteCandidate
  split
  · exact ⟨h.config, h.canonical, h.lenLe, h.seqLt, h.transient, h.cells, h.boot, h.run, h.fail⟩
  · exact h

/-! ### The trap entry and RESET -/

/-- A raise leaves every register in its range, whatever it finds (60_exceptions.md R208). -/
theorem blockInv_trap {e : Err} {s : State} (hcfg : s.cfg.ok) (hres : s.result = none)
    (he : e ≠ .none) : BlockInv (trap e s) where
  config := hcfg
  canonical := rfl
  lenLe := Nat.le_of_lt_succ (Nat.mod_lt _ (Nat.succ_pos _))
  seqLt := Nat.mod_lt _ (Nat.two_pow_pos _)
  transient := hres
  cells hp := absurd rfl hp
  boot := nofun
  run := nofun
  fail _ := he

theorem blockInv_resetBlock {s : State} (hcfg : s.cfg.ok) (hres : s.result = none) :
    BlockInv (resetBlock s) where
  config := hcfg
  canonical := rfl
  lenLe := Nat.zero_le _
  seqLt := Nat.two_pow_pos _
  transient := hres
  cells _ := rfl
  boot _ := ⟨rfl, rfl, hcfg.1, rfl⟩
  run := nofun
  fail := nofun

/-- SRCERR raises, or in phase FAIL changes nothing (44_system.md R183, R184). -/
theorem execSrcerr_eq (s : State) :
    execSrcerr s = .next (if s.phase = .fail then s else trap .readError s) := by
  unfold execSrcerr; split <;> rfl

theorem execSrcerr_keeps_blockInv {s t : State} (h : BlockInv s) (he : execSrcerr s = .next t) :
    BlockInv t := by
  rw [execSrcerr_eq] at he
  cases he
  split
  · exact h
  · exact blockInv_trap h.config h.transient nofun

/-! ### A beat of phase BOOT -/

/-- A byte counted inside the bootstrap window. -/
theorem countInWindow_keeps_blockInv {b : State} (h : BlockInv b) (hp : b.phase = .boot)
    (hw : b.bootcnt + 1 ≠ b.cfg.w) : BlockInv { b with bootcnt := b.bootcnt + 1 } := by
  obtain ⟨hlen, hseq, hcnt, herr⟩ := h.boot hp
  exact ⟨h.config, h.canonical, h.lenLe, h.seqLt, h.transient, h.cells,
    fun _ => ⟨hlen, hseq, Nat.lt_of_le_of_ne hcnt hw, herr⟩, h.run, h.fail⟩

/-- The marker of `k` channels, as a number (30_encoding.md R78). -/
theorem toNat_markerOf {k : Nat} (hk : k ≤ 14) : (markerOf k).toNat = 0xF0 + k + 1 := by
  rw [markerOf, BitVec.toNat_ofNat]; omega

/-- The bootstrap closed with a count of `k` channels: the buffer is still empty. -/
theorem enterRun_keeps_blockInv {b : State} (h : BlockInv b) (hp : b.phase = .boot) {k : Nat}
    (hk₁ : 1 ≤ k) (hk₂ : k ≤ 14) (c : Nat) :
    BlockInv (enterRun k { b with bootcnt := c }) := by
  obtain ⟨hlen, -, -, herr⟩ := h.boot hp
  have hn : (BitVec.ofNat 4 k).toNat = k := by rw [BitVec.toNat_ofNat]; omega
  have hfree : b.len < b.cfg.cap := by have := h.cap_ge; omega
  refine ⟨h.config, h.canonical, h.lenLe, h.seqLt, h.transient,
    fun _ => h.cells (by rw [hp]; nofun), nofun, fun _ => ?_, nofun⟩
  rw [enterRun_n, enterRun_m, enterRun_len, enterRun_cfg, hn, toNat_markerOf hk₂]
  exact ⟨hk₁, hk₂, rfl, herr, hfree⟩

theorem countBootByte_keeps_blockInv {b t : State} (h : BlockInv b) (hp : b.phase = .boot)
    (he : (countBootByte b).outcome = .next t) : BlockInv t := by
  rcases countBootByte_cases b with ⟨hw, e⟩ | ⟨-, -, e⟩ | ⟨-, -, hc, e⟩
  · rw [e] at he; cases he
    exact countInWindow_keeps_blockInv h hp hw
  · rw [e] at he; cases he
    exact blockInv_trap h.config h.transient nofun
  · rw [e] at he; cases he
    have := b.cand.isLt
    exact enterRun_keeps_blockInv h hp (by omega) (by omega) _

/-! ### A beat of phase RUN -/

/-- The sequence number wraps within its width (43_diagnostics.md R166). -/
theorem nextSeq_lt (s : State) : nextSeq s < 2 ^ s.cfg.seqW := Nat.mod_lt _ (Nat.two_pow_pos _)

theorem beatFlow_keeps_blockInv {last : Bool} {d : Byte} {s t : State} (h : BlockInv s)
    (hp : s.phase = .run) (he : (beatFlow last d s).outcome = .next t) : BlockInv t := by
  obtain ⟨hn₁, hn₂, hm, herr, -⟩ := h.run hp
  rcases Flow.outcome_eq_next he with hgo | hraised
  · obtain ⟨hv, -, hl, hphase, hn', hm', hcfg, herr', hseq, hres, -⟩ :=
      beatFlow_go_spec (h.cells_of_run hp) h.cap_ge (h.len_lt_of_run hp) hgo
    have hrun : t.phase = .run := hphase.trans hp
    refine ⟨hcfg ▸ h.config, hv.wf, by rw [hcfg]; exact Nat.le_of_lt hl, ?_, hres.trans h.transient,
      fun _ => hv, by rw [hrun]; nofun, fun _ => ?_, by rw [hrun]; nofun⟩
    · rw [hcfg]
      rcases hseq with e | e
      · rw [e]; exact h.seqLt
      · rw [e]; exact nextSeq_lt s
    · rw [hn', hm', herr', hcfg]
      exact ⟨hn₁, hn₂, hm, herr, hl⟩
  · obtain ⟨batch, k, -, -, -, a, ha, rfl⟩ := beatFlow_eq_raised hraised
    refine blockInv_trap ?_ ?_ nofun
    · rw [emitEvt_cfg, ha]; exact h.config
    · rw [emitEvt_result, ha]; exact h.transient

/-! ### The step -/

theorem step_keeps_blockInv {s t : State} (h : BlockInv s) (hs : step s = .next t) : BlockInv t := by
  have ha := arrive_keeps_blockInv h
  cases step_kind s with
  | reset _ e =>
    cases e.symm.trans hs
    exact blockInv_resetBlock ha.config ha.transient
  | srcerr _ _ e =>
    exact execSrcerr_keeps_blockInv (ha.with_environment _ _ _ _ _ _) (e.symm.trans hs)
  | bootBeat _ _ hp o rest _ e =>
    rw [exec_decodeBoot o.word (takeBeat o rest _) hp] at e
    have hnoted := noteCandidate_keeps_blockInv (takeBeat_keeps_blockInv ha o rest) o.word
    exact countBootByte_keeps_blockInv hnoted ((noteCandidate_phase _ _).trans hp) (e.symm.trans hs)
  | runBeat _ _ hp o rest _ e =>
    rw [exec_decodeRun o.word (takeBeat o rest _) hp] at e
    exact beatFlow_keeps_blockInv (takeBeat_keeps_blockInv ha o rest) hp (e.symm.trans hs)
  | wait _ _ _ e =>
    cases e.symm.trans hs
    exact ha

/-- Settles O44: the environment's gap keeps the invariant, and every operation a step can take
does. -/
theorem stepKeepsInv : Obligations.StepKeepsInv := fun _ _ => step_keeps_blockInv

end Sys2Proof.Machine
end

section
/-! O45: every step completes, or the sink never answers.  A bootstrap byte, a pin event and waiting
always give a next state; a beat of phase RUN appends to a buffer that is not full and reads valid
cells only, so the one stop left is the sink's (70_reset_and_hazards.md R246). -/

namespace Sys2Proof.Machine

/-- The operation gives a next state, or it asked for an answer of a sink that never gives one. -/
def CompletesOrStalls (f : Flow) (s : State) : Prop :=
  (∃ t, f.outcome = .next t) ∨
    (f.outcome = .fault .sinkNeverAnswers ∧ s.cfg.testmode = false ∧ s.ans = .never)

theorem countBootByte_completes (b : State) : ∃ t, (countBootByte b).outcome = .next t := by
  rcases countBootByte_cases b with ⟨-, e⟩ | ⟨-, -, e⟩ | ⟨-, -, -, e⟩
  · exact ⟨_, by rw [e]; rfl⟩
  · exact ⟨_, by rw [e]; rfl⟩
  · exact ⟨_, by rw [e]; rfl⟩

theorem cycleEnd_completesOrStalls (s : State) (hv : CellsValid s) (hcap : 30 ≤ s.cfg.cap) :
    CompletesOrStalls (cycleEnd s) s := by
  cases cycle_kind s hv hcap with
  | wait _ _ e => exact .inl ⟨_, by rw [e]; rfl⟩
  | overflow _ _ e => exact .inl ⟨_, by rw [e]; rfl⟩
  | frame _ _ _ _ e => exact .inl ⟨_, by rw [e]; rfl⟩
  | sinkFails _ _ _ _ _ _ e => exact .inl ⟨_, by rw [e]; rfl⟩
  | sinkSilent _ _ _ ht ha e => exact .inr ⟨by rw [e]; rfl, ht, ha⟩

theorem beatFlow_completesOrStalls (last : Bool) (d : Byte) (s : State) (hv : CellsValid s)
    (hcap : 30 ≤ s.cfg.cap) (hl : s.len < s.cfg.cap) :
    CompletesOrStalls (beatFlow last d s) s := by
  rw [beatFlow_cells last d s hv hl]
  split
  · exact cycleEnd_completesOrStalls (pushed d s) (pushed_cells d s hv).1 hcap
  · exact .inl ⟨_, rfl⟩

/-- Settles O45: of the events a step can take, only a beat of phase RUN can stall. -/
theorem stepsComplete : Obligations.StepsComplete := by
  intro s h
  have ha := arrive_keeps_blockInv h
  cases step_kind s with
  | reset _ e => exact .inl ⟨_, e⟩
  | srcerr _ _ e => exact .inl ⟨_, e.trans (execSrcerr_eq _)⟩
  | bootBeat _ _ hp o rest _ e =>
    rw [exec_decodeBoot o.word (takeBeat o rest _) hp] at e
    obtain ⟨t, ht⟩ := countBootByte_completes (noteCandidate o.word (takeBeat o rest (arrive s)))
    exact .inl ⟨t, e.trans ht⟩
  | runBeat _ _ hp o rest hs e =>
    rw [exec_decodeRun o.word (takeBeat o rest _) hp] at e
    have hb := takeBeat_keeps_blockInv ha o rest
    rcases beatFlow_completesOrStalls (beatLast o.word) (beatData o.word) _
      (hb.cells_of_run hp) hb.cap_ge (hb.len_lt_of_run hp) with ⟨t, ht⟩ | ⟨hstop, htest, hans⟩
    · exact .inl ⟨t, e.trans ht⟩
    · exact .inr ⟨e.trans hstop, arrive_cfg s ▸ htest, hp, o, rest, hs, hans⟩
  | wait _ _ _ e => exact .inl ⟨_, e⟩

end Sys2Proof.Machine
end

section
/-! O60: between read cycles no frame waits (10_state.md R31, the last clause of (c)).  Outside phase
RUN there is nothing to show; phase RUN is entered with an empty buffer; and a beat that ends its
read cycle runs CYCLEEND, whose one scan is enough (41_synchronizer.md R134). -/

namespace Sys2Proof.Machine

theorem noFrameWaits_of_phase_ne {s : State} (h : s.phase ≠ .run) : NoFrameWaits s :=
  fun hp => absurd hp h

/-- A frame has at least its marker. -/
theorem noFrameWaits_of_len_eq_zero {s : State} (h : s.len = 0) : NoFrameWaits s :=
  fun _ p hq => by have := hq.1; omega

/-- The clause says nothing of the environment's pins and queues. -/
theorem arrive_keeps_noFrameWaits {s : State} (h : NoFrameWaits s) : NoFrameWaits (arrive s) := by
  rw [arrive_sameButQueues s]
  exact h

theorem execSrcerr_phase {s t : State} (h : execSrcerr s = .next t) : t.phase = .fail := by
  rw [execSrcerr_eq] at h
  cases h
  split
  · assumption
  · rfl

/-- A bootstrap byte raises, or leaves `LEN` as it was. -/
theorem countBootByte_phase_fail_or_len {b t : State} (h : (countBootByte b).outcome = .next t) :
    t.phase = .fail ∨ t.len = b.len := by
  rcases countBootByte_cases b with ⟨-, e⟩ | ⟨-, -, e⟩ | ⟨-, -, -, e⟩
  · rw [e] at h; cases h; exact .inr rfl
  · rw [e] at h; cases h; exact .inl rfl
  · rw [e] at h; cases h; exact .inr rfl

theorem countBootByte_noFrameWaits {b t : State} (hb : BlockInv b) (hp : b.phase = .boot)
    (h : (countBootByte b).outcome = .next t) : NoFrameWaits t := by
  rcases countBootByte_phase_fail_or_len h with hfail | hlen
  · exact noFrameWaits_of_phase_ne (by rw [hfail]; nofun)
  · exact noFrameWaits_of_len_eq_zero (hlen.trans (hb.boot hp).1)

/-- A beat that ends its read cycle: `last = 1`, or it fills the buffer (30_encoding.md R82). -/
theorem beatFlow_noFrameWaits {last : Bool} {d : Byte} {s t : State} (hs : BlockInv s)
    (hp : s.phase = .run) (hend : last = true ∨ s.len + 1 = s.cfg.cap)
    (h : (beatFlow last d s).outcome = .next t) : NoFrameWaits t := by
  rcases Flow.outcome_eq_next h with hgo | hraised
  · obtain ⟨-, -, -, -, -, -, -, -, -, -, hnone⟩ :=
      beatFlow_go_spec (hs.cells_of_run hp) hs.cap_ge (hs.len_lt_of_run hp) hgo
    exact fun _ => hnone hend
  · obtain ⟨batch, k, -, -, -, a, -, rfl⟩ := beatFlow_eq_raised hraised
    exact noFrameWaits_of_phase_ne nofun

theorem step_noFrameWaits {s t : State} (h : BlockInv s) (hwait : NoFrameWaits s)
    (hends : EndsReadCycle (arrive s)) (hs : step s = .next t) : NoFrameWaits t := by
  have ha := arrive_keeps_blockInv h
  cases step_kind s with
  | reset _ e =>
    cases e.symm.trans hs
    exact noFrameWaits_of_phase_ne nofun
  | srcerr _ _ e =>
    exact noFrameWaits_of_phase_ne (by rw [execSrcerr_phase (e.symm.trans hs)]; nofun)
  | bootBeat _ _ hp o rest _ e =>
    rw [exec_decodeBoot o.word (takeBeat o rest _) hp] at e
    have hnoted := noteCandidate_keeps_blockInv (takeBeat_keeps_blockInv ha o rest) o.word
    exact countBootByte_noFrameWaits hnoted ((noteCandidate_phase _ _).trans hp) (e.symm.trans hs)
  | runBeat hr hsrc hp o rest hq e =>
    rw [exec_decodeRun o.word (takeBeat o rest _) hp] at e
    exact beatFlow_noFrameWaits (takeBeat_keeps_blockInv ha o rest) hp
      (hends hp hr hsrc o rest hq) (e.symm.trans hs)
  | wait _ _ _ e =>
    cases e.symm.trans hs
    exact arrive_keeps_noFrameWaits hwait

/-- Settles O60: the invariant by O44, its last clause by the case of the step. -/
theorem noFrameWaitsBetweenReadCycles : Obligations.NoFrameWaitsBetweenReadCycles :=
  fun _ _ h hwait hends hs => ⟨step_keeps_blockInv h hs, step_noFrameWaits h hwait hends hs⟩

end Sys2Proof.Machine
end

section
/-! O10, O42, O43, O55: the codes of `PHASE` and `ERR`, the state after reset, and what the status
ports show of a state that meets the invariant. -/

namespace Sys2Proof.Machine

/-! ### Codes and the state after reset -/

/-- Settles O10: each code is a clause of `Phase.code` or `Err.code`. -/
theorem phaseAndErrCodes : Obligations.PhaseAndErrCodes :=
  ⟨rfl, rfl, rfl, rfl, rfl, rfl, rfl⟩

/-- Settles O42: each value is a field of `State.reset`. -/
theorem resetStateValues : Obligations.ResetStateValues :=
  ⟨rfl, rfl, rfl, rfl, rfl, rfl⟩

/-- The default parameters meet the constraints of 00_scope.md R7. -/
theorem default_ok : Config.default.ok := by decide

/-- Settles O43: the block is in phase BOOT with an empty buffer and nothing counted yet. -/
theorem resetStateMeetsInv : Obligations.ResetStateMeetsInv where
  config := default_ok
  canonical := rfl
  lenLe := Nat.zero_le _
  seqLt := Nat.two_pow_pos _
  transient := rfl
  cells _ := rfl
  boot _ := ⟨rfl, rfl, default_ok.1, rfl⟩
  run := nofun
  fail := nofun

/-! ### The status ports -/

theorem inReady_iff (s : State) : inReady s = true ↔ s.phase ≠ .fail := by
  simp [inReady]

theorem ports_len_of_ne_fail {s : State} (h : s.phase ≠ .fail) : (ports s).len = s.len := if_neg h

theorem ports_seq_of_ne_fail {s : State} (h : s.phase ≠ .fail) : (ports s).seq = s.seq := if_neg h

theorem ports_n_of_run {s : State} (h : s.phase = .run) : (ports s).n = s.n := if_pos h

theorem ports_m_of_run {s : State} (h : s.phase = .run) : (ports s).m = s.m := if_pos h

/-- The `LEN` port has the bits for `0..CAP`: in phase FAIL it is cut to them. -/
theorem ports_len_lt {s : State} (h : s.len ≤ s.cfg.cap) :
    (ports s).len < 2 ^ lenWidth s.cfg.cap := by
  by_cases hp : s.phase = .fail
  · exact Nat.lt_of_le_of_lt (Nat.le_of_eq (if_pos hp)) (Nat.mod_lt _ (Nat.two_pow_pos _))
  · rw [ports_len_of_ne_fail hp]
    exact Nat.lt_of_le_of_lt h (lt_two_pow_lenWidth _)

/-- The `SEQ` port has `SEQ_W` bits: in phase FAIL it is cut to them. -/
theorem ports_seq_lt {s : State} (h : s.seq < 2 ^ s.cfg.seqW) :
    (ports s).seq < 2 ^ s.cfg.seqW := by
  by_cases hp : s.phase = .fail
  · exact Nat.lt_of_le_of_lt (Nat.le_of_eq (if_pos hp)) (Nat.mod_lt _ (Nat.two_pow_pos _))
  · rw [ports_seq_of_ne_fail hp]
    exact h

/-- Settles O55: outside phase FAIL the ports `LEN` and `SEQ` are the registers, which the invariant
bounds, and in phase BOOT says to be 0. -/
theorem statusPortsShowTheRegisters : Obligations.StatusPortsShowTheRegisters := by
  intro s h
  refine ⟨rfl, rfl, inReady_iff s, fun hp => ?_, fun hp => ?_, ports_len_lt h.lenLe,
    ports_seq_lt h.seqLt⟩
  · have hne : s.phase ≠ .fail := by rw [hp]; nofun
    exact ⟨ports_n_of_run hp, ports_m_of_run hp, ports_len_of_ne_fail hne, ports_seq_of_ne_fail hne⟩
  · have hne : s.phase ≠ .fail := by rw [hp]; nofun
    obtain ⟨hlen, hseq, -, -⟩ := h.boot hp
    exact ⟨(ports_len_of_ne_fail hne).trans hlen, (ports_seq_of_ne_fail hne).trans hseq⟩

end Sys2Proof.Machine
end

section
/-! O11, O27, O48: the buffer and the registers `N` and `M` of a run (20_memory.md).  The two claims
about a run speak of next states outside phase FAIL; a beat of phase RUN answers one only by going
on, and what a beat that goes on leaves is known (`beatFlow_eq_go`, `beatFlow_go_spec`). -/

namespace Sys2Proof.Machine

/-! ### The moves -/

/-- Settles O11: the move loop, started at index 0. -/
theorem ascendingMovesCopyAtOnce : Obligations.AscendingMovesCopyAtOnce := by
  intro k r mem hk hsome
  obtain ⟨mem', hmove, hread⟩ :=
    moveDown_spec k r 0 mem hk fun j _ hj => hsome j (by rwa [Nat.zero_add] at hj)
  exact ⟨mem', hmove, fun i => by rw [hread i, Nat.zero_add]; simp only [Nat.zero_le, true_and]⟩

/-! ### A beat of phase RUN that does not end the run -/

/-- A beat whose next state is not in phase FAIL did not raise: it went on. -/
theorem beatFlow_eq_go_of_phase_ne_fail {last : Bool} {d : Byte} {s t : State}
    (h : (beatFlow last d s).outcome = .next t) (ht : t.phase ≠ .fail) :
    beatFlow last d s = .go t := by
  rcases Flow.outcome_eq_next h with hgo | hraised
  · exact hgo
  · obtain ⟨batch, k, -, -, -, a, -, rfl⟩ := beatFlow_eq_raised hraised
    exact absurd (trap_phase _ _) ht

/-- PUSH and PUSHL are the two beats of phase RUN (30_encoding.md R84). -/
theorem exec_push_or_pushl_eq_next {d : Byte} {s t : State}
    (h : exec (.push d) s = .next t ∨ exec (.pushl d) s = .next t) :
    ∃ last, (beatFlow last d s).outcome = .next t := by
  rcases h with h | h
  · exact ⟨false, (inPhase_eq_next ((execPush_eq_beatFlow d s).symm.trans h)).2⟩
  · exact ⟨true, (inPhase_eq_next ((execPushl_eq_beatFlow d s).symm.trans h)).2⟩

/-- Settles O27: appending and dropping oldest bytes, all a beat that goes on does to the buffer,
leave a suffix. -/
theorem bufferIsASuffixOfTheStream : Obligations.BufferIsASuffixOfTheStream := by
  intro d s t hp hinv h ht
  obtain ⟨last, hbeat⟩ := exec_push_or_pushl_eq_next h
  have hgo := beatFlow_eq_go_of_phase_ne_fail hbeat ht
  obtain ⟨-, hsuffix, -⟩ :=
    beatFlow_go_spec (hinv.cells_of_run hp) hinv.cap_ge (hinv.len_lt_of_run hp) hgo
  exact hsuffix

/-! ### The format -/

/-- A beat that goes on writes neither `N` nor `M`, whether or not it processed a frame. -/
theorem beatFlow_go_keeps_format {last : Bool} {d : Byte} {s t : State}
    (h : beatFlow last d s = .go t) : t.n = s.n ∧ t.m = s.m := by
  rcases beatFlow_eq_go h with e | ⟨batch, hproc⟩
  · rw [e]; exact ⟨rfl, rfl⟩
  · rw [hproc.state]; exact ⟨rfl, rfl⟩

/-- Settles O48: RESET answers phase BOOT and SRCERR phase FAIL, so a step that stays in phase RUN
is waiting or a beat that goes on; taking the beat writes only the source and the sink's answer. -/
theorem formatIsFixedInARun : Obligations.FormatIsFixedInARun := by
  intro s t hs hstep ht
  rw [← arrive_n s, ← arrive_m s]
  cases step_kind s with
  | reset _ e =>
    cases e.symm.trans hstep
    cases ht
  | srcerr _ _ e => cases (execSrcerr_phase (e.symm.trans hstep)).symm.trans ht
  | bootBeat _ _ hp _ _ _ _ => cases hp.symm.trans ((arrive_phase s).trans hs)
  | runBeat _ _ hp o rest _ e =>
    rw [exec_decodeRun o.word (takeBeat o rest _) hp] at e
    have hgo := beatFlow_eq_go_of_phase_ne_fail (e.symm.trans hstep) (by rw [ht]; nofun)
    obtain ⟨hn, hm⟩ := beatFlow_go_keeps_format hgo
    exact ⟨hn, hm⟩
  | wait _ _ _ e =>
    cases e.symm.trans hstep
    exact ⟨rfl, rfl⟩

end Sys2Proof.Machine
end

section
/-! O4, O5, O6, O7, O8: the words of 30_encoding.md as numbers.  The beats of both phases, the
markers, the frame positions and the words of the EVT port. -/

namespace Sys2Proof.Machine

/-! ### The beats of both phases -/

/-- A beat carries a candidate byte just from 0xF0 on, whatever `last` is (30_encoding.md R84). -/
theorem isCandidate_beatData_iff (w : BeatWord) :
    isCandidate (beatData w) = true ↔ 0xF0 ≤ w.toNat % 256 := by
  rw [isCandidate_iff, toNat_beatData]

theorem decodeBoot_of_candidate {w : BeatWord} (h : 0xF0 ≤ w.toNat % 256) :
    decodeBoot w = .bcand (beatLast w) (loNibble (beatData w)) :=
  if_pos ((isCandidate_beatData_iff w).mpr h)

theorem decodeBoot_of_no_candidate {w : BeatWord} (h : w.toNat % 256 < 0xF0) :
    decodeBoot w = .bskip (beatLast w) (beatData w) :=
  if_neg fun hc => Nat.not_le_of_lt h ((isCandidate_beatData_iff w).mp hc)

theorem decodeRun_of_lt {w : BeatWord} (h : w.toNat < 0x100) : decodeRun w = .push (beatData w) :=
  if_neg fun hl => Nat.not_le_of_lt h ((beatLast_iff w).mp hl)

theorem decodeRun_of_le {w : BeatWord} (h : 0x100 ≤ w.toNat) : decodeRun w = .pushl (beatData w) :=
  if_pos ((beatLast_iff w).mpr h)

/-- Settles O4: the data byte tells the rows of phase BOOT apart, bit 8 those of phase RUN. -/
theorem beatSelection : Obligations.BeatSelection := by
  intro w
  have hw := w.isLt
  refine ⟨fun h => ⟨_, _, congrArg Except.ok (decodeBoot_of_candidate h), ?_⟩,
    fun h => ⟨_, _, congrArg Except.ok (decodeBoot_of_no_candidate h), toNat_beatData w⟩,
    fun h => ⟨_, congrArg Except.ok (decodeRun_of_lt h), ?_⟩,
    fun h => ⟨_, congrArg Except.ok (decodeRun_of_le h), ?_⟩⟩
  · rw [toNat_loNibble, toNat_beatData]; omega
  · rw [toNat_beatData]; omega
  · rw [toNat_beatData]; omega

/-! ### Candidates and markers -/

theorem channelCount_loNibble (b : Byte) :
    channelCount (loNibble b) = ((b.toNat % 16 : Nat) : Int) - 1 := by
  rw [channelCount, toNat_loNibble]

/-- The marker of the count a candidate byte proposes is that byte (30_encoding.md R76, R78). -/
theorem markerOf_eq_of_channelCount {b : Byte} {n : Nat} (hb : 0xF0 ≤ b.toNat)
    (hn : channelCount (loNibble b) = (n : Int)) : n ≤ 14 ∧ markerOf n = b := by
  rw [channelCount_loNibble] at hn
  have hlt := b.isLt
  have hle : n ≤ 14 := by omega
  refine ⟨hle, BitVec.eq_of_toNat_eq ?_⟩
  rw [toNat_markerOf hle]; omega

/-- Settles O5: from 0xF0 to 0xFF the low nibble is the distance from 0xF0. -/
theorem candidateCountAndMarker : Obligations.CandidateCountAndMarker := by
  intro b hb
  have hlt := b.isLt
  refine ⟨channelCount_loNibble b, ?_, fun n hn h1 => ?_⟩
  · rw [channelCount_loNibble]; omega
  · obtain ⟨hle, hmarker⟩ := markerOf_eq_of_channelCount hb hn
    refine ⟨hle, hmarker, ?_⟩
    rw [toNat_markerOf hle]; omega

theorem toNat_loNibble_markerOf {n : Nat} (hn : n ≤ 14) :
    (loNibble (markerOf n)).toNat = n + 1 := by
  rw [toNat_loNibble, toNat_markerOf hn]; omega

theorem hiNibble_markerOf {n : Nat} (hn : n ≤ 14) : hiNibble (markerOf n) = 0b1111#4 := by
  have hcand : isCandidate (markerOf n) = true :=
    (isCandidate_iff _).mpr (by rw [toNat_markerOf hn]; omega)
  simpa [isCandidate] using hcand

/-- Settles O6: the nibbles of `0xF0 + n + 1`, where `n + 1` is below 16. -/
theorem markerTellsTheFrameLength : Obligations.MarkerTellsTheFrameLength := fun _ _ hn =>
  ⟨hiNibble_markerOf hn, toNat_loNibble_markerOf hn, toNat_loNibble_markerOf hn, rfl⟩

/-! ### Frames -/

/-- The bytes after the marker are the batch, one position later (30_encoding.md R79). -/
theorem encodeFrame_getElem?_succ (n : Nat) (batch : List Byte) (i : Nat) :
    (encodeFrame n batch)[i + 1]? = batch[channelOfPosition (i + 1)]? := rfl

/-- Settles O7: a frame is the batch behind its marker. -/
theorem framePositionsAreChannels : Obligations.FramePositionsAreChannels := by
  intro n batch hlen
  refine ⟨congrArg (· + 1) hlen, rfl, fun j hj _ => ?_⟩
  cases j with
  | zero => omega
  | succ i => exact encodeFrame_getElem?_succ n batch i

/-! ### The EVT port -/

theorem toNat_evtWord_axis (ch : Nibble) (val : Byte) :
    (evtWord (.axis ch val)).toNat = 256 * ch.toNat + val.toNat := by
  rw [evtWord, toNat_evtWordOf, Bool.toNat_false]; omega

/-- An AXIS word of an existing channel reads back as its event (30_encoding.md R87). -/
theorem decodeEvt_evtWord_axis {ch : Nibble} (val : Byte) (h : ch.toNat ≤ 13) :
    decodeEvt (evtWord (.axis ch val)) = .ok (.evtAxis ch val) := by
  simp only [decodeEvt, evtWord, evtWordOf_sync, evtWordOf_ch, evtWordOf_val, Bool.false_eq_true,
    if_false, if_pos h]

/-- SYNC is bit 12 alone (30_encoding.md R87). -/
theorem toNat_evtWord_sync : (evtWord .sync).toNat = 0x1000 := by
  rw [evtWord, toNat_evtWordOf]; rfl

theorem decodeEvt_evtWord_sync : decodeEvt (evtWord .sync) = .ok .evtSync := rfl

/-- Settles O8: the fields of the port word are the event's. -/
theorem evtPortWords : Obligations.EvtPortWords :=
  ⟨fun ch val => ⟨toNat_evtWord_axis ch val, decodeEvt_evtWord_axis val⟩, toNat_evtWord_sync,
    decodeEvt_evtWord_sync⟩

end Sys2Proof.Machine
end

section
/-! O9, O53: the beats of a read (30_encoding.md R80).  A read returns no bytes, or some bytes and a
last one; only the beat of the last one has `last = 1`. -/

namespace Sys2Proof.Machine

theorem chunkBeats_concat (bs : List Byte) (b : Byte) :
    chunkBeats (bs ++ [b]) = bs.map (beatOf false) ++ [beatOf true b] := by
  induction bs with
  | nil => rfl
  | cons d rest ih =>
    have hcons : chunkBeats (d :: (rest ++ [b])) = beatOf false d :: chunkBeats (rest ++ [b]) := by
      cases rest <;> rfl
    rw [List.cons_append, hcons, ih, List.map_cons, List.cons_append]

/-- Settles O9, by induction on the bytes before the last one. -/
theorem chunkBeatsMarkTheLastByte : Obligations.ChunkBeatsMarkTheLastByte := chunkBeats_concat

/-- The beats carry the bytes of the read, in order. -/
theorem map_beatData_chunkBeats (bs : List Byte) : (chunkBeats bs).map beatData = bs := by
  rcases List.eq_nil_or_concat bs with rfl | ⟨init, b, rfl⟩
  · rfl
  · rw [List.concat_eq_append, chunkBeats_concat]
    simp [Function.comp_def]

/-- `last = 1` on the final beat and on no other. -/
theorem beatLast_chunkBeats_iff {bs : List Byte} {j : Nat} {w : BeatWord}
    (h : (chunkBeats bs)[j]? = some w) :
    beatLast w = true ↔ j + 1 = (chunkBeats bs).length := by
  rcases List.eq_nil_or_concat bs with rfl | ⟨init, b, rfl⟩
  · cases h
  · rw [List.concat_eq_append, chunkBeats_concat] at h ⊢
    rw [List.length_append, List.length_map, List.length_singleton]
    rcases Nat.lt_trichotomy j init.length with hj | rfl | hj
    · rw [List.getElem?_append_left (by rwa [List.length_map]), List.getElem?_map,
        List.getElem?_eq_getElem hj] at h
      cases h
      rw [beatLast_beatOf]
      exact ⟨nofun, by omega⟩
    · simp at h
      rw [← h, beatLast_beatOf]
      exact ⟨fun _ => rfl, fun _ => rfl⟩
    · rw [List.getElem?_eq_none (by simp; omega)] at h
      cases h

/-- Settles O53: the offers are the beats of the bytes taken, each with the read's answer. -/
theorem readOffersTheBytesHeld : Obligations.ReadOffersTheBytesHeld := by
  intro k ans s
  refine ⟨(chunkBeats (s.wire.take k)).map fun w => ⟨w, ans⟩, rfl, ?_, fun j o ho => ?_⟩
  · rw [offerBytes, List.map_map]
    exact map_beatData_chunkBeats (s.wire.take k)
  · rw [List.getElem?_map] at ho
    obtain ⟨w, hw, rfl⟩ := Option.map_eq_some_iff.mp ho
    rw [List.length_map]
    exact ⟨rfl, beatLast_chunkBeats_iff hw⟩

end Sys2Proof.Machine
end

section
/-! O54: a word of the opcode table placed by `withFetchWord` (log 12).  Below 0x200 the table's
word is a beat of phase BOOT or of phase RUN; it is offered first, in the phase that selects it. -/

namespace Sys2Proof.Machine

/-! ### The beat offered first is the one the step takes -/

/-- The state with both pins low: where the operation of a placed beat runs. -/
def lowPins (s : State) : State := { s with resetPin := false, srcerrPin := false }

/-- The gap before a placed beat is empty; what it leaves is the beat before the others. -/
theorem arrive_offerFirst (w : BeatWord) (s : State) :
    arrive (offerFirst w s) = { lowPins s with source := ⟨w, s.ans⟩ :: s.source } := rfl

theorem step_offerFirst_boot {s : State} (w : BeatWord) (hp : s.phase = .boot) :
    step (offerFirst w s) = exec (decodeBoot w) (lowPins s) := by
  simp [step, arrive_offerFirst, fetch, lowPins, hp, decode, accept]

theorem step_offerFirst_run {s : State} (w : BeatWord) (hp : s.phase = .run) :
    step (offerFirst w s) = exec (decodeRun w) (lowPins s) := by
  simp [step, arrive_offerFirst, fetch, lowPins, hp, decode, accept]

theorem toBoot_phase (s : State) : (toBoot s).phase = .boot := by
  unfold toBoot; split
  · assumption
  · rfl

theorem toRun_phase (s : State) : (toRun s).phase = .run := by
  unfold toRun; split
  · assumption
  · rfl

/-- Entering phase BOOT leaves the environment's queues, the answer and the configuration alone. -/
theorem lowPins_toBoot_keeps (s : State) :
    (lowPins (toBoot s)).source = s.source ∧ (lowPins (toBoot s)).script = s.script ∧
    (lowPins (toBoot s)).ans = s.ans ∧ (lowPins (toBoot s)).cfg = s.cfg := by
  unfold toBoot; split <;> exact ⟨rfl, rfl, rfl, rfl⟩

/-- Entering phase RUN leaves the environment's queues, the answer and the configuration alone. -/
theorem lowPins_toRun_keeps (s : State) :
    (lowPins (toRun s)).source = s.source ∧ (lowPins (toRun s)).script = s.script ∧
    (lowPins (toRun s)).ans = s.ans ∧ (lowPins (toRun s)).cfg = s.cfg := by
  unfold toRun; split <;> exact ⟨rfl, rfl, rfl, rfl⟩

/-! ### The table's word is the beat -/

/-- The two bytes of a beat's word, put together. -/
theorem beatOf_tableBytes (w : Nat) :
    beatOf ((BitVec.ofNat 8 (w / 256)).getLsbD 0) (BitVec.ofNat 8 w) = BitVec.ofNat 9 w := by
  have hlast : (BitVec.ofNat 8 (w / 256)).getLsbD 0 = beatLast (BitVec.ofNat 9 w) := by
    rw [beatLast, BitVec.getLsbD_ofNat, BitVec.getLsbD_ofNat, show (256 : Nat) = 2 ^ 8 from rfl,
      Nat.testBit_div_two_pow]
    rfl
  have hdata : BitVec.ofNat 8 w = beatData (BitVec.ofNat 9 w) :=
    BitVec.eq_of_toNat_eq (by rw [toNat_beatData, BitVec.toNat_ofNat, BitVec.toNat_ofNat]; omega)
  rw [hlast, hdata, beatOf_eta]

/-- The high byte of a word below 0x200 is 0 or 1. -/
theorem toNat_tableHighByte_lt {w : Nat} (hw : w < 0x200) :
    (BitVec.ofNat 8 (w / 256)).toNat < 2 := by
  rw [BitVec.toNat_ofNat]; omega

theorem decodeBytes_bootBeat {w : Nat} (hw : w < 0x200) :
    decodeBytes .bootBeat (tableBytes w) = .ok (decodeBoot (BitVec.ofNat 9 w), []) := by
  rw [← beatOf_tableBytes w]
  exact if_pos (toNat_tableHighByte_lt hw)

theorem decodeBytes_runBeat {w : Nat} (hw : w < 0x200) :
    decodeBytes .runBeat (tableBytes w) = .ok (decodeRun (BitVec.ofNat 9 w), []) := by
  rw [← beatOf_tableBytes w]
  exact if_pos (toNat_tableHighByte_lt hw)

/-- A word below 0x200 stands at a beat's place, or at none: more than 8 bits in an 8-bit row. -/
theorem tablePlace_of_lt (nbits : Nat) {w : Nat} (hw : w < 0x200) :
    tablePlace nbits w = some .bootBeat ∨ tablePlace nbits w = none ∨
      tablePlace nbits w = some .runBeat := by
  unfold tablePlace
  rw [if_pos hw]
  split
  · split
    · exact .inl rfl
    · exact .inr (.inl rfl)
  · exact .inr (.inr rfl)

/-- A table word below 0x200 that decodes is a beat of phase BOOT or of phase RUN (log 12). -/
theorem decodeTableWord_cases {nbits w : Nat} {i : Instr} (hw : w < 0x200)
    (h : decodeTableWord nbits w = some i) :
    (tablePlace nbits w = some .bootBeat ∧ i = decodeBoot (BitVec.ofNat 9 w)) ∨
    (tablePlace nbits w = some .runBeat ∧ i = decodeRun (BitVec.ofNat 9 w)) := by
  rcases tablePlace_of_lt nbits hw with hp | hp | hp
  · simp only [decodeTableWord, hp, decodeBytes_bootBeat hw, Option.some.injEq] at h
    exact .inl ⟨hp, h.symm⟩
  · simp [decodeTableWord, hp] at h
  · simp only [decodeTableWord, hp, decodeBytes_runBeat hw, Option.some.injEq] at h
    exact .inr ⟨hp, h.symm⟩

/-- Settles O54: the word is offered first in the phase its place belongs to. -/
theorem placedWordRunsNext : Obligations.PlacedWordRunsNext := by
  intro s nbits w i hw h
  rcases decodeTableWord_cases hw h with ⟨hp, rfl⟩ | ⟨hp, rfl⟩
  · refine ⟨lowPins (toBoot s), ?_, lowPins_toBoot_keeps s⟩
    rw [State.withFetchWord, hp]
    exact step_offerFirst_boot _ (toBoot_phase s)
  · refine ⟨lowPins (toRun s), ?_, lowPins_toRun_keeps s⟩
    rw [State.withFetchWord, hp]
    exact step_offerFirst_run _ (toRun_phase s)

end Sys2Proof.Machine
end

section
/-! O56, O57, O58: the rows that are no operations (30_encoding.md R72, R87; logs 10, 11), and where
an instruction stops, by which name (logs 5, 9, 18, 21). -/

namespace Sys2Proof.Machine

/-! ### The guards refuse by name -/

theorem inPhase_of_fail {p : Phase} {s : State} (f : Flow) (hp : p ≠ .fail) (h : s.phase = .fail) :
    inPhase p s f = .refused .notAccepted := by
  rw [inPhase, if_neg (by rw [h]; exact hp.symm), if_pos h]

theorem inPhase_of_other {p : Phase} {s : State} (f : Flow) (hp : s.phase ≠ p)
    (h : s.phase ≠ .fail) : inPhase p s f = .refused .notSelected := by
  rw [inPhase, if_neg hp, if_neg h]

theorem whenCalled_of_not {c : Prop} [Decidable c] (f : Flow) (h : ¬c) :
    whenCalled c f = .refused .notCalled := if_neg h

/-! ### Wire bytes and EVT words -/

/-- Settles O56: the marker byte is `0xF` followed by the nibble; both rows are `holdByte`. -/
theorem wireBytesReachTheSource : Obligations.WireBytesReachTheSource :=
  ⟨fun m _ => ⟨byteOf 0xF#4 m, toNat_byteOf 0xF#4 m, rfl⟩, fun _ _ => rfl⟩

theorem portEvent_of_called {s : State} (e : EvtEvent)
    (h : s.phase = .run ∧ s.cfg.testmode = false) :
    portEvent e s = .next { s with evt := s.evt ++ [e] } := whenCalled_of _ h

theorem portEvent_of_not_called {s : State} (e : EvtEvent)
    (h : ¬(s.phase = .run ∧ s.cfg.testmode = false)) :
    portEvent e s = .refused .notCalled := whenCalled_of_not _ h

/-- Settles O57: both EVT rows are `portEvent`. -/
theorem evtRowsAppendTheirEvent : Obligations.EvtRowsAppendTheirEvent := fun _ =>
  ⟨fun h => ⟨fun _ _ => portEvent_of_called _ h, portEvent_of_called _ h⟩,
    fun h => ⟨fun _ _ => portEvent_of_not_called _ h, portEvent_of_not_called _ h⟩⟩

/-! ### Beats where their phase does not select them -/

theorem beats_refused_in_fail {s : State} (hp : s.phase = .fail) (last : Bool) (d : Byte)
    (c : Nibble) :
    exec (.bskip last d) s = .refused .notAccepted ∧
    exec (.bcand last c) s = .refused .notAccepted ∧
    exec (.push d) s = .refused .notAccepted ∧ exec (.pushl d) s = .refused .notAccepted :=
  ⟨inPhase_of_fail _ nofun hp, inPhase_of_fail _ nofun hp, inPhase_of_fail _ nofun hp,
    inPhase_of_fail _ nofun hp⟩

theorem bootBeats_refused_in_run {s : State} (hp : s.phase = .run) (last : Bool) (d : Byte)
    (c : Nibble) :
    exec (.bskip last d) s = .refused .notSelected ∧
    exec (.bcand last c) s = .refused .notSelected := by
  have hboot : s.phase ≠ .boot := by rw [hp]; nofun
  have hfail : s.phase ≠ .fail := by rw [hp]; nofun
  exact ⟨inPhase_of_other _ hboot hfail, inPhase_of_other _ hboot hfail⟩

theorem runBeats_refused_in_boot {s : State} (hp : s.phase = .boot) (d : Byte) :
    exec (.push d) s = .refused .notSelected ∧ exec (.pushl d) s = .refused .notSelected := by
  have hrun : s.phase ≠ .run := by rw [hp]; nofun
  have hfail : s.phase ≠ .fail := by rw [hp]; nofun
  exact ⟨inPhase_of_other _ hrun hfail, inPhase_of_other _ hrun hfail⟩

/-! ### Sub-procedures where their call is not met -/

theorem subProcedures_refused_outside_run {s : State} (hp : s.phase ≠ .run) (p : Nat)
    (batch : List Byte) :
    exec .cycleend s = .refused .notCalled ∧ exec .scan s = .refused .notCalled ∧
    exec (.discard p) s = .refused .notCalled ∧ exec .ovfrec s = .refused .notCalled ∧
    exec (.decode p) s = .refused .notCalled ∧ exec (.emit batch) s = .refused .notCalled ∧
    exec (.sample p) s = .refused .notCalled :=
  ⟨whenCalled_of_not _ hp, whenCalled_of_not _ hp, whenCalled_of_not _ hp,
    whenCalled_of_not _ fun h => hp h.1, whenCalled_of_not _ hp,
    whenCalled_of_not _ fun h => hp h.1, whenCalled_of_not _ hp⟩

/-! ### Accesses outside the valid cells -/

theorem discardFrame_of_lt {p : Nat} {s : State} (h : s.len < p + s.n.toNat + 1) :
    discardFrame p s = .stop .indexOutsideBuffer := if_neg (Nat.not_le_of_lt h)

/-- With at least one channel, the last payload byte of the frame is outside the valid cells. -/
theorem decodeBatch_of_lt {p : Nat} {s : State} (h : s.len < p + s.n.toNat + 1)
    (hn : 1 ≤ s.n.toNat) : decodeBatch p s = none :=
  readRange_none s (p + 1) s.n.toNat (p + s.n.toNat) (by omega) (by omega) (by omega)

theorem reportDue_of {p seq : Nat} (hp : p ≠ 0) (hseq : seq % p = 0) : reportDue p seq = true := by
  simp [reportDue, hp, hseq]

/-- A report reads the whole frame, whose last byte is outside the valid cells. -/
theorem sampleFrame_of_lt {p : Nat} {s : State} (h : s.len < p + s.n.toNat + 1)
    (hdue : reportDue s.cfg.p (nextSeq s) = true) :
    sampleFrame p s = .stop .cellHoldsNoValue := by
  have hread : readRange s p (s.n.toNat + 1) = none :=
    readRange_none s p (s.n.toNat + 1) (p + s.n.toNat) (by omega) (by omega) (by omega)
  rw [sampleFrame, if_pos hdue, hread]

theorem exec_discard_of_lt {p : Nat} {s : State} (hp : s.phase = .run)
    (h : s.len < p + s.n.toNat + 1) : exec (.discard p) s = .fault .indexOutsideBuffer :=
  (whenCalled_of _ hp).trans (congrArg Flow.outcome (discardFrame_of_lt h))

theorem exec_decode_of_lt {p : Nat} {s : State} (hp : s.phase = .run)
    (h : s.len < p + s.n.toNat + 1) (hn : 1 ≤ s.n.toNat) :
    exec (.decode p) s = .fault .cellHoldsNoValue := by
  refine (whenCalled_of _ hp).trans ?_
  rw [decodeBatch_of_lt h hn]
  rfl

theorem exec_sample_of_lt {p : Nat} {s : State} (hp : s.phase = .run)
    (h : s.len < p + s.n.toNat + 1) (hdue : reportDue s.cfg.p (nextSeq s) = true) :
    exec (.sample p) s = .fault .cellHoldsNoValue :=
  (whenCalled_of _ hp).trans (congrArg Flow.outcome (sampleFrame_of_lt h hdue))

/-! ### A beat on a full buffer -/

theorem beatFlow_of_full (last : Bool) (d : Byte) {s : State} (h : s.cfg.cap ≤ s.len) :
    beatFlow last d s = .stop .indexOutsideBuffer := by
  rcases beatFlow_cases last d s with ⟨-, e⟩ | ⟨_, -, hlt, -, -⟩
  · exact e
  · omega

theorem beats_fault_on_full {s : State} (hp : s.phase = .run) (h : s.cfg.cap ≤ s.len) (d : Byte) :
    exec (.push d) s = .fault .indexOutsideBuffer ∧
    exec (.pushl d) s = .fault .indexOutsideBuffer := by
  constructor
  · refine (execPush_eq_beatFlow d s).trans ?_
    rw [inPhase_of _ hp, beatFlow_of_full false d h, Flow.stop_outcome]
  · refine (execPushl_eq_beatFlow d s).trans ?_
    rw [inPhase_of _ hp, beatFlow_of_full true d h, Flow.stop_outcome]

/-- Settles O58: the guards of the beats and of the calls, then the accesses outside the buffer. -/
theorem stopsAreNamed : Obligations.StopsAreNamed := fun _ =>
  ⟨fun last d c hp => beats_refused_in_fail hp last d c,
    fun last d c hp => bootBeats_refused_in_run hp last d c,
    fun d hp => runBeats_refused_in_boot hp d,
    fun h => whenCalled_of_not _ h,
    fun p batch hp => subProcedures_refused_outside_run hp p batch,
    fun hlen => whenCalled_of_not _ fun h => hlen h.2,
    fun _ hlen => whenCalled_of_not _ fun h => hlen h.2,
    fun _ hp hlt => ⟨exec_discard_of_lt hp hlt, exec_decode_of_lt hp hlt,
      fun ⟨hperiod, hseq⟩ => exec_sample_of_lt hp hlt (reportDue_of hperiod hseq)⟩,
    fun d hp hfull => beats_fault_on_full hp hfull d⟩

end Sys2Proof.Machine
end

section
/-! O12, O13, O14: the operations of the Bootstrap Scanner (40_bootstrap.md R102, R103, R104).  Both
beats of phase BOOT are `countBootByte`, the candidate recorded before it; BOOTCLOSE is `bootClose`
behind its guard. -/

namespace Sys2Proof.Machine

/-! ### BOOTCLOSE -/

theorem exec_bootclose {s : State} (hp : s.phase = .boot) (hw : s.bootcnt = s.cfg.w) :
    exec .bootclose s = (bootClose s).outcome := whenCalled_of _ ⟨hp, hw⟩

theorem bootClose_of_rejected {s : State} (h : s.candv = false ∨ s.cand.toNat ≤ 1) :
    bootClose s = .raised (trap .syncNotFound s) := by
  rcases bootClose_cases s with ⟨-, e⟩ | ⟨⟨hv, hc⟩, -⟩
  · exact e
  · rcases h with h | h
    · rw [h] at hv; cases hv
    · omega

theorem bootClose_of_accepted {s : State} (hv : s.candv = true) (hc : 2 ≤ s.cand.toNat) :
    bootClose s = .go (enterRun (s.cand.toNat - 1) s) := by
  rcases bootClose_cases s with ⟨h | h, -⟩ | ⟨-, e⟩
  · rw [hv] at h; cases h
  · omega
  · exact e

/-- The trap entry before anything was emitted (60_exceptions.md R208). -/
theorem raised_trap (e : Err) (s : State) : Raised e [] s (trap e s) where
  phase := rfl
  err := rfl
  evt := (List.append_nil _).symm
  diag := rfl
  surroundings := ⟨rfl, rfl, rfl, rfl, rfl, rfl, rfl, rfl⟩

theorem toNat_enterRun_n {k : Nat} (hk : k ≤ 14) (s : State) : (enterRun k s).n.toNat = k := by
  rw [enterRun_n, BitVec.toNat_ofNat]; omega

/-- Settles O14: BOOTCLOSE is the trap entry or `enterRun`, told apart by the candidate. -/
theorem bootcloseDecides : Obligations.BootcloseDecides := by
  intro s hp hw
  rw [exec_bootclose hp hw]
  constructor
  · intro h
    rw [bootClose_of_rejected h]
    exact ⟨_, rfl, raised_trap _ s⟩
  · rintro ⟨hv, hc⟩
    have hlt := s.cand.isLt
    have hn := toNat_enterRun_n (k := s.cand.toNat - 1) (by omega) s
    rw [bootClose_of_accepted hv hc]
    refine ⟨_, rfl, hn, ?_, rfl⟩
    rw [hn, enterRun_m, toNat_markerOf (by omega)]

/-! ### BSKIP and BCAND -/

theorem countBootByte_inside {b : State} (hw : b.bootcnt + 1 ≠ b.cfg.w) :
    countBootByte b = .go { b with bootcnt := b.bootcnt + 1 } := if_neg hw

theorem countBootByte_closing {b : State} (hw : b.bootcnt + 1 = b.cfg.w) :
    countBootByte b = bootClose { b with bootcnt := b.bootcnt + 1 } := if_pos hw

/-- The `W`-th byte completes, and as BOOTCLOSE does from the state with the byte counted. -/
theorem countBootByte_completes_as_bootclose {b : State} (hp : b.phase = .boot)
    (hw : b.bootcnt + 1 = b.cfg.w) : ∃ t, (countBootByte b).outcome = .next t ∧
      exec .bootclose { b with bootcnt := b.bootcnt + 1 } = .next t := by
  obtain ⟨t, ht⟩ := countBootByte_completes b
  refine ⟨t, ht, ?_⟩
  rw [exec_bootclose (s := { b with bootcnt := b.bootcnt + 1 }) hp hw, ← countBootByte_closing hw]
  exact ht

theorem decodeBoot_beatOf_bskip (last : Bool) {d : Byte} (hd : d.toNat ≤ 0xEF) :
    decodeBoot (beatOf last d) = .bskip last d := by
  have hlt : (beatOf last d).toNat % 256 < 0xF0 := by
    rw [← toNat_beatData, beatData_beatOf]; omega
  rw [decodeBoot_of_no_candidate hlt, beatLast_beatOf, beatData_beatOf]

theorem decodeBoot_beatOf_bcand (last : Bool) (c : Nibble) :
    decodeBoot (beatOf last (byteOf 0xF#4 c)) = .bcand last c := by
  rw [decodeBoot, beatData_beatOf, if_pos (isCandidate_byteOf c), beatLast_beatOf, loNibble_byteOf]

/-- Settles O12: BSKIP is `countBootByte`. -/
theorem bskipCountsTheByte : Obligations.BskipCountsTheByte := by
  intro last d s hp
  have hexec : exec (.bskip last d) s = (countBootByte s).outcome := inPhase_of _ hp
  rw [hexec]
  exact ⟨fun hd => congrArg Except.ok (decodeBoot_beatOf_bskip last hd),
    fun hw => congrArg Flow.outcome (countBootByte_inside hw),
    fun hw => countBootByte_completes_as_bootclose hp hw⟩

/-- Settles O13: BCAND is `countBootByte` with the candidate recorded. -/
theorem bcandRecordsTheCandidate : Obligations.BcandRecordsTheCandidate := by
  intro last c s hp
  have hexec : exec (.bcand last c) s =
      (countBootByte { s with candv := true, cand := c }).outcome := inPhase_of _ hp
  rw [hexec]
  exact ⟨congrArg Except.ok (decodeBoot_beatOf_bcand last c),
    fun hw => congrArg Flow.outcome
      (countBootByte_inside (b := { s with candv := true, cand := c }) hw),
    fun hw => countBootByte_completes_as_bootclose
      (b := { s with candv := true, cand := c }) hp hw⟩

end Sys2Proof.Machine
end

section
/-! O15: the closed form of the bootstrap (40_bootstrap.md R108).  Inside the window each beat keeps
one relation to the state the window began in: the candidate recorded is the last one among the
bytes taken, and nothing else is written but the count.  The `W`-th beat then hands a state in that
relation to BOOTCLOSE. -/

namespace Sys2Proof.Machine

/-! ### The candidate recorded -/

/-- The last byte whose value is 0xF0 or more (40_bootstrap.md R105). -/
def lastCandidate (bytes : List Byte) : Option Byte :=
  bytes.reverse.find? fun b => decide (0xF0 ≤ b.toNat)

theorem lastCandidate_append (as bs : List Byte) :
    lastCandidate (as ++ bs) = (lastCandidate bs).or (lastCandidate as) := by
  rw [lastCandidate, List.reverse_append, List.find?_append]
  rfl

theorem lastCandidate_singleton (b : Byte) :
    lastCandidate [b] = if isCandidate b then some b else none := by
  simp [lastCandidate, List.find?_singleton, isCandidate_iff]

theorem offerBytes_append (as bs : List Offer) :
    offerBytes (as ++ bs) = offerBytes as ++ offerBytes bs := List.map_append

theorem le_of_lastCandidate {bytes : List Byte} {b : Byte} (h : lastCandidate bytes = some b) :
    0xF0 ≤ b.toNat := by
  simpa using List.find?_some h

/-- What `CANDV` and `CAND` say together (10_state.md R25). -/
def recordedCandidate (s : State) : Option Nibble := if s.candv then some s.cand else none

theorem recordedCandidate_eq_none_iff {s : State} :
    recordedCandidate s = none ↔ s.candv = false := by
  simp [recordedCandidate]

theorem recordedCandidate_eq_some_iff {s : State} {c : Nibble} :
    recordedCandidate s = some c ↔ s.candv = true ∧ s.cand = c := by
  simp [recordedCandidate]

theorem recordedCandidate_noteCandidate (w : BeatWord) (s : State) :
    recordedCandidate (noteCandidate w s) =
      ((lastCandidate [beatData w]).map loNibble).or (recordedCandidate s) := by
  rw [lastCandidate_singleton]
  unfold noteCandidate
  split
  · rfl
  · rfl

theorem noteCandidate_frame (w : BeatWord) (s : State) :
    noteCandidate w s =
      { s with candv := (noteCandidate w s).candv, cand := (noteCandidate w s).cand } := by
  unfold noteCandidate
  split
  · rfl
  · rfl

/-! ### Beats inside the window -/

/-- `u` is `s` after the beats `offers` were taken and counted: their last candidate, if there is
one, replaces the one recorded before, and nothing else is written. -/
structure Counted (offers rest : List Offer) (s u : State) : Prop where
  candidate : recordedCandidate u =
    ((lastCandidate (offerBytes offers)).map loNibble).or (recordedCandidate s)
  state : u = { s with
    source := rest
    ans := u.ans
    candv := u.candv
    cand := u.cand
    bootcnt := s.bootcnt + offers.length }

section
variable {offers rest : List Offer} {s u : State}

theorem Counted.phase (h : Counted offers rest s u) : u.phase = s.phase := by rw [h.state]
theorem Counted.source (h : Counted offers rest s u) : u.source = rest := by rw [h.state]
theorem Counted.bootcnt (h : Counted offers rest s u) : u.bootcnt = s.bootcnt + offers.length := by
  rw [h.state]
theorem Counted.cfg (h : Counted offers rest s u) : u.cfg = s.cfg := by rw [h.state]
theorem Counted.evt (h : Counted offers rest s u) : u.evt = s.evt := by rw [h.state]
theorem Counted.diag (h : Counted offers rest s u) : u.diag = s.diag := by rw [h.state]
theorem Counted.len (h : Counted offers rest s u) : u.len = s.len := by rw [h.state]
theorem Counted.seq (h : Counted offers rest s u) : u.seq = s.seq := by rw [h.state]

theorem Counted.quiet (h : Counted offers rest s u) (hq : Quiet s) : Quiet u := by
  rw [h.state]; exact hq

theorem counted_nil (hs : s.source = rest) : Counted [] rest s s := by
  subst hs; exact ⟨rfl, rfl⟩

theorem Counted.append {more rest' : List Offer} {v : State} (h : Counted offers rest s u)
    (h' : Counted more rest' u v) : Counted (offers ++ more) rest' s v := by
  refine ⟨?_, ?_⟩
  · rw [h'.candidate, h.candidate, offerBytes_append, lastCandidate_append,
      Option.map_or, Option.or_assoc]
  · rw [h'.state, h.state, List.length_append, ← Nat.add_assoc]

/-- A step that takes a beat of phase BOOT ends with the beat counted, or goes on as BOOTCLOSE from
there when the beat is the `W`-th. -/
theorem step_counts_beat {o : Offer} (hq : Quiet s) (hp : s.phase = .boot)
    (hs : s.source = o :: rest) : ∃ u, Counted [o] rest s u ∧
      step s = (if s.bootcnt + 1 = s.cfg.w then bootClose u else .go u).outcome := by
  rw [step_boot hq hp hs, exec_decodeBoot o.word (takeBeat o rest s) hp]
  have hnoted := recordedCandidate_noteCandidate o.word (takeBeat o rest s)
  have hstate := noteCandidate_frame o.word (takeBeat o rest s)
  generalize noteCandidate o.word (takeBeat o rest s) = b at hnoted hstate ⊢
  refine ⟨{ b with bootcnt := b.bootcnt + 1 }, ⟨hnoted, ?_⟩, ?_⟩
  · rw [hstate]; rfl
  · rw [countBootByte, hstate]; rfl

end

theorem run_inside_window (offers : List Offer) {rest : List Offer} {s : State} (hq : Quiet s)
    (hp : s.phase = .boot) (hs : s.source = offers ++ rest)
    (hw : s.bootcnt + offers.length < s.cfg.w) :
    ∃ u, Sys2Proof.core.run offers.length s = .next u ∧ Counted offers rest s u := by
  induction offers generalizing s with
  | nil => exact ⟨s, rfl, counted_nil hs⟩
  | cons o offers ih =>
    rw [List.length_cons] at hw ⊢
    obtain ⟨u, hu, hstep⟩ := step_counts_beat hq hp hs
    rw [if_neg (by omega)] at hstep
    have hw' : u.bootcnt + offers.length < u.cfg.w := by
      rw [hu.bootcnt, hu.cfg, List.length_singleton]; omega
    obtain ⟨v, hrun, hv⟩ := ih (hu.quiet hq) (hu.phase.trans hp) hu.source hw'
    exact ⟨v, (run_succ_of_next _ hstep).trans hrun, hu.append hv⟩

/-- The beats that fill the window end it with BOOTCLOSE, from a state in which all are counted. -/
theorem run_closes_window {offers rest : List Offer} {s : State} (hq : Quiet s)
    (hp : s.phase = .boot) (hs : s.source = offers ++ rest) (hne : offers ≠ [])
    (hw : s.bootcnt + offers.length = s.cfg.w) :
    ∃ u, Sys2Proof.core.run offers.length s = (bootClose u).outcome ∧ Counted offers rest s u := by
  obtain ⟨init, o, rfl⟩ : ∃ init o, offers = init ++ [o] :=
    ⟨_, _, (List.dropLast_concat_getLast hne).symm⟩
  rw [List.append_assoc] at hs
  rw [List.length_append, List.length_singleton] at hw ⊢
  obtain ⟨u, hrun, hu⟩ := run_inside_window init hq hp hs (by omega)
  obtain ⟨v, hv, hstep⟩ := step_counts_beat (hu.quiet hq) (hu.phase.trans hp) hu.source
  rw [hu.bootcnt, hu.cfg, if_pos (by omega)] at hstep
  exact ⟨v, (run_add _ 1 hrun).trans ((run_one u).trans hstep), hu.append hv⟩

/-! ### The decision -/

theorem bootClose_of_not_recorded {u : State} (h : recordedCandidate u = none) :
    bootClose u = .raised (trap .syncNotFound u) :=
  bootClose_of_rejected (.inl (recordedCandidate_eq_none_iff.mp h))

/-- The candidate byte 0xF0 or 0xF1 proposes no channel (30_encoding.md R77). -/
theorem bootClose_of_recorded_rejected {u : State} {b : Byte}
    (h : recordedCandidate u = some (loNibble b)) (hb : 0xF0 ≤ b.toNat) (hle : b.toNat ≤ 0xF1) :
    bootClose u = .raised (trap .syncNotFound u) := by
  obtain ⟨-, hc⟩ := recordedCandidate_eq_some_iff.mp h
  refine bootClose_of_rejected (.inr ?_)
  rw [hc, toNat_loNibble]; omega

/-- Any other candidate byte is the marker of the count it proposes (30_encoding.md R78). -/
theorem bootClose_of_recorded_accepted {u : State} {b : Byte}
    (h : recordedCandidate u = some (loNibble b)) (hlt : 0xF1 < b.toNat) :
    ∃ k ≤ 14, k = b.toNat % 16 - 1 ∧ markerOf k = b ∧ bootClose u = .go (enterRun k u) := by
  obtain ⟨hv, hc⟩ := recordedCandidate_eq_some_iff.mp h
  have hnibble : u.cand.toNat = b.toNat % 16 := by rw [hc, toNat_loNibble]
  have hbyte := b.isLt
  obtain ⟨hk, hm⟩ := markerOf_eq_of_channelCount (b := b) (n := b.toNat % 16 - 1) (by omega)
    (by rw [channelCount_loNibble]; omega)
  refine ⟨_, hk, rfl, hm, ?_⟩
  rw [bootClose_of_accepted hv (by omega), hnibble]

/-- Settles O15: before the `W`-th beat the state is `Counted`, at the `W`-th BOOTCLOSE decides by
the candidate recorded, the last one of the window. -/
theorem bootstrapClosedForm : Obligations.BootstrapClosedForm := by
  intro s offers rest hq hp hcnt hcandv hlen hseq hlength hw hs
  constructor
  · intro k hk
    have htake : (offers.take k).length = k := List.length_take_of_le (by omega)
    rw [← List.take_append_drop k offers, List.append_assoc] at hs
    obtain ⟨u, hrun, hu⟩ := run_inside_window (offers.take k) hq hp hs (by omega)
    rw [htake] at hrun
    exact ⟨u, hrun, hu.phase.trans hp, hu.evt, hu.diag⟩
  · have hne : offers ≠ [] := List.ne_nil_of_length_pos (by omega)
    obtain ⟨u, hrun, hu⟩ := run_closes_window hq hp hs hne (by omega)
    have hcand := hu.candidate
    rw [recordedCandidate_eq_none_iff.mpr hcandv, Option.or_none] at hcand
    rw [← hlength, hrun, ← hu.source, ← hu.evt, ← hu.diag]
    cases hlast : (offerBytes offers).reverse.find? (fun b => decide (0xF0 ≤ b.toNat)) with
    | none =>
      have hnone : lastCandidate (offerBytes offers) = none := hlast
      rw [hnone] at hcand
      rw [bootClose_of_not_recorded hcand]
      exact ⟨_, rfl, rfl, rfl, rfl, rfl, rfl⟩
    | some b =>
      have hsome : lastCandidate (offerBytes offers) = some b := hlast
      rw [hsome] at hcand
      by_cases hle : b.toNat ≤ 0xF1
      · rw [bootClose_of_recorded_rejected hcand (le_of_lastCandidate hsome) hle]
        exact ⟨_, rfl, rfl, rfl, (if_pos hle).mpr ⟨rfl, rfl, rfl⟩⟩
      · obtain ⟨k, hk, hcount, hmarker, e⟩ :=
          bootClose_of_recorded_accepted hcand (Nat.lt_of_not_le hle)
        rw [e]
        exact ⟨_, rfl, rfl, rfl, (if_neg hle).mpr ⟨rfl, (toNat_enterRun_n hk u).trans hcount,
          hmarker, hu.len.trans hlen, hu.seq.trans hseq, rfl⟩⟩

end Sys2Proof.Machine
end

section
/-! O18, O19, O20, O21, O22, O23, O24, O28: CYCLEEND and the sub-procedures it calls
(41_synchronizer.md R124 to R134).  On valid cells SCAN answers the largest qualifying position, and
DISCARD and OVFREC are `dropBytes`, so each claim is about the list of bytes in the buffer. -/

namespace Sys2Proof.Machine

/-! ### The sub-procedures as instructions -/

theorem exec_cycleend {s : State} (hp : s.phase = .run) :
    exec .cycleend s = (cycleEnd s).outcome := whenCalled_of _ hp

theorem exec_scan_of_ok {s : State} {r : Option Nat} (hp : s.phase = .run)
    (h : scanBuf s = .ok r) : exec .scan s = .next { s with result := some (.index r) } := by
  refine (whenCalled_of _ hp).trans ?_
  rw [h]
  rfl

theorem exec_decode_cells {s : State} {p : Nat} (hp : s.phase = .run) (hv : CellsValid s)
    (hl : p + s.n.toNat + 1 ≤ s.len) :
    exec (.decode p) s = .next { s with result := some (.batch (batchAt s p)) } := by
  refine (whenCalled_of _ hp).trans ?_
  rw [decodeBatch_cells p s hv hl]
  rfl

theorem exec_discard {s : State} (hp : s.phase = .run) (p : Nat) :
    exec (.discard p) s = (discardFrame p s).outcome := whenCalled_of _ hp

theorem exec_sample {s : State} (hp : s.phase = .run) (p : Nat) :
    exec (.sample p) s = (sampleFrame p s).outcome := whenCalled_of _ hp

theorem exec_ovfrec {s : State} (hp : s.phase = .run) (hfull : s.len = s.cfg.cap) :
    exec .ovfrec s = (overflowRecovery s).outcome := whenCalled_of _ ⟨hp, hfull⟩

theorem exec_emit {s : State} {batch : List Byte} (hp : s.phase = .run)
    (hlen : batch.length = s.n.toNat) :
    exec (.emit batch) s = (emitBatch batch s).outcome := whenCalled_of _ ⟨hp, hlen⟩

/-- Settles O18: SCAN is `scanBuf`, its answer handed over in `result`. -/
theorem scanFindsTheRightmost : Obligations.ScanFindsTheRightmost := by
  intro s hp hv
  obtain ⟨r, hscan, hsome, hnone⟩ := scanBuf_cells s hv
  exact ⟨r, exec_scan_of_ok hp hscan, hsome, hnone⟩

/-! ### Dropping the oldest bytes -/

/-- What is kept keeps its order: cell `i` holds what cell `i + k` held. -/
theorem read_dropBytes (k : Nat) {s : State} (hv : CellsValid s) (i : Nat) :
    (dropBytes k s).buf.read i = s.buf.read (i + k) := by
  obtain ⟨hv', hc⟩ := dropBytes_cells k s hv
  rw [hv'.read, hc, List.getElem?_drop, hv.read, Nat.add_comm]

theorem readBuf_dropBytes (k : Nat) {s : State} (hv : CellsValid s) (i : Nat) :
    readBuf (dropBytes k s) i = readBuf s (i + k) := by
  obtain ⟨hv', hc⟩ := dropBytes_cells k s hv
  rw [hv'.readBuf, hc, List.getElem?_drop, hv.readBuf, Nat.add_comm]

theorem discardFrame_eq_dropBytes {p : Nat} {s : State} (hv : CellsValid s)
    (hp : p + s.n.toNat + 1 ≤ s.len) :
    discardFrame p s = .go (dropBytes (p + s.n.toNat + 1) s) := discardFrame_cells p s hv hp

theorem overflowRecovery_eq_dropBytes {s : State} (hv : CellsValid s) (hfull : s.len = s.cfg.cap)
    (hcap : 30 ≤ s.cfg.cap) : overflowRecovery s = .go (dropBytes (s.cfg.cap / 2) s) := by
  rw [overflowRecovery_cells s hv hfull hcap, ← hfull]
  rfl

/-- Settles O21: DISCARD is `dropBytes`. -/
theorem discardKeepsTheResidual : Obligations.DiscardKeepsTheResidual := by
  intro p s hp hv hl
  refine ⟨dropBytes (p + s.n.toNat + 1) s, ?_, rfl, fun i _ => read_dropBytes _ hv i, rfl⟩
  rw [exec_discard hp, discardFrame_eq_dropBytes hv hl, Flow.go_outcome]

/-- Settles O22: OVFREC is `dropBytes`. -/
theorem ovfrecDropsTheOldestHalf : Obligations.OvfrecDropsTheOldestHalf := by
  intro s hp hv hfull hcap
  refine ⟨dropBytes (s.cfg.cap / 2) s, ?_, congrArg (· - s.cfg.cap / 2) hfull,
    fun i _ => read_dropBytes _ hv i, rfl⟩
  rw [exec_ovfrec hp hfull, overflowRecovery_eq_dropBytes hv hfull hcap, Flow.go_outcome]

/-! ### CYCLEEND without a frame -/

theorem cycleEnd_waits {s : State} (hv : CellsValid s) (hnone : ∀ p, ¬ Qualifies s p)
    (hl : s.len ≠ s.cfg.cap) : cycleEnd s = .go s := by
  rw [cycleEnd_of_none (scanBuf_eq_none s hv hnone), if_neg hl]

theorem cycleEnd_overflows {s : State} (hv : CellsValid s) (hnone : ∀ p, ¬ Qualifies s p)
    (hfull : s.len = s.cfg.cap) : cycleEnd s = overflowRecovery s := by
  rw [cycleEnd_of_none (scanBuf_eq_none s hv hnone), if_pos hfull]

/-- Settles O19: where `scanBuf` answers none, CYCLEEND compares `LEN` with `CAP`. -/
theorem cycleendWithoutAFrame : Obligations.CycleendWithoutAFrame := by
  intro s hinv hnone
  refine ⟨exec_scan_of_ok hinv.phase (scanBuf_eq_none s hinv.cells hnone), fun hl => ?_,
    fun hfull => ⟨dropBytes (s.cfg.cap / 2) s, ?_, ?_⟩⟩
  · rw [exec_cycleend hinv.phase, cycleEnd_waits hinv.cells hnone hl, Flow.go_outcome]
  · rw [exec_ovfrec hinv.phase hfull, overflowRecovery_eq_dropBytes hinv.cells hfull hinv.cap,
      Flow.go_outcome]
  · rw [exec_cycleend hinv.phase, cycleEnd_overflows hinv.cells hnone hfull,
      overflowRecovery_eq_dropBytes hinv.cells hfull hinv.cap, Flow.go_outcome]

/-- Where no position qualifies in a full buffer, `M` stands only in the last `N` cells, and `N` is
at most 14 while half of `CAP` is at least 15 (41_synchronizer.md R133). -/
theorem not_mem_oldestHalf {m : Byte} {n cap : Nat} {bytes : List Byte} (hn : n ≤ 14)
    (hcap : 30 ≤ cap) (hfull : bytes.length = cap) (hnone : ∀ p, ¬ QualifiesIn m n bytes p) :
    m ∉ bytes.take (cap / 2) := by
  intro hmem
  obtain ⟨i, hi, hm⟩ := List.mem_take_iff_getElem.mp hmem
  exact hnone i ⟨by omega, List.getElem?_eq_some_iff.mpr ⟨by omega, hm⟩⟩

/-- Settles O23: the bytes OVFREC drops are the oldest half, which holds no `M`. -/
theorem overflowDiscardsNoMarker : Obligations.OverflowDiscardsNoMarker := by
  intro s hinv hfull hnone
  have hv := hinv.cells
  have hcap := hinv.cap
  have hnoM : s.m ∉ (contents s).take (s.cfg.cap / 2) :=
    not_mem_oldestHalf hinv.count.2 hcap (hv.length.trans hfull)
      fun p hp => hnone p ((qualifies_iff_in hv p).mpr hp)
  have hlen : s.len - (dropBytes (s.cfg.cap / 2) s).len = s.cfg.cap / 2 := by
    change s.len - (s.len - s.cfg.cap / 2) = _
    omega
  have hbelow : ∀ i < s.cfg.cap / 2, readBuf s i ≠ some s.m := fun i hi hm => by
    rw [hv.readBuf] at hm
    exact hnoM (List.mem_of_getElem? (i := i) (by rw [List.getElem?_take_of_lt hi, hm]))
  refine ⟨dropBytes (s.cfg.cap / 2) s, ?_, ?_, ?_⟩
  · rw [exec_cycleend hinv.phase, cycleEnd_overflows hv hnone hfull,
      overflowRecovery_eq_dropBytes hv hfull hcap, Flow.go_outcome]
  · rw [hlen]; exact hbelow
  · intro i hm j hij _
    have hi : s.cfg.cap / 2 ≤ i := Nat.le_of_not_lt fun hi => hbelow i hi hm
    rw [hlen, readBuf_dropBytes _ hv, Nat.sub_add_cancel (Nat.le_trans hi hij)]

/-! ### CYCLEEND with a frame -/

theorem processFrame_of_decoded {s : State} {p : Nat} {batch : List Byte}
    (h : decodeBatch p s = some batch) : processFrame p s =
      (emitBatch batch s).andThen fun s₁ => (sampleFrame p s₁).andThen (discardFrame p) := by
  unfold processFrame
  rw [h]

/-- EMIT with a sink that can be asked: it goes on and writes the EVT trace only, or it raises. -/
theorem emitBatch_of_sinkAnswers (batch : List Byte) {s : State} (h : SinkAnswers s) :
    (∃ s₁, emitBatch batch s = .go s₁ ∧ s₁ = { s with evt := s₁.evt }) ∨
    (∃ s₁, emitBatch batch s = .raised s₁ ∧ s₁.phase = .fail) := by
  rcases emitBatch_cases batch s with ⟨-, e⟩ | ⟨-, -, e⟩ | ⟨k, -, -, e⟩ | ⟨ht, ha, -⟩
  · exact .inl ⟨_, e, rfl⟩
  · exact .inl ⟨_, e, rfl⟩
  · exact .inr ⟨_, e, rfl⟩
  · rcases h with h | h
    · rw [ht] at h; cases h
    · exact absurd ha h

theorem emitBatch_of_silent (batch : List Byte) {s : State} (h : ¬ SinkAnswers s) :
    emitBatch batch s = .stop .sinkNeverAnswers := by
  rcases emitBatch_cases batch s with ⟨ht, -⟩ | ⟨-, ha, -⟩ | ⟨k, -, ha, -⟩ | ⟨-, -, e⟩
  · exact absurd (.inl ht) h
  · exact absurd (.inr (by rw [ha]; nofun)) h
  · exact absurd (.inr (by rw [ha]; nofun)) h
  · exact e

/-- SAMPLE and DISCARD of a whole frame in valid cells go through. -/
theorem sample_then_discard {s : State} {p : Nat} (hp : s.phase = .run) (hv : CellsValid s)
    (hl : p + s.n.toNat + 1 ≤ s.len) :
    ∃ s₂ s₃, exec (.sample p) s = .next s₂ ∧ exec (.discard p) s₂ = .next s₃ ∧
      (sampleFrame p s).andThen (discardFrame p) = .go s₃ := by
  obtain ⟨s₂, hsample⟩ : ∃ s₂, sampleFrame p s = .go s₂ := ⟨_, sampleFrame_cells p s hv hl⟩
  have hs₂ := sampleFrame_eq_go hsample
  have hrun : s₂.phase = .run := by rw [hs₂]; exact hp
  have hdiscard : discardFrame p s₂ = .go (dropBytes (p + s₂.n.toNat + 1) s₂) :=
    discardFrame_eq_dropBytes (by rw [hs₂]; exact hv) (by rw [hs₂]; exact hl)
  refine ⟨s₂, dropBytes (p + s₂.n.toNat + 1) s₂, ?_, ?_, ?_⟩
  · rw [exec_sample hp, hsample, Flow.go_outcome]
  · rw [exec_discard hrun, hdiscard, Flow.go_outcome]
  · rw [hsample, Flow.go_andThen, hdiscard]

/-- Settles O20: CYCLEEND is the processing of the frame that SCAN found. -/
theorem cycleendIsTheSubProceduresInOrder : Obligations.CycleendIsTheSubProceduresInOrder := by
  intro s p hinv hq hmax
  have hv := hinv.cells
  have hscan := scanBuf_eq_some s hv p hq hmax
  have hlen := batchAt_length s p hv hq.1
  have hcycle := processFrame_of_decoded (decodeBatch_cells p s hv hq.1)
  rw [← cycleEnd_of_some hscan] at hcycle
  refine ⟨exec_scan_of_ok hinv.phase hscan, batchAt s p,
    exec_decode_cells hinv.phase hv hq.1, fun hans => ?_, fun hsilent => ?_⟩
  · rw [exec_emit hinv.phase hlen, exec_cycleend hinv.phase, hcycle]
    rcases emitBatch_of_sinkAnswers (batchAt s p) hans with ⟨s₁, e, hs₁⟩ | ⟨s₁, e, hfail⟩
    · have hrun : s₁.phase = .run := by rw [hs₁]; exact hinv.phase
      have hv₁ : CellsValid s₁ := by rw [hs₁]; exact hv
      obtain ⟨s₂, s₃, h₂, h₃, hgo⟩ :=
        sample_then_discard (p := p) hrun hv₁ (by rw [hs₁]; exact hq.1)
      rw [e, Flow.go_andThen, hgo]
      exact ⟨s₁, rfl, fun h => absurd (hrun.symm.trans h) nofun, fun _ => ⟨s₂, s₃, h₂, h₃, rfl⟩⟩
    · rw [e]
      exact ⟨s₁, rfl, fun _ => rfl, fun h => absurd hfail h⟩
  · rw [exec_emit hinv.phase hlen, exec_cycleend hinv.phase, hcycle,
      emitBatch_of_silent _ hsilent]
    exact ⟨rfl, rfl⟩

/-- Settles O24: what CYCLEEND leaves when it goes on; a raise ends in phase FAIL. -/
theorem oneScanPerCycleIsEnough : Obligations.OneScanPerCycleIsEnough := by
  intro s t hinv h ht
  rw [exec_cycleend hinv.phase] at h
  rcases Flow.outcome_eq_next h with hgo | hraised
  · obtain ⟨-, -, -, hnone, -⟩ := cycleEnd_go_spec hinv.cells hinv.cap hinv.lenLe hgo
    refine ⟨hnone, ?_⟩
    rcases cycleEnd_eq_go hgo with e | ⟨batch, hproc⟩
    · exact .inl (by rw [e])
    · rw [hproc.state]
      cases s.cfg.testmode with
      | true => exact .inl (List.append_nil _)
      | false => exact .inr ⟨batch, hproc.count, rfl⟩
  · obtain ⟨batch, k, hfail⟩ := cycleEnd_eq_raised hraised
    rw [hfail.state] at ht
    exact absurd rfl ht

/-- Settles O28: the frame at the end of the buffer is the rightmost that fits. -/
theorem newestFrameWins : Obligations.NewestFrameWins := by
  intro s older payload hinv _ hans htest hbytes hlen
  have hv := hinv.cells
  have htotal : s.len = older.length + (s.n.toNat + 1) := by
    rw [← hv.length, hbytes, List.length_append, List.length_cons, hlen]
  have hq : Qualifies s older.length := by
    rw [qualifies_iff hv, hbytes]
    exact ⟨by omega, by simp⟩
  have hmax : ∀ q, Qualifies s q → q ≤ older.length := fun q hq => by have := hq.1; omega
  have hcycle : cycleEnd s = .go (afterFrame s older.length) := by
    rw [cycleEnd_of_some (scanBuf_eq_some s hv _ hq hmax)]
    rcases processFrame_cells older.length s hv hq.1 with ⟨-, e⟩ | ⟨k, -, ha, -⟩ | ⟨-, ha, -⟩
    · exact e
    · rw [hans] at ha; cases ha
    · rw [hans] at ha; cases ha
  have hbatch : batchAt s older.length = payload := by
    rw [batchAt, hbytes, ← hlen]
    simp
  refine ⟨afterFrame s older.length, ?_, hinv.phase, rfl, ?_, ?_⟩
  · rw [exec_cycleend hinv.phase, hcycle, Flow.go_outcome]
  · change s.len - _ = 0
    omega
  · simp only [afterFrame, htest, hbatch]
    rfl

end Sys2Proof.Machine
end

section
/-! O16, O17, O25, O26, O59: the two beats of phase RUN (41_synchronizer.md R122, R123, R135).  PUSH
and PUSHL are `beatFlow` with `last` 0 and 1: the append, then CYCLEEND if the read cycle ends. -/

namespace Sys2Proof.Machine

theorem exec_push {s : State} (hp : s.phase = .run) (d : Byte) :
    exec (.push d) s = (beatFlow false d s).outcome :=
  (execPush_eq_beatFlow d s).trans (inPhase_of _ hp)

theorem exec_pushl {s : State} (hp : s.phase = .run) (d : Byte) :
    exec (.pushl d) s = (beatFlow true d s).outcome :=
  (execPushl_eq_beatFlow d s).trans (inPhase_of _ hp)

theorem decode_beatOf_false (d : Byte) : decode (.runBeat (beatOf false d)) = .ok (.push d) := by
  rw [decode, decodeRun, beatLast_beatOf, beatData_beatOf]
  rfl

theorem decode_beatOf_true (d : Byte) : decode (.runBeat (beatOf true d)) = .ok (.pushl d) := by
  rw [decode, decodeRun, beatLast_beatOf, beatData_beatOf]
  rfl

theorem Appended.phase {d : Byte} {s a : State} (h : Appended d s a) : a.phase = s.phase := by
  rw [h.rest]

theorem Appended.cfg {d : Byte} {s a : State} (h : Appended d s a) : a.cfg = s.cfg := by
  rw [h.rest]

/-- A beat where there is room: the append, then CYCLEEND if the read cycle ends. -/
theorem beatFlow_of_room (last : Bool) (d : Byte) {s : State} (hl : s.len < s.cfg.cap) :
    ∃ a, Appended d s a ∧
      beatFlow last d s = if last ∨ s.len + 1 = s.cfg.cap then cycleEnd a else .go a := by
  rcases beatFlow_cases last d s with ⟨hfull, -⟩ | ⟨a, ha, -, -, e⟩
  · omega
  · rw [ha.len, ha.cfg] at e
    exact ⟨a, ha, e⟩

/-- A beat completes from a state that meets the invariant, with a sink that answers. -/
theorem beatFlow_completes (last : Bool) (d : Byte) {s : State} (hp : s.phase = .run)
    (h : BlockInv s) (hsink : SinkAnswers s) : ∃ t, (beatFlow last d s).outcome = .next t := by
  rcases beatFlow_completesOrStalls last d s (h.cells_of_run hp) h.cap_ge (h.len_lt_of_run hp) with
    hnext | ⟨-, htest, hans⟩
  · exact hnext
  · rcases hsink with hsink | hsink
    · rw [htest] at hsink; cases hsink
    · exact absurd hans hsink

/-- Settles O16: PUSH is the append, then CYCLEEND if that filled the buffer. -/
theorem pushAppendsTheByte : Obligations.PushAppendsTheByte := by
  intro d s hp hl
  obtain ⟨a, ha, e⟩ := beatFlow_of_room false d hl
  rw [exec_push hp]
  refine ⟨decode_beatOf_false d, a, ha, fun hroom => ?_, fun hfull =>
    ⟨?_, beatFlow_completes false d hp⟩⟩
  · rw [e, if_neg (by simp [hroom]), Flow.go_outcome]
  · rw [e, if_pos (.inr hfull), exec_cycleend (ha.phase.trans hp)]

/-- Settles O17: PUSHL is the append, then CYCLEEND. -/
theorem pushlAppendsAndEndsTheCycle : Obligations.PushlAppendsAndEndsTheCycle := by
  intro d s hp hl
  obtain ⟨a, ha, e⟩ := beatFlow_of_room true d hl
  have hcycle : exec (.pushl d) s = exec .cycleend a := by
    rw [exec_pushl hp, e, if_pos (.inl rfl), exec_cycleend (ha.phase.trans hp)]
  refine ⟨decode_beatOf_true d, a, ha, hcycle, fun hinv hsink => ?_⟩
  obtain ⟨t, ht⟩ := beatFlow_completes true d hp hinv hsink
  rw [← exec_pushl hp] at ht
  exact ⟨t, ht, hcycle.symm.trans ht⟩

/-- Settles O26: a beat that does not raise leaves room, by CYCLEEND if it filled the buffer; RESET
empties it. -/
theorem forwardProgress : Obligations.ForwardProgress := by
  intro d s t hp hinv h ht
  rcases or_assoc.mpr h with hbeat | hreset
  · obtain ⟨last, hflow⟩ := exec_push_or_pushl_eq_next hbeat
    obtain ⟨-, -, hlt, -, -, -, hcfg, -⟩ :=
      beatFlow_go_spec (hinv.cells_of_run hp) hinv.cap_ge (hinv.len_lt_of_run hp)
        (beatFlow_eq_go_of_phase_ne_fail hflow ht)
    rw [hcfg]
    exact hlt
  · cases hreset
    rw [resetBlock_len, resetBlock_cfg]
    exact Nat.lt_of_lt_of_le (by decide) hinv.cap_ge

/-! ### A frame completed inside a read cycle -/

/-- A PUSH that does not fill the buffer appends the byte and does nothing else. -/
theorem exec_push_stores {s : State} (d : Byte) (hp : s.phase = .run) (hv : CellsValid s)
    (hroom : s.len + 1 < s.cfg.cap) : exec (.push d) s = .next (pushed d s) := by
  rw [exec_push hp, beatFlow_cells false d s hv (by omega), if_neg (by simp; omega),
    Flow.go_outcome]

/-- The byte appended completes the frame whose marker stands `N` cells below it. -/
theorem qualifies_pushed {s : State} {p : Nat} (d : Byte) (hv : CellsValid s)
    (hp : p + s.n.toNat = s.len) (hm : readBuf s p = some s.m) (hn : 1 ≤ s.n.toNat) :
    Qualifies (pushed d s) p := by
  obtain ⟨hv', hc⟩ := pushed_cells d s hv
  have hlt : p < (contents s).length := by rw [hv.length]; omega
  rw [qualifies_iff hv', hc, List.getElem?_append_left hlt, ← hv.readBuf]
  exact ⟨Nat.le_of_eq (congrArg (· + 1) hp), hm⟩

/-- Settles O59: the PUSH stores the byte only, so what it leaves is `pushed`. -/
theorem completedFrameWaitsAfterPush : Obligations.CompletedFrameWaitsAfterPush := by
  intro d s p hinv hp hroom hpos hm
  have hv := hinv.cells_of_run hp
  obtain ⟨hn, -, -, -, -⟩ := hinv.run hp
  have hpush := exec_push_stores d hp hv hroom
  exact ⟨pushed d s, hpush, beatFlow_keeps_blockInv hinv hp ((exec_push hp d).symm.trans hpush), hp,
    qualifies_pushed d hv hpos hm hn, rfl, rfl, rfl⟩

/-- One channel, and its marker alone in the buffer. -/
def markerHeld : State :=
  { State.reset with phase := .run, n := 1#4, m := markerOf 1, buf := [(0, markerOf 1)], len := 1 }

theorem blockInv_markerHeld : BlockInv markerHeld where
  config := default_ok
  canonical := rfl
  lenLe := by decide
  seqLt := Nat.two_pow_pos _
  transient := rfl
  cells _ := rfl
  boot := nofun
  run _ := by decide
  fail := nofun

/-- Settles O25: the byte after the marker of `markerHeld`, by O59. -/
theorem frameMayWaitForTheEndOfTheChunk : Obligations.FrameMayWaitForTheEndOfTheChunk := by
  obtain ⟨t, hpush, hinv, hrun, hq, hevt, -, -⟩ :=
    completedFrameWaitsAfterPush 0#8 markerHeld 0 blockInv_markerHeld rfl (by decide) rfl rfl
  refine ⟨markerHeld, t, blockInv_markerHeld, rfl, fun p hp => ?_, ⟨0#8, hpush⟩, hinv, hrun, hevt,
    0, hq⟩
  have hshort : p + 1 + 1 ≤ 1 := hp.1
  omega

end Sys2Proof.Machine
end

section
/-! O29: a read as one operation (41_synchronizer.md R136).  Its beats before the last one are
PUSHes that leave room, so they only store their bytes; the last one is a PUSHL. -/

namespace Sys2Proof.Machine

/-- `u` is `s` after beats with these bytes were taken and only stored. -/
structure Stored (bytes : List Byte) (rest : List Offer) (s u : State) : Prop where
  cells : CellsValid u
  contents : contents u = contents s ++ bytes
  state : u = { s with
    buf := u.buf, len := s.len + bytes.length, source := rest, ans := u.ans }

section
variable {bytes : List Byte} {rest : List Offer} {s u : State}

theorem Stored.quiet (h : Stored bytes rest s u) (hq : Quiet s) : Quiet u := by
  rw [h.state]; exact hq

theorem Stored.phase (h : Stored bytes rest s u) : u.phase = s.phase := by rw [h.state]
theorem Stored.source (h : Stored bytes rest s u) : u.source = rest := by rw [h.state]
theorem Stored.cfg (h : Stored bytes rest s u) : u.cfg = s.cfg := by rw [h.state]
theorem Stored.len (h : Stored bytes rest s u) : u.len = s.len + bytes.length := by rw [h.state]

theorem stored_nil (hv : CellsValid s) (hs : s.source = rest) : Stored [] rest s s := by
  subst hs; exact ⟨hv, (List.append_nil _).symm, rfl⟩

theorem Stored.append {more : List Byte} {rest' : List Offer} {v : State}
    (h : Stored bytes rest s u) (h' : Stored more rest' u v) :
    Stored (bytes ++ more) rest' s v := by
  refine ⟨h'.cells, ?_, ?_⟩
  · rw [h'.contents, h.contents, List.append_assoc]
  · rw [h'.state, h.state, List.length_append, ← Nat.add_assoc]

/-- Taking a beat and appending its byte. -/
theorem stored_pushed {o : Offer} (hv : CellsValid s) :
    Stored [beatData o.word] rest s (pushed (beatData o.word) (takeBeat o rest s)) := by
  obtain ⟨hv', hc⟩ := pushed_cells (beatData o.word) (takeBeat o rest s) hv
  exact ⟨hv', hc, rfl⟩

end

/-- A beat with `last = 0` that does not fill the buffer is stored. -/
theorem step_stores_beat {o : Offer} {rest : List Offer} {s : State} (hq : Quiet s)
    (hp : s.phase = .run) (hv : CellsValid s) (hs : s.source = o :: rest)
    (hlast : beatLast o.word = false) (hroom : s.len + 1 < s.cfg.cap) :
    ∃ u, step s = .next u ∧ Stored [beatData o.word] rest s u := by
  refine ⟨_, ?_, stored_pushed hv⟩
  rw [step_run hq hp hs, decodeRun, hlast]
  exact exec_push_stores (s := takeBeat o rest s) (beatData o.word) hp hv hroom

theorem run_stores_beats (offers : List Offer) {rest : List Offer} {s : State} (hq : Quiet s)
    (hp : s.phase = .run) (hv : CellsValid s) (hs : s.source = offers ++ rest)
    (hlast : ∀ o ∈ offers, beatLast o.word = false) (hroom : s.len + offers.length < s.cfg.cap) :
    ∃ u, Sys2Proof.core.run offers.length s = .next u ∧ Stored (offerBytes offers) rest s u := by
  induction offers generalizing s with
  | nil => exact ⟨s, rfl, stored_nil hv hs⟩
  | cons o offers ih =>
    rw [List.length_cons] at hroom ⊢
    obtain ⟨ho, hlast⟩ := List.forall_mem_cons.mp hlast
    obtain ⟨u, hstep, hu⟩ := step_stores_beat hq hp hv hs ho (by omega)
    have hroom' : u.len + offers.length < u.cfg.cap := by
      rw [hu.len, hu.cfg, List.length_singleton]; omega
    obtain ⟨v, hrun, hv'⟩ := ih (hu.quiet hq) (hu.phase.trans hp) hu.cells hu.source hlast hroom'
    exact ⟨v, (run_succ_of_next _ hstep).trans hrun, hu.append hv'⟩

/-- A beat with `last = 1` is stored and runs CYCLEEND. -/
theorem step_ends_read {o : Offer} {rest : List Offer} {s : State} (hq : Quiet s)
    (hp : s.phase = .run) (hv : CellsValid s) (hs : s.source = o :: rest)
    (hlast : beatLast o.word = true) (hl : s.len < s.cfg.cap) :
    ∃ a, Stored [beatData o.word] rest s a ∧ a.ans = o.ans ∧ step s = exec .cycleend a := by
  refine ⟨_, stored_pushed hv, rfl, ?_⟩
  rw [step_run hq hp hs, decodeRun, hlast, if_pos rfl, exec_pushl (s := takeBeat o rest s) hp,
    beatFlow_cells true _ (takeBeat o rest s) hv hl, if_pos (.inl rfl)]
  exact (exec_cycleend (s := pushed (beatData o.word) (takeBeat o rest s)) hp).symm

/-- The offers of PUSHes of these bytes. -/
def pushOffers (ans : SinkAnswer) (bs : List Byte) : List Offer :=
  bs.map fun d => ⟨beatOf false d, ans⟩

@[simp] theorem length_pushOffers (ans : SinkAnswer) (bs : List Byte) :
    (pushOffers ans bs).length = bs.length := List.length_map _

theorem offerBytes_pushOffers (ans : SinkAnswer) (bs : List Byte) :
    offerBytes (pushOffers ans bs) = bs := by
  simp [offerBytes, pushOffers, Function.comp_def]

theorem beatLast_of_mem_pushOffers {ans : SinkAnswer} {bs : List Byte} :
    ∀ o ∈ pushOffers ans bs, beatLast o.word = false := by
  simp [pushOffers]

/-- A read offers PUSHes of all its bytes but the last, and then the PUSHL of that one. -/
theorem chunkOffers_concat (ans : SinkAnswer) (bs : List Byte) (b : Byte) :
    (chunkBeats (bs ++ [b])).map (fun w => Offer.mk w ans) =
      pushOffers ans bs ++ [⟨beatOf true b, ans⟩] := by
  rw [chunkBeats_concat, List.map_append, List.map_map]
  rfl

/-- Settles O29: all bytes but the last are stored by PUSHes, the last one by the PUSHL that runs
CYCLEEND. -/
theorem chunkIsAppendThenCycleend : Obligations.ChunkIsAppendThenCycleend := by
  intro s bs b ans rest hinv hq hp hfit hs
  rw [chunkOffers_concat, List.append_assoc] at hs
  obtain ⟨u, hrun, hu⟩ := run_stores_beats (pushOffers ans bs) hq hp (hinv.cells_of_run hp) hs
    beatLast_of_mem_pushOffers (by rw [length_pushOffers]; omega)
  rw [length_pushOffers] at hrun
  rw [offerBytes_pushOffers] at hu
  obtain ⟨a, ha, hans, hstep⟩ := step_ends_read (rest := rest) (hu.quiet hq) (hu.phase.trans hp)
    hu.cells hu.source (beatLast_beatOf true b) (by rw [hu.len, hu.cfg]; omega)
  have hall : Stored (bs ++ [b]) rest s a := by
    simpa only [beatData_beatOf] using hu.append ha
  have hans : a.ans = ans := hans
  refine ⟨a, ?_, hall.cells, ?_, (run_add _ 1 hrun).trans ((run_one u).trans hstep)⟩
  · rw [hall.contents, List.append_assoc]
  · have hstate := hall.state
    rwa [hans, List.length_append, List.length_singleton] at hstate

end Sys2Proof.Machine
end

section
/-! O30, O31, O32: the batches of a stream (41_synchronizer.md R137, R138, R139).  A run that takes
offered beats is the chain of its beats' effects on the bytes of the buffer (`BeatEffect`).  Each
claim is then one about lists, by induction on that chain: what the buffer holds together with the
bytes still to come keeps its form. -/

namespace Sys2Proof.Machine

/-! ### The run as a chain of effects -/

/-- What a stream of beats makes of the bytes `c` of the buffer when the sink accepts everything:
`c'` is the buffer afterwards, `batches` what is published. -/
inductive StreamEffect (m : Byte) (n cap : Nat) :
    List Offer → List Byte → List Byte → List (List Byte) → Prop
  | nil (c : List Byte) : StreamEffect m n cap [] c c []
  | cons {o : Offer} {offers : List Offer} {c c₁ c' : List Byte} {out : Option (List Byte)}
      {batches : List (List Byte)}
      (hbeat : BeatEffect m n cap (beatLast o.word) (c ++ [beatData o.word]) c₁ out)
      (hrest : StreamEffect m n cap offers c₁ c' batches) :
      StreamEffect m n cap (o :: offers) c c' (out.toList ++ batches)

theorem publishedEvents_eq (out : Option (List Byte)) :
    publishedEvents out = out.toList.flatMap batchEvents := by
  cases out with
  | none => rfl
  | some batch => exact (List.flatMap_singleton batchEvents batch).symm

theorem RunsOn.trans {s t u : State} (h : RunsOn s t) (h' : RunsOn t u) : RunsOn s u :=
  ⟨h'.phase, h'.quiet, h'.n.trans h.n, h'.m.trans h.m, h'.cfg.trans h.cfg, h'.err.trans h.err,
    h'.cells, h'.len⟩

/-- A state a beat has left takes the next one. -/
theorem RunsOn.self {s t : State} (h : RunsOn s t) : RunsOn t t :=
  ⟨h.phase, h.quiet, rfl, rfl, rfl, rfl, h.cells, h.len⟩

theorem BlockInv.runsOn {s : State} (h : BlockInv s) (hq : Quiet s) (hp : s.phase = .run) :
    RunsOn s s :=
  ⟨hp, hq, rfl, rfl, rfl, rfl, h.cells_of_run hp, h.len_lt_of_run hp⟩

theorem run_beats (offers : List Offer) {rest : List Offer} {s : State} (h : RunsOn s s)
    (hcap : 30 ≤ s.cfg.cap) (htm : s.cfg.testmode = false) (hs : s.source = offers ++ rest)
    (hans : ∀ o ∈ offers, o.ans = .ok) :
    ∃ (t : State) (batches : List (List Byte)), Sys2Proof.core.run offers.length s = .next t ∧
      RunsOn s t ∧ t.source = rest ∧ t.evt = s.evt ++ batches.flatMap batchEvents ∧
      StreamEffect s.m s.n.toNat s.cfg.cap offers (contents s) (contents t) batches := by
  induction offers generalizing s with
  | nil => exact ⟨s, [], rfl, h, hs, (List.append_nil _).symm, .nil _⟩
  | cons o offers ih =>
    obtain ⟨ho, hans⟩ := List.forall_mem_cons.mp hans
    obtain ⟨u, out, hstep, hu, hsource, hevt, hbeat⟩ :=
      step_beat h.quiet h.phase h.cells h.len hcap htm hs ho
    obtain ⟨t, batches, hrun, ht, hrest, hevt', heffect⟩ :=
      ih hu.self (hu.cfg ▸ hcap) (hu.cfg ▸ htm) hsource hans
    rw [hu.m, hu.n, hu.cfg] at heffect
    refine ⟨t, out.toList ++ batches, (run_succ_of_next _ hstep).trans hrun, hu.trans ht, hrest, ?_,
      .cons hbeat heffect⟩
    rw [hevt', hevt, publishedEvents_eq, List.flatMap_append, List.append_assoc]

theorem offerBytes_cons (o : Offer) (offers : List Offer) :
    offerBytes (o :: offers) = beatData o.word :: offerBytes offers := rfl

/-! ### Qualifying positions in lists of bytes -/

theorem QualifiesIn.append {m : Byte} {n : Nat} {c : List Byte} {p : Nat}
    (h : QualifiesIn m n c p) (more : List Byte) : QualifiesIn m n (c ++ more) p := by
  obtain ⟨hl, hm⟩ := h
  refine ⟨by rw [List.length_append]; omega, ?_⟩
  rw [List.getElem?_append_left (by omega), hm]

theorem qualifiesIn_drop_iff {m : Byte} {n : Nat} {c : List Byte} {k p : Nat} :
    QualifiesIn m n (c.drop k) p ↔ QualifiesIn m n c (k + p) := by
  rw [QualifiesIn, QualifiesIn, List.length_drop, List.getElem?_drop]
  exact and_congr_left fun _ => by omega

/-- Where `M` stands in a stream behind noise, the noise is over. -/
theorem length_noise_le {m : Byte} {noise stream : List Byte} {p : Nat} (hnoise : m ∉ noise)
    (hm : (noise ++ stream)[p]? = some m) : noise.length ≤ p := by
  refine Nat.le_of_not_lt fun hlt => ?_
  rw [List.getElem?_append_left hlt] at hm
  exact hnoise (List.mem_of_getElem? hm)

/-- A whole frame behind noise is the only place where one can stand in these bytes. -/
theorem qualifiesIn_frame_iff {m : Byte} {n : Nat} {noise payload : List Byte} (hnoise : m ∉ noise)
    (hlen : payload.length = n) {p : Nat} :
    QualifiesIn m n (noise ++ m :: payload) p ↔ p = noise.length := by
  have htotal : (noise ++ m :: payload).length = noise.length + (n + 1) := by
    rw [List.length_append, List.length_cons, hlen]
  constructor
  · rintro ⟨hl, hm⟩
    have hge := length_noise_le hnoise hm
    omega
  · rintro rfl
    exact ⟨by omega, by simp⟩

/-- A stream at a marker begins with `M`. -/
theorem head?_cons_eq {m : Byte} {bytes : List Byte} : ∀ b ∈ (m :: bytes).head?, b = m :=
  fun _ hb => (Option.some.inj hb).symm

/-- Bytes without `M`, dropped from a stream whose first `M` stands behind the noise, are noise. -/
theorem drop_noise {m : Byte} {noise stream : List Byte} {k : Nat}
    (hstream : ∀ b ∈ stream.head?, b = m) (hk : m ∉ (noise ++ stream).take k) :
    (noise ++ stream).drop k = noise.drop k ++ stream := by
  rw [List.drop_append]
  congr 1
  cases stream with
  | nil => exact List.drop_nil
  | cons b stream =>
    obtain rfl : b = m := hstream b rfl
    have hle : k ≤ noise.length := Nat.le_of_not_lt fun hlt =>
      hk (List.mem_of_getElem? (i := noise.length)
        (by rw [List.getElem?_take_of_lt hlt]; simp))
    rw [Nat.sub_eq_zero_of_le hle, List.drop_zero]

/-- What overflow recovery drops while the stream is at noise is noise. -/
theorem overflow_drops_noise {m : Byte} {n cap : Nat} {c more noise stream : List Byte}
    (hn : n ≤ 14) (hcap : 30 ≤ cap) (hfull : c.length = cap)
    (hnone : ∀ p, ¬ QualifiesIn m n c p) (hstream : ∀ b ∈ stream.head?, b = m)
    (htotal : c ++ more = noise ++ stream) :
    c.drop (cap / 2) ++ more = noise.drop (cap / 2) ++ stream := by
  have hle : cap / 2 ≤ c.length := by omega
  have hnoM := not_mem_oldestHalf hn hcap hfull hnone
  rw [← List.take_append_of_le_length (l₂ := more) hle, htotal] at hnoM
  rw [← List.drop_append_of_le_length hle, htotal, drop_noise hstream hnoM]

/-! ### The greedy parse -/

theorem greedyParse_noise {m : Byte} (n : Nat) {noise : List Byte} (hnoise : m ∉ noise)
    (bytes : List Byte) :
    greedyParse m n none (noise ++ bytes) = greedyParse m n none bytes := by
  induction noise with
  | nil => rfl
  | cons b noise ih =>
    rw [List.mem_cons, not_or] at hnoise
    rw [List.cons_append, greedyParse, if_neg (Ne.symm hnoise.1), ih hnoise.2]

theorem greedyParse_payload (m : Byte) {n : Nat} {part payload : List Byte} (hne : payload ≠ [])
    (hlen : part.length + payload.length = n) (bytes : List Byte) :
    greedyParse m n (some part) (payload ++ bytes) =
      (part ++ payload) :: greedyParse m n none bytes := by
  induction payload generalizing part with
  | nil => exact absurd rfl hne
  | cons b payload ih =>
    rw [List.length_cons] at hlen
    rw [List.cons_append, greedyParse]
    cases payload with
    | nil =>
      rw [List.length_nil, Nat.zero_add] at hlen
      rw [if_pos hlen, List.nil_append]
    | cons d payload =>
      rw [List.length_cons] at hlen
      rw [if_neg (by omega), ih (List.cons_ne_nil _ _) (by simp; omega), List.append_assoc]
      rfl

theorem greedyParse_short (m : Byte) {n : Nat} {part bytes : List Byte}
    (h : part.length + bytes.length < n) : greedyParse m n (some part) bytes = [] := by
  induction bytes generalizing part with
  | nil => rfl
  | cons b bytes ih =>
    rw [List.length_cons] at h
    rw [greedyParse, if_neg (by omega), ih (by simp; omega)]

theorem greedyParse_frame {m : Byte} {n : Nat} {noise payload : List Byte} (hn : 1 ≤ n)
    (hnoise : m ∉ noise) (hlen : payload.length = n) (bytes : List Byte) :
    greedyParse m n none (noise ++ m :: payload ++ bytes) =
      payload :: greedyParse m n none bytes := by
  have hne : payload ≠ [] := List.ne_nil_of_length_pos (by omega)
  rw [List.append_assoc, greedyParse_noise n hnoise, List.cons_append, greedyParse, if_pos rfl,
    greedyParse_payload m hne (by simpa using hlen), List.nil_append]

/-- Bytes in which no position qualifies hold no whole frame. -/
theorem greedyParse_of_not_qualifiesIn {m : Byte} {n : Nat} {c : List Byte}
    (hnone : ∀ p, ¬ QualifiesIn m n c p) : greedyParse m n none c = [] := by
  by_cases hm : m ∈ c
  · obtain ⟨noise, bytes, rfl, hnoise⟩ := List.eq_append_cons_of_mem hm
    have hshort : bytes.length < n := by
      refine Nat.lt_of_not_le fun hge => hnone noise.length ⟨?_, by simp⟩
      rw [List.length_append, List.length_cons]
      omega
    rw [greedyParse_noise n hnoise, greedyParse, if_pos rfl,
      greedyParse_short m (by rw [List.length_nil]; omega)]
  · rw [← List.append_nil c, greedyParse_noise n hm]
    rfl

/-! ### One-byte chunks -/

/-- Where no position qualified before the last byte, a qualifying position is the marker of a frame
that this byte completes, and the bytes before it are noise. -/
theorem frame_completed_by_last_byte {m : Byte} {n : Nat} {c : List Byte} {d : Byte} {p : Nat}
    (hnone : ∀ q, ¬ QualifiesIn m n c q) (hp : QualifiesIn m n (c ++ [d]) p) :
    p + n + 1 = (c ++ [d]).length ∧ m ∉ (c ++ [d]).take p := by
  obtain ⟨hl, hm⟩ := hp
  have hlen : (c ++ [d]).length = c.length + 1 := List.length_append
  have old : ∀ q, q + n + 1 ≤ c.length → (c ++ [d])[q]? ≠ some m := fun q hq hqm => by
    rw [List.getElem?_append_left (by omega)] at hqm
    exact hnone q ⟨hq, hqm⟩
  have hend : p + n + 1 = (c ++ [d]).length := by
    refine Nat.le_antisymm hl (Nat.le_of_not_lt fun hlt => old p ?_ hm)
    omega
  refine ⟨hend, fun hmem => ?_⟩
  obtain ⟨q, hq, hqm⟩ := List.mem_take_iff_getElem.mp hmem
  exact old q (by omega) (List.getElem?_eq_some_iff.mpr ⟨by omega, hqm⟩)

/-- Bytes split at a byte equal to `M`. -/
theorem eq_take_append_marker {m : Byte} {bytes : List Byte} {p : Nat} (h : bytes[p]? = some m) :
    bytes = bytes.take p ++ m :: bytes.drop (p + 1) := by
  obtain ⟨hp, hm⟩ := List.getElem?_eq_some_iff.mp h
  rw [← hm, ← List.drop_eq_getElem_cons hp, List.take_append_drop]

/-- A beat with `last = 1` takes the greedy parse one byte further: what it publishes is what the
parse finds, and no position qualifies in what it leaves. -/
theorem BeatEffect.greedy {m : Byte} {n cap : Nat} {c c' : List Byte} {d : Byte}
    {out : Option (List Byte)} (hn₁ : 1 ≤ n) (hn₂ : n ≤ 14) (hcap : 30 ≤ cap)
    (hnone : ∀ p, ¬ QualifiesIn m n c p) (h : BeatEffect m n cap true (c ++ [d]) c' out)
    (bytes : List Byte) :
    (∀ p, ¬ QualifiesIn m n c' p) ∧
      greedyParse m n none (c ++ [d] ++ bytes) =
        out.toList ++ greedyParse m n none (c' ++ bytes) := by
  cases h with
  | store hlast _ => cases hlast
  | wait hnone' _ => exact ⟨hnone', rfl⟩
  | overflow hnone' hfull =>
    refine ⟨fun p hp => hnone' _ (qualifiesIn_drop_iff.mp hp), ?_⟩
    rw [← List.take_append_drop (cap / 2) (c ++ [d]), List.append_assoc,
      greedyParse_noise n (not_mem_oldestHalf hn₂ hcap hfull hnone'), List.take_append_drop]
    rfl
  | frame p hp hmax _ =>
    obtain ⟨hend, hnoise⟩ := frame_completed_by_last_byte hnone hp
    have hsplit := eq_take_append_marker hp.2
    have hpayload : ((c ++ [d]).drop (p + 1)).length = n := by rw [List.length_drop]; omega
    rw [List.drop_of_length_le (Nat.le_of_eq hend.symm), List.take_of_length_le (by omega)]
    refine ⟨fun q hq => by have := hq.1; simp at this, ?_⟩
    rw [hsplit, greedyParse_frame hn₁ hnoise hpayload, ← hsplit]
    rfl

theorem StreamEffect.eq_greedyParse {m : Byte} {n cap : Nat} {offers : List Offer}
    {c c' : List Byte} {batches : List (List Byte)} (hn₁ : 1 ≤ n) (hn₂ : n ≤ 14) (hcap : 30 ≤ cap)
    (h : StreamEffect m n cap offers c c' batches) (hlast : ∀ o ∈ offers, beatLast o.word = true)
    (hnone : ∀ p, ¬ QualifiesIn m n c p) :
    batches = greedyParse m n none (c ++ offerBytes offers) := by
  induction h with
  | nil c =>
    refine (greedyParse_of_not_qualifiesIn ?_).symm
    rw [offerBytes, List.map_nil, List.append_nil]
    exact hnone
  | @cons o offers c c₁ c' out batches hbeat _ ih =>
    obtain ⟨ho, hlast⟩ := List.forall_mem_cons.mp hlast
    rw [ho] at hbeat
    obtain ⟨hnone₁, hparse⟩ := hbeat.greedy hn₁ hn₂ hcap hnone (offerBytes offers)
    rw [offerBytes_cons, List.append_cons, hparse, ih hlast hnone₁]

/-- Settles O30: the run is a chain of beats that each take the greedy parse one byte further. -/
theorem oneByteChunksParseGreedily : Obligations.OneByteChunksParseGreedily := by
  intro s offers rest hinv hq hp hnone htm hs hoffers
  obtain ⟨hn₁, hn₂, -, -, -⟩ := hinv.run hp
  obtain ⟨t, batches, hrun, ht, hrest, hevt, heffect⟩ :=
    run_beats offers (hinv.runsOn hq hp) hinv.cap_ge htm hs fun o ho => (hoffers o ho).2
  have hnone' : ∀ p, ¬ QualifiesIn s.m s.n.toNat (contents s) p := fun p h =>
    hnone p ((qualifies_iff_in (hinv.cells_of_run hp) p).mpr h)
  rw [heffect.eq_greedyParse hn₁ hn₂ hinv.cap_ge (fun o ho => (hoffers o ho).1) hnone'] at hevt
  exact ⟨t, hrun, ht.phase, hrest, hevt⟩

/-! ### Noise, then one frame -/

/-- A beat that publishes nothing takes at most noise from the stream. -/
theorem BeatEffect.keeps_stream {m : Byte} {n cap : Nat} {last : Bool}
    {c c' more noise stream : List Byte} (hn : n ≤ 14) (hcap : 30 ≤ cap)
    (h : BeatEffect m n cap last c c' none) (hstream : ∀ b ∈ stream.head?, b = m)
    (htotal : c ++ more = noise ++ stream) :
    ∃ noise', noise' ⊆ noise ∧ c' ++ more = noise' ++ stream := by
  cases h with
  | store _ _ => exact ⟨noise, List.Subset.refl _, htotal⟩
  | wait _ _ => exact ⟨noise, List.Subset.refl _, htotal⟩
  | overflow hnone hfull =>
    exact ⟨noise.drop (cap / 2), List.drop_subset _ _,
      overflow_drops_noise hn hcap hfull hnone hstream htotal⟩

theorem BeatEffect.out_eq_none {m : Byte} {n cap : Nat} {last : Bool} {c c' : List Byte}
    {out : Option (List Byte)} (h : BeatEffect m n cap last c c' out)
    (hnone : ∀ p, ¬ QualifiesIn m n c p) : out = none := by
  cases h with
  | store _ _ => rfl
  | wait _ _ => rfl
  | overflow _ _ => rfl
  | frame p hp _ _ => exact absurd hp (hnone p)

theorem BeatEffect.frame_of_some {m : Byte} {n cap : Nat} {last : Bool} {c c' batch : List Byte}
    (h : BeatEffect m n cap last c c' (some batch)) :
    ∃ p, QualifiesIn m n c p ∧ c' = c.drop (p + n + 1) ∧ batch = (c.drop (p + 1)).take n := by
  cases h with
  | frame p hp _ _ => exact ⟨p, hp, rfl, rfl⟩

/-- The beat of the last byte of a frame behind noise, with `last = 1`, publishes the frame. -/
theorem BeatEffect.out_eq_payload {m : Byte} {n cap : Nat} {noise payload c' : List Byte}
    {out : Option (List Byte)} (h : BeatEffect m n cap true (noise ++ m :: payload) c' out)
    (hnoise : m ∉ noise) (hlen : payload.length = n) : out = some payload := by
  have hframe := (qualifiesIn_frame_iff hnoise hlen).mpr rfl
  cases h with
  | store hlast _ => cases hlast
  | wait hnone _ => exact absurd hframe (hnone _)
  | overflow hnone _ => exact absurd hframe (hnone _)
  | frame p hp _ _ =>
    obtain rfl := (qualifiesIn_frame_iff hnoise hlen).mp hp
    rw [← hlen]
    simp

/-- Before its last byte has come, a frame behind noise does not qualify. -/
theorem not_qualifiesIn_before_end {m : Byte} {n : Nat} {c more noise payload : List Byte}
    (hmore : more ≠ []) (hnoise : m ∉ noise) (hlen : payload.length = n)
    (htotal : c ++ more = noise ++ m :: payload) (p : Nat) : ¬ QualifiesIn m n c p := by
  intro hp
  have hwhole := hp.append more
  rw [htotal, qualifiesIn_frame_iff hnoise hlen] at hwhole
  have hlength := congrArg List.length htotal
  rw [List.length_append, List.length_append, List.length_cons] at hlength
  have hpos := List.length_pos_iff.mpr hmore
  have := hp.1
  omega

theorem StreamEffect.single_frame {m : Byte} {n cap : Nat} {offers : List Offer}
    {c c' noise payload : List Byte} {batches : List (List Byte)} (hn : n ≤ 14) (hcap : 30 ≤ cap)
    (h : StreamEffect m n cap offers c c' batches) (hne : offers ≠ [])
    (hlast : ∀ o, offers.getLast? = some o → beatLast o.word = true) (hnoise : m ∉ noise)
    (hlen : payload.length = n) (htotal : c ++ offerBytes offers = noise ++ m :: payload) :
    batches = [payload] := by
  induction h generalizing noise with
  | nil c => exact absurd rfl hne
  | @cons o offers c c₁ c' out batches hbeat hrest ih =>
    rw [offerBytes_cons, List.append_cons] at htotal
    by_cases hmore : offers = []
    · subst hmore
      cases hrest
      rw [offerBytes, List.map_nil, List.append_nil] at htotal
      rw [hlast o rfl, htotal] at hbeat
      rw [hbeat.out_eq_payload hnoise hlen]
      rfl
    · have hbytes : offerBytes offers ≠ [] := fun h => hmore (List.map_eq_nil_iff.mp h)
      obtain rfl := hbeat.out_eq_none (not_qualifiesIn_before_end hbytes hnoise hlen htotal)
      obtain ⟨noise', hsub, htotal'⟩ :=
        hbeat.keeps_stream hn hcap head?_cons_eq htotal
      exact ih hmore (fun o' ho' => hlast o' (by rw [List.getLast?_cons, ho']; rfl))
        (fun hm => hnoise (hsub hm)) htotal'

theorem contents_eq_nil {s : State} (hv : CellsValid s) (hl : s.len = 0) : contents s = [] :=
  List.eq_nil_of_length_eq_zero (hv.length.trans hl)

/-- Settles O31: until the last beat the stream stays noise and the frame; the last beat ends a read
and publishes the frame. -/
theorem singleFrameAfterNoise : Obligations.SingleFrameAfterNoise := by
  intro s noise payload offers rest hinv hq hp htm hl hlen hnoise hs hbytes hans hlast
  obtain ⟨-, hn, -, -, -⟩ := hinv.run hp
  obtain ⟨t, batches, hrun, ht, hrest, hevt, heffect⟩ :=
    run_beats offers (hinv.runsOn hq hp) hinv.cap_ge htm hs hans
  rw [contents_eq_nil (hinv.cells_of_run hp) hl] at heffect
  have hne : offers ≠ [] := by
    rintro rfl
    exact List.append_ne_nil_of_right_ne_nil noise (List.cons_ne_nil _ _) hbytes.symm
  have hbatches := heffect.single_frame hn hinv.cap_ge hne hlast (fun hm => hnoise _ hm rfl) hlen
    hbytes
  rw [hbatches, List.flatMap_singleton] at hevt
  exact ⟨t, hrun, ht.phase, hrest, hevt⟩

/-! ### Well-formed streams -/

/-- Whole frames with these payloads, then `tail`. -/
def wireBytes (m : Byte) (frames : List (List Byte)) (tail : List Byte) : List Byte :=
  frames.flatMap (fun f => m :: f) ++ tail

theorem wireBytes_cons (m : Byte) (f : List Byte) (frames : List (List Byte)) (tail : List Byte) :
    wireBytes m (f :: frames) tail = m :: (f ++ wireBytes m frames tail) := by
  rw [wireBytes, List.flatMap_cons, List.append_assoc]
  rfl

theorem head?_wireBytes {m : Byte} {frames : List (List Byte)} {tail : List Byte}
    (htail : ∀ b ∈ tail.head?, b = m) : ∀ b ∈ (wireBytes m frames tail).head?, b = m := by
  cases frames with
  | nil => exact htail
  | cons f frames =>
    rw [wireBytes_cons]
    exact head?_cons_eq

/-- In these bytes one of the frames stands at `p`: its payload is there, and behind it the later
frames and the tail. -/
def FrameAt (m : Byte) (n : Nat) (frames : List (List Byte)) (tail bytes : List Byte)
    (p : Nat) : Prop :=
  ∃ skipped f later, frames = skipped ++ f :: later ∧ (bytes.drop (p + 1)).take n = f ∧
    bytes.drop (p + n + 1) = wireBytes m later tail

section
variable {m : Byte} {n p : Nat} {frames : List (List Byte)} {noise tail bytes : List Byte}

theorem FrameAt.of_drop {k : Nat} (h : FrameAt m n frames tail (bytes.drop k) p) :
    FrameAt m n frames tail bytes (k + p) := by
  obtain ⟨skipped, f, later, hsplit, htake, hrest⟩ := h
  rw [List.drop_drop] at htake hrest
  exact ⟨skipped, f, later, hsplit, htake, by rw [← hrest]; congr 1; omega⟩

theorem FrameAt.cons (f : List Byte) (h : FrameAt m n frames tail bytes p) :
    FrameAt m n (f :: frames) tail bytes p := by
  obtain ⟨skipped, f', later, rfl, hframe⟩ := h
  exact ⟨f :: skipped, f', later, rfl, hframe⟩

/-- Where no payload holds `M` and the tail is no whole frame, a qualifying position is the marker
of one of the frames. -/
theorem frameAt_wireBytes (hframes : ∀ f ∈ frames, f.length = n ∧ m ∉ f) (htail : tail.length ≤ n)
    (hp : QualifiesIn m n (wireBytes m frames tail) p) :
    FrameAt m n frames tail (wireBytes m frames tail) p := by
  induction frames generalizing p with
  | nil =>
    have hl : p + n + 1 ≤ tail.length := hp.1
    omega
  | cons f frames ih =>
    obtain ⟨⟨hlen, hnoM⟩, hframes⟩ := List.forall_mem_cons.mp hframes
    rw [wireBytes_cons] at hp ⊢
    have hdrop : (m :: (f ++ wireBytes m frames tail)).drop (n + 1) = wireBytes m frames tail := by
      rw [List.drop_succ_cons, ← hlen, List.drop_left]
    rcases Nat.eq_zero_or_pos p with rfl | hpos
    · refine ⟨[], f, frames, rfl, ?_, by rw [Nat.zero_add, hdrop]⟩
      rw [List.drop_succ_cons, List.drop_zero, ← hlen, List.take_left]
    · have hge : n + 1 ≤ p := by
        refine Nat.le_of_not_lt fun hlt => ?_
        have hm := hp.2
        rw [List.getElem?_cons, if_neg (by omega), List.getElem?_append_left (by omega)] at hm
        exact hnoM (List.mem_of_getElem? hm)
      obtain ⟨q, rfl⟩ := Nat.exists_eq_add_of_le hge
      have hlater := ih hframes (hdrop ▸ qualifiesIn_drop_iff.mpr hp)
      exact (FrameAt.of_drop (hdrop.symm ▸ hlater)).cons f

/-- The same behind noise. -/
theorem frameAt_stream (hnoise : m ∉ noise) (hframes : ∀ f ∈ frames, f.length = n ∧ m ∉ f)
    (htail : tail.length ≤ n) (hp : QualifiesIn m n (noise ++ wireBytes m frames tail) p) :
    FrameAt m n frames tail (noise ++ wireBytes m frames tail) p := by
  obtain ⟨q, rfl⟩ := Nat.exists_eq_add_of_le (length_noise_le hnoise hp.2)
  have hdrop : (noise ++ wireBytes m frames tail).drop noise.length = wireBytes m frames tail :=
    List.drop_left
  have hlater := frameAt_wireBytes hframes htail (hdrop ▸ qualifiesIn_drop_iff.mpr hp)
  exact FrameAt.of_drop (hdrop.symm ▸ hlater)

end

theorem StreamEffect.batches_sublist {m : Byte} {n cap : Nat} {offers : List Offer}
    {c c' noise tail : List Byte} {frames batches : List (List Byte)} (hn : n ≤ 14)
    (hcap : 30 ≤ cap) (h : StreamEffect m n cap offers c c' batches) (hnoise : m ∉ noise)
    (hframes : ∀ f ∈ frames, f.length = n ∧ m ∉ f) (htail : tail.length ≤ n)
    (hhead : ∀ b ∈ tail.head?, b = m)
    (htotal : c ++ offerBytes offers = noise ++ wireBytes m frames tail) :
    batches.Sublist frames := by
  induction h generalizing noise frames with
  | nil c => exact List.nil_sublist _
  | @cons o offers c c₁ c' out batches hbeat hrest ih =>
    rw [offerBytes_cons, List.append_cons] at htotal
    cases out with
    | none =>
      obtain ⟨noise', hsub, htotal'⟩ :=
        hbeat.keeps_stream hn hcap (head?_wireBytes hhead) htotal
      exact ih (fun hm => hnoise (hsub hm)) hframes htotal'
    | some batch =>
      obtain ⟨p, hp, rfl, rfl⟩ := hbeat.frame_of_some
      have hl := hp.1
      have hwhole := hp.append (offerBytes offers)
      rw [htotal] at hwhole
      obtain ⟨skipped, f, later, rfl, htake, hlater⟩ :=
        frameAt_stream hnoise hframes htail hwhole
      rw [← htotal, List.drop_append_of_le_length (by omega),
        List.take_append_of_le_length (by rw [List.length_drop]; omega)] at htake
      rw [← htotal, List.drop_append_of_le_length hl] at hlater
      have hlaterFrames : ∀ f' ∈ later, f'.length = n ∧ m ∉ f' := fun f' hf' =>
        hframes f' (List.mem_append_right _ (List.mem_cons_of_mem _ hf'))
      have hsub := ih List.not_mem_nil hlaterFrames hlater
      rw [htake]
      exact (hsub.cons_cons f).trans (List.sublist_append_right skipped _)

/-- Settles O32: a beat that publishes takes the stream to just behind one of its frames. -/
theorem wellFormedStreamsGiveTrueBatches : Obligations.WellFormedStreamsGiveTrueBatches := by
  intro s noise tail frames offers rest hinv hq hp htm hl hnoise hframes htail hs hbytes hans
  obtain ⟨-, hn, -, -, -⟩ := hinv.run hp
  obtain ⟨t, batches, hrun, ht, -, hevt, heffect⟩ :=
    run_beats offers (hinv.runsOn hq hp) hinv.cap_ge htm hs hans
  rw [contents_eq_nil (hinv.cells_of_run hp) hl] at heffect
  have hshort : tail.length ≤ s.n.toNat ∧ ∀ b ∈ tail.head?, b = s.m := by
    rcases htail with rfl | ⟨q, rfl, hlt, -⟩
    · exact ⟨Nat.zero_le _, nofun⟩
    · exact ⟨hlt, head?_cons_eq⟩
  refine ⟨t, batches, hrun, ht.phase, ?_, hevt⟩
  refine heffect.batches_sublist hn hinv.cap_ge (fun hm => hnoise _ hm rfl)
    (fun f hf => ⟨(hframes f hf).1, fun hm => (hframes f hf).2 _ hm rfl⟩) hshort.1 hshort.2 ?_
  rw [List.nil_append, hbytes, List.append_assoc]
  rfl

end Sys2Proof.Machine
end

section
/-! O33, O34: DECODE and EMIT (42_decoder.md R151, R153).  The batch is the `N` bytes after the
marker; its AXIS events carry the channel numbers in the order of its values. -/

namespace Sys2Proof.Machine

/-! ### DECODE -/

theorem getElem?_batchAt {s : State} (hv : CellsValid s) (p : Nat) {i : Nat}
    (hi : i < s.n.toNat) : (batchAt s p)[i]? = s.buf.read (p + 1 + i) := by
  rw [batchAt, List.getElem?_take_of_lt hi, List.getElem?_drop, hv.read]

/-- Settles O33: on valid cells DECODE answers `batchAt`. -/
theorem decodeTakesTheBytesVerbatim : Obligations.DecodeTakesTheBytesVerbatim := by
  intro p s hp hv hl
  exact ⟨batchAt s p, exec_decode_cells hp hv hl, batchAt_length s p hv hl,
    fun _ hi => getElem?_batchAt hv p hi⟩

/-! ### The AXIS events of a batch -/

@[simp] theorem length_axisFrom (i : Nat) (batch : List Byte) :
    (axisFrom i batch).length = batch.length := by
  induction batch generalizing i with
  | nil => rfl
  | cons v vs ih => exact congrArg (· + 1) (ih (i + 1))

theorem getElem?_axisFrom (i j : Nat) (batch : List Byte) :
    (axisFrom i batch)[j]? = batch[j]?.map (.axis (BitVec.ofNat 4 (i + j))) := by
  induction batch generalizing i j with
  | nil => rfl
  | cons v vs ih =>
    cases j with
    | zero => rfl
    | succ j =>
      rw [axisFrom, List.getElem?_cons_succ, List.getElem?_cons_succ, ih, Nat.add_assoc,
        Nat.add_comm 1 j]

@[simp] theorem length_axisEvents (batch : List Byte) :
    (axisEvents batch).length = batch.length := length_axisFrom 0 batch

/-- Event `i` of a batch is value `i` on channel `i`. -/
theorem getElem?_axisEvents {batch : List Byte} {i : Nat} (hi : i < batch.length) :
    ∃ v, batch[i]? = some v ∧ (axisEvents batch)[i]? = some (.axis (BitVec.ofNat 4 i) v) := by
  refine ⟨batch[i], List.getElem?_eq_getElem hi, ?_⟩
  rw [axisEvents, getElem?_axisFrom, List.getElem?_eq_getElem hi, Nat.zero_add, Option.map_some]

/-! ### EMIT -/

theorem emitBatch_of_testmode (batch : List Byte) {s : State} (ht : s.cfg.testmode = true) :
    emitBatch batch s = .go s := if_pos ht

theorem emitBatch_of_ok (batch : List Byte) {s : State} (ht : s.cfg.testmode = false)
    (ha : s.ans = .ok) : emitBatch batch s = .go (emitEvt (batchEvents batch) s) := by
  simp [emitBatch, ht, ha]

theorem emitBatch_of_failAt (batch : List Byte) {s : State} {k : Nat}
    (ht : s.cfg.testmode = false) (ha : s.ans = .failAt k) : emitBatch batch s =
      .raised (trap .sinkWriteError (emitEvt (acceptedEvents batch k) s)) := by
  simp [emitBatch, ht, ha]

/-- The trap entry after `events` were emitted (60_exceptions.md R208). -/
theorem raised_trap_emitEvt (e : Err) (events : List EvtEvent) (s : State) :
    Raised e events s (trap e (emitEvt events s)) where
  phase := rfl
  err := rfl
  evt := rfl
  diag := rfl
  surroundings := ⟨rfl, rfl, rfl, rfl, rfl, rfl, rfl, rfl⟩

/-- Settles O34: EMIT is `emitBatch`, its events those of `axisEvents`. -/
theorem emitPublishesTheBatch : Obligations.EmitPublishesTheBatch := by
  intro batch s hp hlen
  rw [exec_emit hp hlen, ← hlen]
  refine ⟨fun ht => ?_, fun ht => ⟨axisEvents batch, length_axisEvents batch,
    fun i hi => getElem?_axisEvents hi, fun ha => ?_, fun k ha _ => ?_⟩⟩
  · rw [emitBatch_of_testmode batch ht, Flow.go_outcome]
  · rw [emitBatch_of_ok batch ht ha, Flow.go_outcome, List.append_assoc]
    rfl
  · rw [emitBatch_of_failAt batch ht ha, Flow.raised_outcome]
    exact ⟨_, rfl, raised_trap_emitEvt _ _ s⟩

end Sys2Proof.Machine
end

section
/-! O37: what one step adds to the EVT trace (42_decoder.md R154, 43_diagnostics.md R167).  Only a
beat of phase RUN can publish: it goes on with no frame or with one whole frame, or the sink fails
and the beat raises. -/

namespace Sys2Proof.Machine

/-! ### The operations that publish nothing -/

theorem noteCandidate_evt (w : BeatWord) (s : State) : (noteCandidate w s).evt = s.evt := by
  rw [noteCandidate_frame]

theorem countBootByte_keeps_evt {b t : State} (h : (countBootByte b).outcome = .next t) :
    t.evt = b.evt := by
  rcases countBootByte_cases b with ⟨-, e⟩ | ⟨-, -, e⟩ | ⟨-, -, -, e⟩
  · rw [e] at h; cases h; rfl
  · rw [e] at h; cases h; rfl
  · rw [e] at h; cases h; rfl

/-- A bootstrap byte raises SyncNotFound, if it raises. -/
theorem countBootByte_err_of_fail {b t : State} (hb : b.phase ≠ .fail)
    (h : (countBootByte b).outcome = .next t) (ht : t.phase = .fail) : t.err = .syncNotFound := by
  rcases countBootByte_cases b with ⟨-, e⟩ | ⟨-, -, e⟩ | ⟨-, -, -, e⟩
  · rw [e] at h; cases h; exact absurd ht hb
  · rw [e] at h; cases h; rfl
  · rw [e] at h; cases h; cases ht

theorem execSrcerr_keeps_evt {s t : State} (h : execSrcerr s = .next t) : t.evt = s.evt := by
  unfold execSrcerr at h
  split at h
  · cases h; rfl
  · cases h; rfl

theorem execSrcerr_err_of_ne_fail {s t : State} (h : execSrcerr s = .next t)
    (hs : s.phase ≠ .fail) : t.err = .readError := by
  rw [execSrcerr, if_neg hs] at h
  cases h
  rfl

/-! ### A beat of phase RUN -/

/-- A sink that fails has accepted at most the `N` AXIS events of the batch. -/
theorem acceptedEvents_eq_take_le (batch : List Byte) (k : Nat) :
    ∃ j ≤ batch.length, acceptedEvents batch k = (axisEvents batch).take j :=
  ⟨min k batch.length, Nat.min_le_right _ _, by
    rw [acceptedEvents, List.take_eq_take_min, length_axisEvents]⟩

/-- All a beat of phase RUN can publish outside test mode: nothing, and then it writes the cells and
`LEN` only; one whole batch, and then `SEQ` has counted it; or what a failing sink accepted of a
batch. -/
theorem beatFlow_publishes {last : Bool} {d : Byte} {s t : State}
    (h : (beatFlow last d s).outcome = .next t) (htm : s.cfg.testmode = false) :
    t = { s with buf := t.buf, len := t.len } ∨
    (t.phase = s.phase ∧ t.seq = nextSeq s ∧
      ∃ batch, batch.length = s.n.toNat ∧ t.evt = s.evt ++ batchEvents batch) ∨
    (t.phase = .fail ∧ t.err = .sinkWriteError ∧
      ∃ batch k, batch.length = s.n.toNat ∧ k ≤ s.n.toNat ∧
        t.evt = s.evt ++ (axisEvents batch).take k) := by
  rcases Flow.outcome_eq_next h with hgo | hraised
  · rcases beatFlow_eq_go hgo with ht | ⟨batch, hcount, -, hstate⟩
    · exact .inl ht
    · rw [htm] at hstate
      rw [hstate]
      exact .inr (.inl ⟨rfl, rfl, batch, hcount, rfl⟩)
  · obtain ⟨batch, k, hcount, -, -, a, ha, rfl⟩ := beatFlow_eq_raised hraised
    obtain ⟨j, hj, htake⟩ := acceptedEvents_eq_take_le batch k
    refine .inr (.inr ⟨rfl, rfl, batch, j, hcount, hcount ▸ hj, ?_⟩)
    rw [trap_evt, emitEvt_evt, htake, ha]

/-- Settles O37: RESET, SRCERR, a bootstrap byte and waiting keep the trace and raise no
SinkWriteError; a beat of phase RUN does what `beatFlow_publishes` says. -/
theorem evtTraceGrowsByWholeBatches : Obligations.EvtTraceGrowsByWholeBatches := by
  intro s t htm hstep
  rw [← arrive_cfg s] at htm
  rw [← arrive_evt s, ← arrive_phase s, ← arrive_seq s, ← arrive_n s, ← arrive_cfg s]
  cases step_kind s with
  | reset _ e =>
    cases e.symm.trans hstep
    exact .inl ⟨rfl, fun _ => nofun, fun ⟨_, hfail, _⟩ => nomatch hfail⟩
  | srcerr _ _ e =>
    have hsrcerr := e.symm.trans hstep
    refine .inl ⟨(execSrcerr_keeps_evt hsrcerr).trans rfl, fun _ hrun => ?_,
      fun ⟨hne, _, herr⟩ => ?_⟩
    · cases (execSrcerr_phase hsrcerr).symm.trans hrun
    · cases (execSrcerr_err_of_ne_fail hsrcerr hne).symm.trans herr
  | bootBeat _ _ hp o rest _ e =>
    rw [exec_decodeBoot o.word (takeBeat o rest _) hp] at e
    have hbeat := e.symm.trans hstep
    have hboot : (noteCandidate o.word (takeBeat o rest (arrive s))).phase ≠ .fail := by
      rw [noteCandidate_phase]
      exact fun hfail => nomatch hp.symm.trans hfail
    refine .inl ⟨(countBootByte_keeps_evt hbeat).trans (noteCandidate_evt _ _), fun hrun => ?_,
      fun ⟨_, hfail, herr⟩ => ?_⟩
    · cases hp.symm.trans hrun
    · cases (countBootByte_err_of_fail hboot hbeat hfail).symm.trans herr
  | runBeat _ _ hp o rest _ e =>
    rw [exec_decodeRun o.word (takeBeat o rest _) hp] at e
    rcases beatFlow_publishes (e.symm.trans hstep) htm with
      ht | ⟨hrun, hseq, hbatch⟩ | ⟨hfail, herr, hpart⟩
    · rw [ht]
      exact .inl ⟨rfl, fun _ _ => rfl, fun ⟨hne, hfail, _⟩ => hne hfail⟩
    · exact .inr (.inl ⟨hp, hrun.trans hp, hseq, hbatch⟩)
    · exact .inr (.inr ⟨hp, hfail, herr, hpart⟩)
  | wait _ _ _ e =>
    cases e.symm.trans hstep
    exact .inl ⟨rfl, fun _ _ => rfl, fun ⟨hne, hfail, _⟩ => hne hfail⟩

end Sys2Proof.Machine
end

section
/-! O38: test mode only silences the sink (42_decoder.md R155).  An operation in test mode and the
same operation with an open sink end the same way, in states that differ by `withOpenSink` only:
`Flow.map` says so.  EMIT is the one operation that writes the EVT trace; the others commute with
`withOpenSink` at any trace. -/

namespace Sys2Proof.Machine

/-! ### Flows with their states rewritten -/

/-- The flow with its state, where it has one, rewritten by `g`. -/
def Flow.map (g : State → State) : Flow → Flow
  | .go s => .go (g s)
  | .raised s => .raised (g s)
  | .stop e => .stop e

@[simp] theorem Flow.map_go (g : State → State) (s : State) : (Flow.go s).map g = .go (g s) := rfl
@[simp] theorem Flow.map_raised (g : State → State) (s : State) :
    (Flow.raised s).map g = .raised (g s) := rfl
@[simp] theorem Flow.map_stop (g : State → State) (e : Fault) :
    (Flow.stop e).map g = .stop e := rfl

theorem Flow.outcome_map_of_next {f : Flow} {t : State} (g : State → State)
    (h : f.outcome = .next t) : (f.map g).outcome = .next (g t) := by
  rcases Flow.outcome_eq_next h with rfl | rfl
  · rfl
  · rfl

/-- Two operations in a row commute with `g` if each of them does. -/
theorem Flow.andThen_map {f : Flow} {g : State → State} {h h' : State → Flow}
    (hh : ∀ s, f = .go s → h' (g s) = (h s).map g) :
    (f.map g).andThen h' = (f.andThen h).map g := by
  cases f with
  | go s => exact hh s rfl
  | raised s => rfl
  | stop e => rfl

/-! ### What the reads depend on -/

theorem readBuf_congr {s s' : State} (hb : s'.buf = s.buf) (hl : s'.len = s.len) (i : Nat) :
    readBuf s' i = readBuf s i := by
  rw [readBuf, readBuf, hb, hl]

theorem readRange_congr {s s' : State} (hb : s'.buf = s.buf) (hl : s'.len = s.len) (i k : Nat) :
    readRange s' i k = readRange s i k := by
  induction k generalizing i with
  | zero => rfl
  | succ k ih => rw [readRange, readRange, readBuf_congr hb hl, ih]

theorem scanBelow_congr {s s' : State} (hb : s'.buf = s.buf) (hl : s'.len = s.len)
    (hm : s'.m = s.m) (k : Nat) : scanBelow s' k = scanBelow s k := by
  induction k with
  | zero => rfl
  | succ k ih => rw [scanBelow, scanBelow, readBuf_congr hb hl, hm, ih]

/-! ### The operations that do not ask the sink -/

section
variable (evt : List EvtEvent)

theorem readRange_withOpenSink (s : State) (i k : Nat) :
    readRange (withOpenSink evt s) i k = readRange s i k :=
  readRange_congr (s := s) (s' := withOpenSink evt s) rfl rfl i k

theorem decodeBatch_withOpenSink (p : Nat) (s : State) :
    decodeBatch p (withOpenSink evt s) = decodeBatch p s := readRange_withOpenSink evt s _ _

theorem scanBuf_withOpenSink (s : State) : scanBuf (withOpenSink evt s) = scanBuf s :=
  scanBelow_congr (s := s) (s' := withOpenSink evt s) rfl rfl rfl _

theorem bootClose_withOpenSink (s : State) :
    bootClose (withOpenSink evt s) = (bootClose s).map (withOpenSink evt) := by
  rw [bootClose, bootClose, apply_ite (Flow.map _), apply_ite (Flow.map _)]
  rfl

theorem countBootByte_withOpenSink (s : State) :
    countBootByte (withOpenSink evt s) = (countBootByte s).map (withOpenSink evt) := by
  rw [countBootByte, countBootByte, apply_ite (Flow.map _), ← bootClose_withOpenSink]
  rfl

theorem appendByte_withOpenSink (d : Byte) (s : State) :
    appendByte d (withOpenSink evt s) = (appendByte d s).map (withOpenSink evt) := by
  rw [appendByte, appendByte, apply_ite (Flow.map _)]
  rfl

theorem keepNewest_withOpenSink (k r : Nat) (s : State) :
    keepNewest k r (withOpenSink evt s) = (keepNewest k r s).map (withOpenSink evt) := by
  have hbuf : (withOpenSink evt s).buf = s.buf := rfl
  rw [keepNewest, keepNewest, hbuf]
  cases moveDown k r 0 s.buf with
  | none => rfl
  | some mem => rfl

theorem discardFrame_withOpenSink (p : Nat) (s : State) :
    discardFrame p (withOpenSink evt s) = (discardFrame p s).map (withOpenSink evt) := by
  rw [discardFrame, discardFrame, apply_ite (Flow.map _), ← keepNewest_withOpenSink]
  rfl

theorem overflowRecovery_withOpenSink (s : State) :
    overflowRecovery (withOpenSink evt s) = (overflowRecovery s).map (withOpenSink evt) :=
  keepNewest_withOpenSink evt _ _ s

theorem sampleFrame_withOpenSink (p : Nat) (s : State) :
    sampleFrame p (withOpenSink evt s) = (sampleFrame p s).map (withOpenSink evt) := by
  have hn : (withOpenSink evt s).n = s.n := rfl
  rw [sampleFrame, sampleFrame, apply_ite (Flow.map _), hn, readRange_withOpenSink]
  cases readRange s p (s.n.toNat + 1) with
  | none => rfl
  | some bytes => rfl

end

/-! ### The operations that may ask the sink -/

/-- `f'` ends as `f` does, in the same state but for the open sink and some EVT trace. -/
def SameButSink (f f' : Flow) : Prop := ∃ evt, f' = f.map (withOpenSink evt)

theorem emitBatch_sameButSink (batch : List Byte) (evt : List EvtEvent) {s : State}
    (ht : s.cfg.testmode = true) :
    SameButSink (emitBatch batch s) (emitBatch batch (withOpenSink evt s)) := by
  refine ⟨evt ++ batchEvents batch, ?_⟩
  rw [emitBatch_of_testmode batch ht, emitBatch_of_ok batch (s := withOpenSink evt s) rfl rfl]
  rfl

theorem processFrame_sameButSink (p : Nat) (evt : List EvtEvent) {s : State}
    (ht : s.cfg.testmode = true) :
    SameButSink (processFrame p s) (processFrame p (withOpenSink evt s)) := by
  cases hbatch : decodeBatch p s with
  | none =>
    refine ⟨evt, ?_⟩
    rw [processFrame, processFrame, decodeBatch_withOpenSink, hbatch]
    rfl
  | some batch =>
    obtain ⟨evt', hemit⟩ := emitBatch_sameButSink batch evt ht
    refine ⟨evt', ?_⟩
    rw [processFrame_of_decoded hbatch,
      processFrame_of_decoded ((decodeBatch_withOpenSink evt p s).trans hbatch), hemit]
    refine Flow.andThen_map fun s₁ _ => ?_
    rw [sampleFrame_withOpenSink]
    exact Flow.andThen_map fun s₂ _ => discardFrame_withOpenSink evt' p s₂

theorem cycleEnd_sameButSink (evt : List EvtEvent) {s : State} (ht : s.cfg.testmode = true) :
    SameButSink (cycleEnd s) (cycleEnd (withOpenSink evt s)) := by
  have hscan := scanBuf_withOpenSink evt s
  cases hs : scanBuf s with
  | error f => exact ⟨evt, by rw [cycleEnd, cycleEnd, hscan, hs]; rfl⟩
  | ok r =>
    cases r with
    | some p =>
      rw [cycleEnd_of_some hs, cycleEnd_of_some (hscan.trans hs)]
      exact processFrame_sameButSink p evt ht
    | none =>
      refine ⟨evt, ?_⟩
      rw [cycleEnd_of_none hs, cycleEnd_of_none (hscan.trans hs), apply_ite (Flow.map _),
        ← overflowRecovery_withOpenSink]
      rfl

theorem beatFlow_sameButSink (last : Bool) (d : Byte) (evt : List EvtEvent) {s : State}
    (ht : s.cfg.testmode = true) :
    SameButSink (beatFlow last d s) (beatFlow last d (withOpenSink evt s)) := by
  have happend := appendByte_withOpenSink evt d s
  rcases appendByte_cases d s with ⟨-, a, ha, e⟩ | ⟨-, e⟩
  · rw [beatFlow, beatFlow, happend, e, Flow.map_go, Flow.go_andThen, Flow.go_andThen]
    by_cases hend : last = true ∨ a.len = a.cfg.cap
    · obtain ⟨evt', hcycle⟩ := cycleEnd_sameButSink evt (s := a) (ha.cfg ▸ ht)
      exact ⟨evt', by rw [if_pos hend, ← hcycle]; exact if_pos hend⟩
    · exact ⟨evt, by rw [if_neg hend]; exact if_neg hend⟩
  · exact ⟨evt, by rw [beatFlow, beatFlow, happend, e]; rfl⟩

/-! ### The instructions -/

/-- The guard of a beat reads `PHASE` only. -/
theorem inPhase_withOpenSink {p : Phase} {s t : State} {f f' : Flow} (hf : SameButSink f f')
    (h : inPhase p s f = .next t) (evt : List EvtEvent) :
    ∃ evt', inPhase p (withOpenSink evt s) f' = .next (withOpenSink evt' t) := by
  obtain ⟨evt', rfl⟩ := hf
  obtain ⟨hp, hnext⟩ := inPhase_eq_next h
  exact ⟨evt', (inPhase_of (s := withOpenSink evt s) _ hp).trans
    (Flow.outcome_map_of_next _ hnext)⟩

theorem whenCalled_withOpenSink {c : Prop} [Decidable c] {t : State} {f f' : Flow}
    (hf : SameButSink f f') (h : whenCalled c f = .next t) :
    ∃ evt', whenCalled c f' = .next (withOpenSink evt' t) := by
  obtain ⟨evt', rfl⟩ := hf
  obtain ⟨hc, hnext⟩ := whenCalled_eq_next h
  exact ⟨evt', (whenCalled_of _ hc).trans (Flow.outcome_map_of_next _ hnext)⟩

theorem execSrcerr_withOpenSink {s t : State} (h : execSrcerr s = .next t)
    (evt : List EvtEvent) : execSrcerr (withOpenSink evt s) = .next (withOpenSink evt t) := by
  by_cases hp : s.phase = .fail
  · rw [execSrcerr, if_pos hp] at h
    cases h
    exact if_pos hp
  · rw [execSrcerr, if_neg hp] at h
    cases h
    exact if_neg hp

theorem execScan_withOpenSink {s t : State} (h : execScan s = .next t) (evt : List EvtEvent) :
    ∃ evt', execScan (withOpenSink evt s) = .next (withOpenSink evt' t) := by
  refine whenCalled_withOpenSink ⟨evt, ?_⟩ h
  rw [scanBuf_withOpenSink]
  cases scanBuf s with
  | error f => rfl
  | ok r => rfl

theorem execDecode_withOpenSink {p : Nat} {s t : State} (h : execDecode p s = .next t)
    (evt : List EvtEvent) :
    ∃ evt', execDecode p (withOpenSink evt s) = .next (withOpenSink evt' t) := by
  refine whenCalled_withOpenSink ⟨evt, ?_⟩ h
  rw [decodeBatch_withOpenSink]
  cases decodeBatch p s with
  | none => rfl
  | some batch => rfl

/-- No event stands on the port in test mode (log 11). -/
theorem portEvent_ne_next_of_testmode {e : EvtEvent} {s t : State}
    (ht : s.cfg.testmode = true) : portEvent e s ≠ .next t := by
  intro h
  obtain ⟨⟨-, hopen⟩, -⟩ := whenCalled_eq_next h
  cases ht.symm.trans hopen

/-- The second half of R155, instruction by instruction. -/
theorem exec_withOpenSink {i : Instr} {s t : State} (ht : s.cfg.testmode = true)
    (h : exec i s = .next t) (evt : List EvtEvent) :
    ∃ evt', exec i (withOpenSink evt s) = .next (withOpenSink evt' t) := by
  cases i with
  | bskip _ _ => exact inPhase_withOpenSink ⟨evt, countBootByte_withOpenSink evt s⟩ h evt
  | bcand _ c =>
    exact inPhase_withOpenSink
      ⟨evt, countBootByte_withOpenSink evt { s with candv := true, cand := c }⟩ h evt
  | push d =>
    have hbeat := (execPush_eq_beatFlow d s).symm.trans h
    obtain ⟨evt', h'⟩ := inPhase_withOpenSink (beatFlow_sameButSink false d evt ht) hbeat evt
    exact ⟨evt', (execPush_eq_beatFlow d _).trans h'⟩
  | pushl d =>
    have hbeat := (execPushl_eq_beatFlow d s).symm.trans h
    obtain ⟨evt', h'⟩ := inPhase_withOpenSink (beatFlow_sameButSink true d evt ht) hbeat evt
    exact ⟨evt', (execPushl_eq_beatFlow d _).trans h'⟩
  | reset => cases h; exact ⟨evt, rfl⟩
  | srcerr => exact ⟨evt, execSrcerr_withOpenSink h evt⟩
  | wireMarker _ => cases h; exact ⟨evt, rfl⟩
  | wirePayload _ => cases h; exact ⟨evt, rfl⟩
  | evtAxis _ _ => exact absurd h (portEvent_ne_next_of_testmode ht)
  | evtSync => exact absurd h (portEvent_ne_next_of_testmode ht)
  | bootclose => exact whenCalled_withOpenSink ⟨evt, bootClose_withOpenSink evt s⟩ h
  | cycleend => exact whenCalled_withOpenSink (cycleEnd_sameButSink evt ht) h
  | scan => exact execScan_withOpenSink h evt
  | discard p => exact whenCalled_withOpenSink ⟨evt, discardFrame_withOpenSink evt p s⟩ h
  | ovfrec => exact whenCalled_withOpenSink ⟨evt, overflowRecovery_withOpenSink evt s⟩ h
  | decode _ => exact execDecode_withOpenSink h evt
  | emit batch => exact whenCalled_withOpenSink (emitBatch_sameButSink batch evt ht) h
  | sample p => exact whenCalled_withOpenSink ⟨evt, sampleFrame_withOpenSink evt p s⟩ h

/-! ### The step -/

theorem beatFlow_keeps_evt_of_testmode {last : Bool} {d : Byte} {s t : State}
    (h : (beatFlow last d s).outcome = .next t) (ht : s.cfg.testmode = true) : t.evt = s.evt := by
  rcases Flow.outcome_eq_next h with hgo | hraised
  · rcases beatFlow_eq_go hgo with e | ⟨batch, hproc⟩
    · rw [e]
    · rw [hproc.state, ht, if_pos rfl, List.append_nil]
  · obtain ⟨batch, k, -, hopen, -⟩ := beatFlow_eq_raised hraised
    cases ht.symm.trans hopen

/-- The first half of R155: only a beat of phase RUN could add to the trace. -/
theorem step_keeps_evt_of_testmode {s t : State} (ht : s.cfg.testmode = true)
    (h : step s = .next t) : t.evt = s.evt := by
  rw [← arrive_cfg s] at ht
  rw [← arrive_evt s]
  cases step_kind s with
  | reset _ e => cases e.symm.trans h; rfl
  | srcerr _ _ e => exact (execSrcerr_keeps_evt (e.symm.trans h)).trans rfl
  | bootBeat _ _ hp o rest _ e =>
    rw [exec_decodeBoot o.word (takeBeat o rest _) hp] at e
    exact (countBootByte_keeps_evt (e.symm.trans h)).trans (noteCandidate_evt _ _)
  | runBeat _ _ hp o rest _ e =>
    rw [exec_decodeRun o.word (takeBeat o rest _) hp] at e
    exact (beatFlow_keeps_evt_of_testmode (e.symm.trans h) ht).trans rfl
  | wait _ _ _ e => cases e.symm.trans h; rfl

/-- Settles O38: a frame found in test mode publishes nothing, and every instruction is an operation
that an open sink changes in the EVT trace only. -/
theorem testModeOnlySilencesTheSink : Obligations.TestModeOnlySilencesTheSink :=
  ⟨fun _ _ => step_keeps_evt_of_testmode, fun _ _ _ => exec_withOpenSink⟩

end Sys2Proof.Machine
end


section
/-! O36: SAMPLE (43_diagnostics.md R166).  On valid cells a whole frame can be read, so SAMPLE
completes whether it reports the frame or not. -/

namespace Sys2Proof.Machine

/-- No report: sampling is disabled, or the count is no multiple of the period. -/
theorem reportDue_eq_false_of {p seq : Nat} (h : p = 0 ∨ seq % p ≠ 0) :
    reportDue p seq = false := by
  rcases h with hp | hseq
  · simp [reportDue, hp]
  · simp [reportDue, hseq]

/-- The bytes of the frame at `p`, marker first. -/
def frameBytes (s : State) (p : Nat) : List Byte := ((contents s).drop p).take (s.n.toNat + 1)

theorem length_frameBytes {s : State} (hv : CellsValid s) {p : Nat}
    (hl : p + s.n.toNat + 1 ≤ s.len) : (frameBytes s p).length = s.n.toNat + 1 := by
  rw [frameBytes, List.length_take, List.length_drop, hv.length]
  omega

theorem getElem?_frameBytes {s : State} (hv : CellsValid s) (p : Nat) {j : Nat}
    (hj : j ≤ s.n.toNat) : (frameBytes s p)[j]? = s.buf.read (p + j) := by
  rw [frameBytes, List.getElem?_take_of_lt (Nat.lt_succ_of_le hj), List.getElem?_drop, hv.read]

theorem exec_sample_unreported {p : Nat} {s : State} (hp : s.phase = .run) (hv : CellsValid s)
    (hl : p + s.n.toNat + 1 ≤ s.len) (hdue : reportDue s.cfg.p (nextSeq s) = false) :
    exec (.sample p) s = .next { s with seq := nextSeq s } := by
  rw [exec_sample hp, sampleFrame_cells p s hv hl, hdue, if_neg Bool.false_ne_true,
    List.append_nil, Flow.go_outcome]

theorem exec_sample_reported {p : Nat} {s : State} (hp : s.phase = .run) (hv : CellsValid s)
    (hl : p + s.n.toNat + 1 ≤ s.len) (hdue : reportDue s.cfg.p (nextSeq s) = true) :
    exec (.sample p) s = .next { s with
      seq := nextSeq s, diag := s.diag ++ [.frame (nextSeq s) (frameBytes s p)] } := by
  rw [exec_sample hp, sampleFrame_cells p s hv hl, if_pos hdue, Flow.go_outcome, frameBytes]

/-- Settles O36: the new count is `nextSeq`, the bytes reported are `frameBytes`. -/
theorem sampleCountsAndReports : Obligations.SampleCountsAndReports := by
  intro p s hp hv hl
  refine ⟨nextSeq s, rfl, fun hno => ?_, fun ⟨hperiod, hseq⟩ => ?_⟩
  · exact exec_sample_unreported hp hv hl (reportDue_eq_false_of hno)
  · exact ⟨frameBytes s p, length_frameBytes hv hl, fun j hj => getElem?_frameBytes hv p hj,
      exec_sample_reported hp hv hl (reportDue_of hperiod hseq)⟩

end Sys2Proof.Machine
end

section
/-! O39: the sample period has no influence (43_diagnostics.md R168).  SAMPLE alone reads `P`, to
choose whether it reports the frame, and no operation reads the DIAG trace.  So an operation run
with another period ends the same way (`SameButPeriod`), provided SAMPLE can read the report that
the other period asks for: on valid cells it can. -/

namespace Sys2Proof.Machine

/-! ### Flows that differ by the period -/

/-- `f'` ends as `f` does, in the same state but for the period `p` and some DIAG trace. -/
def SameButPeriod (p : Nat) (f f' : Flow) : Prop := ∃ diag, f' = f.map (withPeriod p diag)

section
variable {p : Nat} {f f' : Flow}

theorem SameButPeriod.outcome {t : State} (hf : SameButPeriod p f f')
    (h : f.outcome = .next t) : ∃ diag, f'.outcome = .next (withPeriod p diag t) := by
  obtain ⟨diag, rfl⟩ := hf
  exact ⟨diag, Flow.outcome_map_of_next _ h⟩

/-- Operations in a row: the second one meets some DIAG trace. -/
theorem SameButPeriod.andThen {g : State → Flow} (hf : SameButPeriod p f f')
    (hg : ∀ s diag, f = .go s → SameButPeriod p (g s) (g (withPeriod p diag s))) :
    SameButPeriod p (f.andThen g) (f'.andThen g) := by
  obtain ⟨diag, rfl⟩ := hf
  cases f with
  | go s => exact hg s diag rfl
  | raised s => exact ⟨diag, rfl⟩
  | stop e => exact ⟨diag, rfl⟩

/-- A choice by something that the period does not change. -/
theorem SameButPeriod.ite {g g' : Flow} (c : Prop) [Decidable c] (hf : SameButPeriod p f f')
    (hg : SameButPeriod p g g') :
    SameButPeriod p (if c then f else g) (if c then f' else g') := by
  by_cases hc : c
  · rwa [if_pos hc, if_pos hc]
  · rwa [if_neg hc, if_neg hc]

end

/-- EMIT that goes on writes the EVT trace only. -/
theorem emitBatch_eq_go {batch : List Byte} {s t : State} (h : emitBatch batch s = .go t) :
    t = { s with evt := t.evt } := by
  rcases emitBatch_cases batch s with ⟨-, e⟩ | ⟨-, -, e⟩ | ⟨k, -, -, e⟩ | ⟨-, -, e⟩
  · cases e.symm.trans h; rfl
  · cases e.symm.trans h; rfl
  · cases e.symm.trans h
  · cases e.symm.trans h

section
variable (p : Nat) (diag : List DiagEvent)

/-! ### A beat of phase BOOT -/

theorem bootClose_sameButPeriod (s : State) :
    SameButPeriod p (bootClose s) (bootClose (withPeriod p diag s)) :=
  .ite (s.candv = false) ⟨_, rfl⟩ (.ite (channelCount s.cand ≤ 0) ⟨_, rfl⟩ ⟨_, rfl⟩)

theorem countBootByte_sameButPeriod (s : State) :
    SameButPeriod p (countBootByte s) (countBootByte (withPeriod p diag s)) :=
  .ite (s.bootcnt + 1 = s.cfg.w)
    (bootClose_sameButPeriod p diag { s with bootcnt := s.bootcnt + 1 }) ⟨_, rfl⟩

theorem noteCandidate_withPeriod (w : BeatWord) (s : State) :
    noteCandidate w (withPeriod p diag s) = withPeriod p diag (noteCandidate w s) := by
  rw [noteCandidate, noteCandidate, apply_ite (withPeriod p diag)]
  rfl

/-! ### A beat of phase RUN -/

theorem scanBuf_withPeriod (s : State) : scanBuf (withPeriod p diag s) = scanBuf s :=
  scanBelow_congr (s := s) (s' := withPeriod p diag s) rfl rfl rfl _

theorem keepNewest_sameButPeriod (k r : Nat) (s : State) :
    SameButPeriod p (keepNewest k r s) (keepNewest k r (withPeriod p diag s)) := by
  have hbuf : (withPeriod p diag s).buf = s.buf := rfl
  rw [keepNewest, keepNewest, hbuf]
  cases moveDown k r 0 s.buf with
  | none => exact ⟨diag, rfl⟩
  | some mem => exact ⟨diag, rfl⟩

theorem discardFrame_sameButPeriod (q : Nat) (s : State) :
    SameButPeriod p (discardFrame q s) (discardFrame q (withPeriod p diag s)) :=
  .ite (q + s.n.toNat + 1 ≤ s.len) (keepNewest_sameButPeriod p diag _ _ s) ⟨diag, rfl⟩

theorem emitBatch_sameButPeriod (batch : List Byte) (s : State) :
    SameButPeriod p (emitBatch batch s) (emitBatch batch (withPeriod p diag s)) := by
  have hans : (withPeriod p diag s).ans = s.ans := rfl
  rw [emitBatch, emitBatch, hans]
  refine .ite (s.cfg.testmode = true) ⟨diag, rfl⟩ ?_
  cases s.ans with
  | ok => exact ⟨_, rfl⟩
  | failAt k => exact ⟨_, rfl⟩
  | never => exact ⟨diag, rfl⟩

/-- The one operation that reads `P`: reporting the frame or not, it goes on. -/
theorem sampleFrame_sameButPeriod {q : Nat} {s : State} (hv : CellsValid s)
    (hq : q + s.n.toNat + 1 ≤ s.len) :
    SameButPeriod p (sampleFrame q s) (sampleFrame q (withPeriod p diag s)) := by
  have hother := sampleFrame_cells q (withPeriod p diag s) hv hq
  exact ⟨_, by rw [sampleFrame_cells q s hv hq, hother]; rfl⟩

theorem processFrame_sameButPeriod {q : Nat} {s : State} (hv : CellsValid s)
    (hq : q + s.n.toNat + 1 ≤ s.len) :
    SameButPeriod p (processFrame q s) (processFrame q (withPeriod p diag s)) := by
  have hother := decodeBatch_cells q (withPeriod p diag s) hv hq
  rw [processFrame_of_decoded (decodeBatch_cells q s hv hq), processFrame_of_decoded hother]
  refine (emitBatch_sameButPeriod p diag _ s).andThen fun s₁ diag₁ hemit => ?_
  have hs₁ := emitBatch_eq_go hemit
  have hv₁ : CellsValid s₁ := by rw [hs₁]; exact hv
  have hq₁ : q + s₁.n.toNat + 1 ≤ s₁.len := by rw [hs₁]; exact hq
  exact (sampleFrame_sameButPeriod p diag₁ hv₁ hq₁).andThen
    fun s₂ diag₂ _ => discardFrame_sameButPeriod p diag₂ q s₂

/-- SCAN finds the same frame, which lies within the buffer, or none. -/
theorem cycleEnd_sameButPeriod {s : State} (hv : CellsValid s) :
    SameButPeriod p (cycleEnd s) (cycleEnd (withPeriod p diag s)) := by
  obtain ⟨r, hr, hsome, -⟩ := scanBuf_cells s hv
  have hother := (scanBuf_withPeriod p diag s).trans hr
  cases r with
  | none =>
    rw [cycleEnd_of_none hr, cycleEnd_of_none hother]
    exact .ite (s.len = s.cfg.cap) (keepNewest_sameButPeriod p diag _ _ s) ⟨diag, rfl⟩
  | some q =>
    rw [cycleEnd_of_some hr, cycleEnd_of_some hother]
    exact processFrame_sameButPeriod p diag hv (hsome q rfl).1.1

theorem beatFlow_sameButPeriod (last : Bool) (d : Byte) {s : State} (hv : CellsValid s)
    (hl : s.len < s.cfg.cap) :
    SameButPeriod p (beatFlow last d s) (beatFlow last d (withPeriod p diag s)) := by
  have hother := beatFlow_cells last d (withPeriod p diag s) hv hl
  rw [beatFlow_cells last d s hv hl, hother]
  exact .ite (last = true ∨ s.len + 1 = s.cfg.cap)
    (cycleEnd_sameButPeriod p diag (pushed_cells d s hv).1) ⟨diag, rfl⟩

end

/-! ### The instruction of a signal that a step can take -/

/-- `i` does in `s` the same with another period and another DIAG trace. -/
def KeepsPeriodApart (i : Instr) (s : State) : Prop :=
  ∀ t, exec i s = .next t → ∀ p diag, ∃ diag',
    exec i (withPeriod p diag s) = .next (withPeriod p diag' t)

theorem reset_keepsPeriodApart (s : State) : KeepsPeriodApart .reset s := by
  intro t h p diag
  cases h
  exact ⟨diag, rfl⟩

theorem srcerr_keepsPeriodApart (s : State) : KeepsPeriodApart .srcerr s := by
  intro t h p diag
  have h := (execSrcerr_eq s).symm.trans h
  by_cases hp : s.phase = .fail
  · rw [if_pos hp] at h
    cases h
    exact ⟨diag, if_pos hp⟩
  · rw [if_neg hp] at h
    cases h
    exact ⟨_, if_neg hp⟩

theorem decodeBoot_keepsPeriodApart (w : BeatWord) {s : State} (hp : s.phase = .boot) :
    KeepsPeriodApart (decodeBoot w) s := by
  intro t h p diag
  rw [exec_decodeBoot w s hp] at h
  rw [exec_decodeBoot w (withPeriod p diag s) hp, noteCandidate_withPeriod]
  exact (countBootByte_sameButPeriod p diag _).outcome h

theorem decodeRun_keepsPeriodApart (w : BeatWord) {s : State} (hs : BlockInv s)
    (hp : s.phase = .run) : KeepsPeriodApart (decodeRun w) s := by
  intro t h p diag
  rw [exec_decodeRun w s hp] at h
  rw [exec_decodeRun w (withPeriod p diag s) hp]
  exact (beatFlow_sameButPeriod p diag _ _ (hs.cells_of_run hp) (hs.len_lt_of_run hp)).outcome h

/-! ### The environment's side of a step -/

section
variable (p : Nat) (diag : List DiagEvent)

theorem apply_withPeriod (a : EnvAction) (s : State) :
    a.apply (withPeriod p diag s) = withPeriod p diag (a.apply s) := by
  cases a with
  | scriptBeat o =>
    rw [EnvAction.apply, EnvAction.apply, apply_ite (withPeriod p diag)]
    rfl
  | _ => rfl

theorem applyAll_withPeriod (acts : List EnvAction) (s : State) :
    applyAll acts (withPeriod p diag s) = withPeriod p diag (applyAll acts s) := by
  induction acts generalizing s with
  | nil => rfl
  | cons a rest ih => rw [applyAll, applyAll, apply_withPeriod, ih]

theorem arrive_withPeriod (s : State) :
    arrive (withPeriod p diag s) = withPeriod p diag (arrive s) := by
  have hscript : (withPeriod p diag s).script = s.script := rfl
  rw [arrive, arrive, hscript]
  cases s.script with
  | nil => rfl
  | cons acts rest => exact applyAll_withPeriod p diag acts { s with script := rest }

theorem fetch_withPeriod (s : State) : fetch (withPeriod p diag s) = fetch s := rfl

theorem accept_withPeriod (sig : Signal) (s : State) :
    accept sig (withPeriod p diag s) = withPeriod p diag (accept sig s) := by
  have hsource : (withPeriod p diag s).source = s.source := rfl
  simp only [accept, hsource]
  split
  · rfl
  · rfl
  · split
    · rfl
    · rfl

end

/-- All the block can take in a state (60_exceptions.md R212): a pin event, or a beat in the phase
that selects its operation. -/
inductive FetchKind (a : State) : Prop
  | nothing (h : fetch a = none)
  | reset (h : fetch a = some (.pin .reset))
  | srcerr (h : fetch a = some (.pin .srcerr))
  | bootBeat (w : BeatWord) (hp : a.phase = .boot) (h : fetch a = some (.bootBeat w))
  | runBeat (w : BeatWord) (hp : a.phase = .run) (h : fetch a = some (.runBeat w))

theorem fetch_kind (a : State) : FetchKind a := by
  cases hr : a.resetPin with
  | true => exact .reset (by simp [fetch, hr])
  | false =>
    cases he : a.srcerrPin with
    | true => exact .srcerr (by simp [fetch, hr, he])
    | false =>
      cases hs : a.source with
      | nil => exact .nothing (by simp [fetch, hr, he, hs])
      | cons o rest =>
        cases hp : a.phase with
        | boot => exact .bootBeat o.word hp (by simp [fetch, hr, he, hs, hp])
        | run => exact .runBeat o.word hp (by simp [fetch, hr, he, hs, hp])
        | fail => exact .nothing (by simp [fetch, hr, he, hs, hp])

theorem accept_phase (sig : Signal) (s : State) : (accept sig s).phase = s.phase := by
  unfold accept
  split
  · rfl
  · rfl
  · split
    · rfl
    · rfl

theorem accept_keeps_blockInv {s : State} (h : BlockInv s) (sig : Signal) :
    BlockInv (accept sig s) := by
  unfold accept
  split
  · exact h.with_environment _ _ _ _ _ _
  · exact h.with_environment _ _ _ _ _ _
  · split
    · exact h
    · exact h.with_environment _ _ _ _ _ _

/-! ### The step -/

theorem step_of_fetch_eq_none {s : State} (hf : fetch (arrive s) = none) :
    step s = .next (arrive s) := by
  rw [step, hf]

theorem step_of_fetch_eq_some {s : State} {sig : Signal} {i : Instr}
    (hf : fetch (arrive s) = some sig) (hd : decode sig = .ok i) :
    step s = exec i (accept sig (arrive s)) := by
  simp only [step, hf, hd]

/-- The two steps take the same signal, and its instruction runs in states that differ by the period
and the DIAG trace only. -/
theorem step_withPeriod_of_fetch {s t : State} {sig : Signal} {i : Instr}
    (hf : fetch (arrive s) = some sig) (hd : decode sig = .ok i)
    (hi : KeepsPeriodApart i (accept sig (arrive s))) (h : step s = .next t) (p : Nat)
    (diag : List DiagEvent) :
    ∃ diag', step (withPeriod p diag s) = .next (withPeriod p diag' t) := by
  have hother : fetch (arrive (withPeriod p diag s)) = some sig := by
    rw [arrive_withPeriod, fetch_withPeriod, hf]
  rw [step_of_fetch_eq_some hother hd, arrive_withPeriod, accept_withPeriod]
  exact hi t ((step_of_fetch_eq_some hf hd).symm.trans h) p diag

/-- Settles O39: whichever event the step takes, its operation does not depend on the period but for
the DIAG trace; and waiting writes nothing. -/
theorem samplePeriodHasNoInfluence : Obligations.SamplePeriodHasNoInfluence := by
  intro s t p diag hinv h
  have harrive := arrive_keeps_blockInv hinv
  cases fetch_kind (arrive s) with
  | nothing hf =>
    cases (step_of_fetch_eq_none hf).symm.trans h
    refine ⟨diag, ?_⟩
    rw [← arrive_withPeriod]
    exact step_of_fetch_eq_none (by rw [arrive_withPeriod, fetch_withPeriod, hf])
  | reset hf => exact step_withPeriod_of_fetch hf rfl (reset_keepsPeriodApart _) h p diag
  | srcerr hf => exact step_withPeriod_of_fetch hf rfl (srcerr_keepsPeriodApart _) h p diag
  | bootBeat w hp hf =>
    have hi := decodeBoot_keepsPeriodApart w ((accept_phase (.bootBeat w) _).trans hp)
    exact step_withPeriod_of_fetch hf rfl hi h p diag
  | runBeat w hp hf =>
    have hi := decodeRun_keepsPeriodApart w (accept_keeps_blockInv harrive (.runBeat w))
      ((accept_phase _ _).trans hp)
    exact step_withPeriod_of_fetch hf rfl hi h p diag

end Sys2Proof.Machine
end

section
/-! O40, O41, O46: the phase (44_system.md R181, R183, R184, R190).  RESET and SRCERR are the two pin
operations; with them, the beats of both phases and waiting, the causes of a step's phase change are
listed once (`PhaseChange`). -/

namespace Sys2Proof.Machine

/-! ### The pin operations -/

theorem exec_reset (s : State) : exec .reset s = .next (resetBlock s) := rfl

theorem exec_srcerr (s : State) :
    exec .srcerr s = .next (if s.phase = .fail then s else trap .readError s) := execSrcerr_eq s

theorem sameSurroundings_resetBlock (s : State) : SameSurroundings s (resetBlock s) :=
  ⟨rfl, rfl, rfl, rfl, rfl, rfl, rfl, rfl⟩

/-- Settles O40: RESET is `resetBlock`, in every state. -/
theorem resetStartsARun : Obligations.ResetStartsARun := fun s =>
  ⟨resetBlock s, exec_reset s, resetBlock_phase s, resetBlock_err s, resetBlock_bootcnt s,
    resetBlock_candv s, resetBlock_len s, resetBlock_seq s, resetBlock_evt s, resetBlock_diag s,
    sameSurroundings_resetBlock s⟩

/-- Settles O41: outside phase FAIL SRCERR is the trap entry, inside it nothing. -/
theorem srcerrRaisesReadErrorOnce : Obligations.SrcerrRaisesReadErrorOnce := by
  intro s
  rw [exec_srcerr]
  refine ⟨fun hp => ?_, fun hp => ?_⟩
  · rw [if_neg hp]
    exact ⟨_, rfl, raised_trap .readError s⟩
  · rw [if_pos hp]

/-! ### The beats -/

/-- The phase after a byte of phase BOOT: only the byte that closes the window changes it, to RUN or
by SyncNotFound. -/
theorem countBootByte_phase {b t : State} (h : (countBootByte b).outcome = .next t) :
    t.phase = b.phase ∨
    (b.bootcnt + 1 = b.cfg.w ∧ (t.phase = .run ∨ t.phase = .fail ∧ t.err = .syncNotFound)) := by
  rcases countBootByte_cases b with ⟨-, e⟩ | ⟨hw, -, e⟩ | ⟨hw, -, -, e⟩
  · rw [e] at h; cases h
    exact .inl rfl
  · rw [e] at h; cases h
    exact .inr ⟨hw, .inr ⟨rfl, rfl⟩⟩
  · rw [e] at h; cases h
    exact .inr ⟨hw, .inl rfl⟩

/-- The phase after a beat of phase RUN: only a sink that fails changes it. -/
theorem beatFlow_phase {last : Bool} {d : Byte} {s t : State}
    (h : (beatFlow last d s).outcome = .next t) :
    t.phase = s.phase ∨
    (t.phase = .fail ∧ t.err = .sinkWriteError ∧ s.cfg.testmode = false ∧
      ∃ k, s.ans = .failAt k) := by
  rcases Flow.outcome_eq_next h with hgo | hraised
  · left
    rcases beatFlow_eq_go hgo with e | ⟨batch, hproc⟩
    · rw [e]
    · rw [hproc.state]
  · obtain ⟨batch, k, -, htest, hans, a, -, rfl⟩ := beatFlow_eq_raised hraised
    exact .inr ⟨rfl, rfl, htest, k, hans⟩

/-! ### The step -/

/-- All a step can do to the phase, each change with its cause (44_system.md R190). -/
inductive PhaseChange (s t : State) : Prop
  | kept (ht : t.phase = s.phase)
  | reset (ht : t.phase = .boot) (hpin : (arrive s).resetPin = true)
  | readError (ht : t.phase = .fail) (he : t.err = .readError)
      (hpin : (arrive s).srcerrPin = true)
  | windowCloses (ht : t.phase = .run) (hs : s.phase = .boot) (hw : s.bootcnt + 1 = s.cfg.w)
  | syncNotFound (ht : t.phase = .fail) (he : t.err = .syncNotFound) (hs : s.phase = .boot)
      (hw : s.bootcnt + 1 = s.cfg.w)
  | sinkFails (ht : t.phase = .fail) (he : t.err = .sinkWriteError) (hs : s.phase = .run)
      (htest : s.cfg.testmode = false) (o : Offer) (rest : List Offer) (k : Nat)
      (hsource : (arrive s).source = o :: rest) (hans : o.ans = .failAt k)

theorem step_phaseChange {s t : State} (h : step s = .next t) : PhaseChange s t := by
  cases step_kind s with
  | reset hpin e =>
    cases e.symm.trans h
    exact .reset rfl hpin
  | srcerr _ hpin e =>
    have hsrcerr := e.symm.trans h
    by_cases hs : s.phase = .fail
    · exact .kept ((execSrcerr_phase hsrcerr).trans hs.symm)
    · have ha : (arrive s).phase ≠ .fail := by rwa [arrive_phase]
      exact .readError (execSrcerr_phase hsrcerr) (execSrcerr_err_of_ne_fail hsrcerr ha) hpin
  | bootBeat _ _ hp o rest _ e =>
    rw [exec_decodeBoot o.word (takeBeat o rest _) hp] at e
    have hbeat := countBootByte_phase (e.symm.trans h)
    rw [noteCandidate_frame] at hbeat
    have hs := (arrive_phase s).symm.trans hp
    rcases hbeat with ht | ⟨hw, hclosed⟩
    · exact .kept (ht.trans (arrive_phase s))
    · replace hw : s.bootcnt + 1 = s.cfg.w := by rwa [← arrive_bootcnt, ← arrive_cfg]
      rcases hclosed with ht | ⟨ht, he⟩
      · exact .windowCloses ht hs hw
      · exact .syncNotFound ht he hs hw
  | runBeat _ _ hp o rest hsource e =>
    rw [exec_decodeRun o.word (takeBeat o rest _) hp] at e
    rcases beatFlow_phase (e.symm.trans h) with ht | ⟨ht, he, htest, k, hans⟩
    · exact .kept (ht.trans (arrive_phase s))
    · exact .sinkFails ht he ((arrive_phase s).symm.trans hp) (arrive_cfg s ▸ htest) o rest k
        hsource hans
  | wait _ _ _ e =>
    cases e.symm.trans h
    exact .kept (arrive_phase s)

/-- Settles O46: each of the three phases is reached only by the changes listed. -/
theorem phaseChanges : Obligations.PhaseChanges := by
  intro s t h
  cases step_phaseChange h with
  | kept ht =>
    rw [ht]
    exact ⟨.inl, .inl, .inl⟩
  | reset ht hpin =>
    rw [ht]
    exact ⟨fun _ => .inr hpin, nofun, nofun⟩
  | readError ht he hpin =>
    rw [ht]
    exact ⟨nofun, nofun, fun _ => .inr (.inl ⟨he, hpin⟩)⟩
  | windowCloses ht hs hw =>
    rw [ht]
    exact ⟨nofun, fun _ => .inr ⟨hs, hw⟩, nofun⟩
  | syncNotFound ht he hs hw =>
    rw [ht]
    exact ⟨nofun, nofun, fun _ => .inr (.inr (.inl ⟨he, hs, hw⟩))⟩
  | sinkFails ht he hs htest o rest k hsource hans =>
    rw [ht]
    exact ⟨nofun, nofun, fun _ =>
      .inr (.inr (.inr ⟨he, hs, htest, o, rest, k, hsource, hans⟩))⟩

end Sys2Proof.Machine
end

section
/-! O51, O52: the two halves of a step (44_system.md R180, R188), the environment's gap and the
instruction of the event taken. -/

namespace Sys2Proof.Machine

/-- Settles O51: `step` by what it fetches. -/
theorem stepRunsTheDecodedInstruction : Obligations.StepRunsTheDecodedInstruction := fun _ =>
  ⟨fun _ _ => step_of_fetch_eq_some, step_of_fetch_eq_none⟩

/-- What differs in the environment's pins and queues only has the same registers and traces. -/
theorem SameButQueues.sameBlock {s t : State} (h : SameButQueues s t) : SameBlock s t := by
  rw [h]
  exact ⟨rfl, rfl, rfl, rfl, rfl, rfl, rfl, rfl, rfl, rfl, rfl, rfl⟩

/-- Settles O52: the gap writes pins and queues only. -/
theorem environmentTouchesNoRegister : Obligations.EnvironmentTouchesNoRegister := fun s =>
  ⟨(arrive_sameButQueues s).sameBlock, arrive_cfg s⟩

end Sys2Proof.Machine
end

section
/-! O47, O50: which event a step takes (60_exceptions.md R210, R212), each from the case of
`StepKind` that the pins, the queue and the phase select. -/

namespace Sys2Proof.Machine

/-- R210, R184: in phase FAIL all a step without RESET does is let the gap pass and take an SRCERR
that is presented, which raises nothing there. -/
theorem step_of_phase_fail {s : State} (hp : s.phase = .fail) (hr : (arrive s).resetPin = false) :
    step s = .next { arrive s with srcerrPin := false } := by
  have hphase : (arrive s).phase = .fail := (arrive_phase s).trans hp
  cases step_kind s with
  | reset hpin _ => cases hr.symm.trans hpin
  | srcerr _ _ e => rw [e, exec_srcerr, if_pos hphase]
  | bootBeat _ _ hboot _ _ _ _ => cases hphase.symm.trans hboot
  | runBeat _ _ hrun _ _ _ _ => cases hphase.symm.trans hrun
  | wait _ he _ e => rw [e, ← he]

/-- Settles O47: the step lowers the pin of SRCERR and writes nothing else after the gap, and the gap
writes pins and queues only. -/
theorem failIsTerminal : Obligations.FailIsTerminal := by
  intro s hp hr
  have hlower : SameButQueues (arrive s) { arrive s with srcerrPin := false } := rfl
  exact ⟨_, step_of_phase_fail hp hr, ((arrive_sameButQueues s).trans hlower).sameBlock, rfl⟩

/-- Settles O50: the case of the step that happens gives its clause; the pins, the queue or the phase
rule the other clauses out. -/
theorem eventPriority : Obligations.EventPriority := by
  intro s a ha
  have hkind : StepKind s a := ha ▸ step_kind s
  cases hkind with
  | reset hr e => exact ⟨fun _ => e, by simp [hr], by simp [hr], by simp [hr]⟩
  | srcerr hr he e => exact ⟨by simp [hr], fun _ _ => e, by simp [he], by simp [he]⟩
  | bootBeat hr he hp o rest hs e =>
    refine ⟨by simp [hr], by simp [he], fun _ _ _ _ hs' => ?_, by simp [hs]⟩
    cases hs.symm.trans hs'
    exact ⟨fun _ => ⟨_, rfl, e⟩, by simp [hp], by simp [hp]⟩
  | runBeat hr he hp o rest hs e =>
    refine ⟨by simp [hr], by simp [he], fun _ _ _ _ hs' => ?_, by simp [hs]⟩
    cases hs.symm.trans hs'
    exact ⟨by simp [hp], fun _ => ⟨_, rfl, e⟩, by simp [hp]⟩
  | wait hr he hw e =>
    refine ⟨by simp [hr], by simp [he], fun _ _ o rest hs => ?_, fun _ _ _ => e⟩
    have hp : a.phase = .fail := hw.resolve_left (by simp [hs])
    exact ⟨by simp [hp], by simp [hp], fun _ => e⟩

end Sys2Proof.Machine
end

section
/-! O35: the stuck sink (70_reset_and_hazards.md R246). -/

namespace Sys2Proof.Machine

/-- The sink is asked outside test mode only, and only an answer of `never` leaves it silent. -/
theorem not_sinkAnswers {s : State} (ht : s.cfg.testmode = false) (ha : s.ans = .never) :
    ¬ SinkAnswers s := by
  rintro (htest | hans)
  · cases ht.symm.trans htest
  · exact hans ha

/-- Settles O35: in phase RUN a batch of `N` values is EMIT's to publish, and the sink is silent. -/
theorem silentSinkStalls : Obligations.SilentSinkStalls := by
  intro batch s hp hlen ht ha
  rw [exec_emit hp hlen, emitBatch_of_silent batch (not_sinkAnswers ht ha), Flow.stop_outcome]

end Sys2Proof.Machine
end

section
/-! O1, O2, O3: the encoder and the decoder are inverse to each other (30_encoding.md R73, R74, R80,
R84, R87).  One law for each place and direction: what was put together is read back, and a word
that is accepted is put together again from the fields the decoder read. -/

namespace Sys2Proof.Machine

/-! ### The operand ranges -/

theorem wellFormed_bskip (last : Bool) (d : Byte) :
    (Instr.bskip last d).wellFormed = true ↔ d.toNat ≤ 0xEF := decide_eq_true_iff

theorem wellFormed_wireMarker (m : Nibble) :
    (Instr.wireMarker m).wellFormed = true ↔ 2 ≤ m.toNat := decide_eq_true_iff

theorem wellFormed_evtAxis (ch : Nibble) (val : Byte) :
    (Instr.evtAxis ch val).wellFormed = true ↔ ch.toNat ≤ 13 := decide_eq_true_iff

theorem wellFormed_emit (batch : List Byte) :
    (Instr.emit batch).wellFormed = true ↔ 1 ≤ batch.length ∧ batch.length ≤ 14 := by
  rw [Instr.wellFormed, Bool.and_eq_true, decide_eq_true_iff, decide_eq_true_iff]

/-! ### Reading what was encoded -/

/-- A marker nibble from 2 on reads back from its byte (30_encoding.md R73, R77). -/
theorem decodeWireFirst_byteOf {m : Nibble} (h : 2 ≤ m.toNat) :
    decodeWireFirst (byteOf 0xF#4 m) = .ok (.wireMarker m) := by
  rw [decodeWireFirst, if_pos (isCandidate_byteOf m), loNibble_byteOf, if_pos h]

theorem decodeCall_emit {batch : List Byte} (h : 1 ≤ batch.length ∧ batch.length ≤ 14) :
    decodeCall (.emit batch) = .ok (.emit batch) := if_pos h

/-- Settles O1: each encoding is read back field by field; the operand ranges are the decoder's own
conditions. -/
theorem decodeOfEncode : Obligations.DecodeOfEncode := by
  intro i h
  cases i with
  | bskip last d =>
    exact congrArg Except.ok (decodeBoot_beatOf_bskip last ((wellFormed_bskip last d).mp h))
  | bcand last c => exact congrArg Except.ok (decodeBoot_beatOf_bcand last c)
  | push d => exact decode_beatOf_false d
  | pushl d => exact decode_beatOf_true d
  | wireMarker m => exact decodeWireFirst_byteOf ((wellFormed_wireMarker m).mp h)
  | evtAxis ch val => exact decodeEvt_evtWord_axis val ((wellFormed_evtAxis ch val).mp h)
  | evtSync => exact decodeEvt_evtWord_sync
  | emit batch => exact decodeCall_emit ((wellFormed_emit batch).mp h)
  | reset | srcerr | wirePayload | bootclose | cycleend | scan | discard | ovfrec | decode
  | sample => rfl

/-! ### Encoding what was read -/

/-- The instruction exists and the signal is its encoding. -/
def MeansAt (sig : Signal) (i : Instr) : Prop := i.wellFormed = true ∧ encode i = sig

/-- Both rows of phase BOOT: a data byte below 0xF0 is a BSKIP operand, one from there on is 0xF and
BCAND's nibble (30_encoding.md R84). -/
theorem decodeBoot_meansAt (w : BeatWord) : MeansAt (.bootBeat w) (decodeBoot w) := by
  by_cases hc : isCandidate (beatData w) = true
  · rw [decodeBoot, if_pos hc]
    refine ⟨rfl, congrArg Signal.bootBeat ?_⟩
    rw [← eq_byteOf_of_isCandidate hc, beatOf_eta]
  · rw [decodeBoot, if_neg hc]
    have hd : (beatData w).toNat ≤ 0xEF :=
      Nat.le_of_lt_succ (Nat.lt_of_not_le (mt (isCandidate_iff _).mpr hc))
    exact ⟨(wellFormed_bskip _ _).mpr hd, congrArg Signal.bootBeat (beatOf_eta w)⟩

/-- Both rows of phase RUN: the row holds the bit `last` that selected it (30_encoding.md R84). -/
theorem decodeRun_meansAt (w : BeatWord) : MeansAt (.runBeat w) (decodeRun w) := by
  have heta := beatOf_eta w
  cases hl : beatLast w with
  | true =>
    rw [decodeRun, if_pos hl]
    exact ⟨rfl, congrArg Signal.runBeat (hl ▸ heta)⟩
  | false =>
    rw [decodeRun, if_neg (Bool.eq_false_iff.mp hl)]
    exact ⟨rfl, congrArg Signal.runBeat (hl ▸ heta)⟩

/-- An accepted first wire byte is 0xF and the marker's nibble (30_encoding.md R73, R77). -/
theorem decodeWireFirst_meansAt {b : Byte} {i : Instr} (h : decodeWireFirst b = .ok i) :
    MeansAt (.wireFirst b) i := by
  unfold decodeWireFirst at h
  split at h
  case isFalse => cases h
  case isTrue hc =>
    split at h
    case isFalse => cases h
    case isTrue hm =>
      cases h
      exact ⟨(wellFormed_wireMarker _).mpr hm,
        congrArg Signal.wireFirst (eq_byteOf_of_isCandidate hc).symm⟩

/-- An accepted word of the EVT port is bit 12 alone, or an existing channel and its value with
bit 12 clear (30_encoding.md R85, R87). -/
theorem decodeEvt_meansAt {w : EvtWord} {i : Instr} (h : decodeEvt w = .ok i) :
    MeansAt (.evtPort w) i := by
  unfold decodeEvt at h
  split at h
  case isTrue =>
    split at h
    case isFalse => cases h
    case isTrue hw => cases h; exact ⟨rfl, congrArg Signal.evtPort hw.symm⟩
  case isFalse hs =>
    split at h
    case isFalse => cases h
    case isTrue hch =>
      cases h
      have heta := evtWordOf_eta w
      rw [Bool.eq_false_iff.mpr hs] at heta
      exact ⟨(wellFormed_evtAxis _ _).mpr hch, congrArg Signal.evtPort heta⟩

/-- A call is its own name, and an accepted EMIT has a batch of 1 to 14 values
(30_encoding.md R90, 42_decoder.md R151). -/
theorem decodeCall_meansAt {c : Call} {i : Instr} (h : decodeCall c = .ok i) :
    MeansAt (.call c) i := by
  cases c with
  | emit batch =>
    rw [decodeCall] at h
    split at h
    case isFalse => cases h
    case isTrue hlen => cases h; exact ⟨(wellFormed_emit batch).mpr hlen, rfl⟩
  | bootclose | cycleend | scan | discard | ovfrec | decode | sample => cases h; exact ⟨rfl, rfl⟩

/-- Settles O2: by the place of the signal. -/
theorem encodeOfDecode : Obligations.EncodeOfDecode := by
  intro sig i h
  cases sig with
  | bootBeat w => cases h; exact decodeBoot_meansAt w
  | runBeat w => cases h; exact decodeRun_meansAt w
  | pin p =>
    cases p with
    | reset | srcerr => cases h; exact ⟨rfl, rfl⟩
  | wireFirst b => exact decodeWireFirst_meansAt h
  | wireLater b => cases h; exact ⟨rfl, rfl⟩
  | evtPort w => exact decodeEvt_meansAt h
  | call c => exact decodeCall_meansAt h

/-- Settles O3: each word is the encoding of a well-formed instruction, so O1 reads it back. -/
theorem specWordsDecode : Obligations.SpecWordsDecode :=
  ⟨decodeOfEncode (.bskip false 0x7F#8) rfl, decodeOfEncode (.bskip true 0xEF#8) rfl,
    decodeOfEncode (.bcand false 7#4) rfl, decodeOfEncode (.push 0xF4#8) rfl,
    decodeOfEncode (.pushl 0xF4#8) rfl, decodeOfEncode (.wireMarker 9#4) rfl,
    decodeOfEncode (.wirePayload 0xFF#8) rfl, decodeOfEncode (.evtAxis 2#4 0xFE#8) rfl,
    decodeOfEncode .evtSync rfl⟩

end Sys2Proof.Machine
end
